-- ==== Sys2Proof/Word.lean ====
section
/-! DEFINITION. The widths of the GF2POLY-256 core: command words, scalar words, polynomial values
(spec/00_scope.md R6 to R8). -/

namespace Sys2Proof

/-- A 64-bit scalar word or polynomial block (R6: BW = 64; R21). -/
abbrev Word := BitVec 64

/-- A 32-bit command word (R70). -/
abbrev Command := BitVec 32

/-- A polynomial of capacity 256 as the 256-bit value Σ b_i·2^i (R8). -/
abbrev Coeffs := BitVec 256

end Sys2Proof
end

