-- ==== Sys2Proof/Machine/Arith.lean ====
section
/-! DEFINITION. The arithmetic of the eight sub-blocks, on plain values: degree and floor(log2) (spec/40_bitscan.md,
43_block_array.md R126), blocks, interleave (41), word convolution (42), shifts (44), and the product (00 R12, 45). -/

namespace Sys2Proof.Machine

/-! ### Degree and bit scan -/

/-- `deg(v)`: the index of the highest set bit, -1 for 0 (00_scope.md R10). -/
def degree (v : Nat) : Int := if v = 0 then -1 else (Nat.log2 v : Int)

/-- `size(v) = deg(v) + 1` (R10). -/
def bitSize (v : Nat) : Nat := if v = 0 then 0 else Nat.log2 v + 1

/-- `log2_W(v)`: the index of the highest set bit, the sentinel 0 for 0 (40_bitscan.md, before R90). -/
def floorLog2 {w : Nat} (v : BitVec w) : Nat := if v = 0 then 0 else Nat.log2 v.toNat

/-- The leading-zero count of a W-bit word, W for 0 (R93, R94). -/
def leadingZeros {w : Nat} (v : BitVec w) : Nat := if v = 0 then w else w - 1 - floorLog2 v

/-! ### Blocks -/

/-- `v.blk[k]`; 0 for k above 3 (R8, R9, R140). -/
def block (v : Coeffs) (k : Nat) : Word := v.extractLsb' (64 * k) 64

/-- `v` with block `k` replaced (R54, R118). -/
def setBlock (v : Coeffs) (k : Nat) (b : Word) : Coeffs :=
  (v &&& ~~~((BitVec.allOnes 64).setWidth 256 <<< (64 * k))) ||| (b.setWidth 256 <<< (64 * k))

/-- The value whose blocks are, from the highest, `b3, b2, b1, b0` (R8). -/
def ofBlocks (b3 b2 b1 b0 : Word) : Coeffs := b3 ++ b2 ++ b1 ++ b0

/-- `computeDegree(v)`: blocks scanned from the most significant one (R126). -/
def computeDegree (v : Coeffs) : Int := scan 4
where
  /-- The scan of the blocks below `k`. -/
  scan : Nat → Int
    | 0 => -1
    | k + 1 => if block v k ≠ 0 then 64 * (k : Int) + floorLog2 (block v k) else scan k

/-- Used blocks: 0 for the zero polynomial, else deg div 64 + 1 (R122). -/
def usedBlocks (deg : Int) : Int := if deg = -1 then 0 else deg / 64 + 1

/-- PFROMB's loop: block `k` of the result is block `start + k` of the source, for k below the count (R116). -/
def fromBlocks (v : Coeffs) (start : Nat) : Nat → Coeffs
  | 0 => 0
  | k + 1 => setBlock (fromBlocks v start k) k (block v (start + k))

/-! ### Interleave -/

/-- A word of width `n` whose only bit that may be set is bit `pos`. -/
def bitAt (n : Nat) (b : Bool) (pos : Nat) : BitVec n := if b then 1#n <<< pos else 0#n

/-- `interleave_W(a, b)`: bit 2i is bit i of a, bit 2i+1 is bit i of b (R100). -/
def interleave {w : Nat} (a b : BitVec w) : BitVec (2 * w) := loop w
where
  /-- The result of the first `n` turns of the loop of R100. -/
  loop : Nat → BitVec (2 * w)
    | 0 => 0
    | i + 1 => loop i ||| bitAt (2 * w) (a.getLsbD i) (2 * i) ||| bitAt (2 * w) (b.getLsbD i) (2 * i + 1)

/-- One mask-and-shift step of the bit spreader. -/
def spreadStep {w : Nat} (s : Nat) (mask x : BitVec w) : BitVec w := (x ||| x <<< s) &&& mask

/-- `spread32`: bit i moves to bit 2i (R103). The reference form of the interleaver. -/
def spread32 (x : BitVec 32) : BitVec 64 :=
  spreadStep 1 0x5555555555555555#64 (spreadStep 2 0x3333333333333333#64 (spreadStep 4 0x0F0F0F0F0F0F0F0F#64
    (spreadStep 8 0x00FF00FF00FF00FF#64 (spreadStep 16 0x0000FFFF0000FFFF#64 (x.setWidth 64)))))

/-- `spread16` (R103). -/
def spread16 (x : BitVec 16) : BitVec 32 :=
  spreadStep 1 0x55555555#32 (spreadStep 2 0x33333333#32 (spreadStep 4 0x0F0F0F0F#32
    (spreadStep 8 0x00FF00FF#32 (x.setWidth 32))))

/-! ### Word convolution -/

/-- One term of the convolution loops: shift distance `d`, placed `sh` higher (R105). -/
def convTerm {w : Nat} (a b : BitVec w) (d sh : Nat) : BitVec w :=
  (((a >>> d) &&& b) ^^^ (a &&& (b >>> d))) <<< sh

/-- `resEven` after the even distances 2, 4, …, 2n (R105). -/
def convEven {w : Nat} (a b : BitVec w) : Nat → BitVec w
  | 0 => a &&& b
  | n + 1 => convEven a b n ^^^ convTerm a b (2 * (n + 1)) (n + 1)

/-- `resOdd` after the odd distances 1, 3, …, 2n - 1 (R105). -/
def convOdd {w : Nat} (a b : BitVec w) : Nat → BitVec w
  | 0 => 0
  | n + 1 => convOdd a b n ^^^ convTerm a b (2 * n + 1) n

/-- `conv_W(a, b)`: even d in [2, W), odd d in [1, W), then interleave (R105). -/
def conv {w : Nat} (a b : BitVec w) : BitVec (2 * w) :=
  interleave (convEven a b (w / 2 - 1)) (convOdd a b (w / 2))

/-! ### The reference product -/

/-- `clmul(a, b)`, of unbounded width: the XOR of one copy of `b`, shifted left by i, for each bit i set in `a`;
the inner loop of R12 over the set bits j of `b` flips exactly the bits i + j (00_scope.md R12). -/
def clmul (a b : Nat) : Nat := rows (bitSize a)
where
  /-- The rows of the bits of `a` below `n`. -/
  rows : Nat → Nat
    | 0 => 0
    | i + 1 => rows i ^^^ (if a.testBit i then b <<< i else 0)

/-- `trunc_256(clmul(a, b))` (R159, R160). -/
def truncProduct (a b : Coeffs) : Coeffs := BitVec.ofNat 256 (clmul a.toNat b.toNat)

/-! ### Shifts -/

/-- One destination block of the left shift: from the aligned block `lo` and the one below it, `hi` (R140). -/
def shlBlock (r : Nat) (lo hi : Word) : Word := if r = 0 then lo else (lo <<< r) ||| (hi >>> (64 - r))

/-- One destination block of the right shift: from the aligned block `lo` and the one above it, `hi` (R142). -/
def shrBlock (r : Nat) (lo hi : Word) : Word := if r = 0 then lo else (lo >>> r) ||| (hi <<< (64 - r))

/-- `src.blk[k - q]`, 0 where k - q is negative (R140). -/
def blockBelow (src : Coeffs) (k q : Nat) : Word := if q ≤ k then block src (k - q) else 0

/-- `shl(src, i)`: the left-shift datapath over blocks (R140). No word shift has an amount of 64 or more. -/
def shl (src : Coeffs) (i : Nat) : Coeffs := ofBlocks (dst 3) (dst 2) (dst 1) (dst 0)
where
  /-- Destination block `k`. -/
  dst (k : Nat) : Word := shlBlock (i % 64) (blockBelow src k (i / 64)) (blockBelow src k (i / 64 + 1))

/-- `shr(src, i)`: the right-shift datapath over blocks (R142). -/
def shr (src : Coeffs) (i : Nat) : Coeffs := ofBlocks (dst 3) (dst 2) (dst 1) (dst 0)
where
  /-- Destination block `k`. -/
  dst (k : Nat) : Word := shrBlock (i % 64) (blockAbove (k + i / 64)) (blockAbove (k + i / 64 + 1))
  /-- `src.blk[j]`, 0 for j above 3. -/
  blockAbove (j : Nat) : Word := if j ≤ 3 then block src j else 0

/-! ### The recursive multiplier

Rules R155 to R158: the source's datapath. The command's result is `truncProduct` (R159, R160); that the two agree is
stated as an obligation. -/

/-- `nub(v)` of an intermediate value (R122, R158). -/
def valueBlocks (v : Coeffs) : Nat := (usedBlocks (degree v.toNat)).toNat

/-- The low `n` bits of a value, `v mod 2^n` (R9). -/
def lowBits (v : Coeffs) (n : Nat) : Coeffs := v &&& BitVec.ofNat 256 (2 ^ n - 1)

/-- Tier 2's recombination: `{hi, lo}` from the three sub-products (R156). -/
def combine1 (c2 c1 c0 : Word) : Coeffs :=
  ((c2 ^^^ (c1 >>> 32)) ++ (c0 ^^^ (c1 <<< 32)) : BitVec 128).setWidth 256

/-- `kmul(a, b)` with `fuel` levels of recursion left (R155 to R157). -/
def kmulLevels : Nat → Coeffs → Coeffs → Coeffs
  | 0, _, _ => 0
  | fuel + 1, a, b =>
    if a = 0 ∨ b = 0 then 0
    else if valueBlocks a = 1 ∧ valueBlocks b = 1 then
      let w := max (bitSize a.toNat) (bitSize b.toNat)
      if w ≤ 16 then (conv (a.setWidth 16) (b.setWidth 16)).setWidth 256
      else if w ≤ 32 then (conv (a.setWidth 32) (b.setWidth 32)).setWidth 256
      else
        let a1 := lowBits (a >>> 32) 32
        let a0 := lowBits a 32
        let b1 := lowBits (b >>> 32) 32
        let b0 := lowBits b 32
        let c2 := kmulLevels fuel a1 b1
        let c0 := kmulLevels fuel a0 b0
        let c1 := kmulLevels fuel (a1 ^^^ a0) (b1 ^^^ b0) ^^^ c2 ^^^ c0
        combine1 (c2.setWidth 64) (c1.setWidth 64) (c0.setWidth 64)
    else
      let cut := (max (valueBlocks a) (valueBlocks b) + 1) / 2
      let a0 := lowBits a (64 * cut)
      let a1 := shr a (64 * cut)
      let b0 := lowBits b (64 * cut)
      let b1 := shr b (64 * cut)
      let c2 := kmulLevels fuel a1 b1
      let c0 := kmulLevels fuel a0 b0
      let c1 := kmulLevels fuel (a1 ^^^ a0) (b1 ^^^ b0) ^^^ c2 ^^^ c0
      shl c2 (128 * cut) ^^^ shl c1 (64 * cut) ^^^ c0

/-- `kmul(a, b)` (R157): two block-splitting levels, one split of a 64-bit word, and the convolutions, so four
levels reach every leaf (log 18). -/
def kmul (a b : Coeffs) : Coeffs := kmulLevels 4 a b

end Sys2Proof.Machine
end

