-- ==== Sys2Proof/Config.lean ====
section
/-! DEFINITION. What is fixed for one machine: the identification word, the open parameters of
spec/92_eei_decisions.md, and the free values. A constant without a body is a value nothing in Lean can read. -/

namespace Sys2Proof

/-- What a product beyond the capacity leaves in the destination (45_multiply.md R162, 93 U3). -/
inductive MulOverflowPolicy where
  /-- The product truncated to 256 bits (the spec's default, R160). -/
  | truncate
  /-- Any 256-bit value, the degree consistent with it. -/
  | anyValue
  deriving DecidableEq, Repr

/-- The ID register's constant: "GF2P", interface version 1 (10_state.md R38). -/
def Config.identification : Word := 0x0000000147463250#64

/-- MUL_OVERFLOW_POLICY: the spec's default (R160, R162, 90_conflicts.md C5; log 4). -/
def Config.mulOverflowPolicy : MulOverflowPolicy := .truncate

/-- CMDQ_DEPTH - 1: the depth is open, an integer at least 1 (10_state.md R40, 93 P1; log 5). -/
opaque Config.cmdqDepthPred : Nat

/-- CMDQ_DEPTH: how many commands may be accepted and not completed (R40; log 5). -/
def Config.cmdqDepth : Nat := Config.cmdqDepthPred + 1

/-- WINDOW_BASE: the platform address of the register window (20_memory.md R50, 93 P3; log 16). -/
opaque Config.windowBase : Nat

/-- IRQ_LINE: the platform's interrupt line the core drives (60_exceptions.md R190, 93 P4; log 16). -/
opaque Config.irqLine : Nat

/-- STATUS.BUSY as a read sees it while commands are outstanding: a draw (R30, 93 P6; log 3). -/
opaque Config.busyDraw : Nat → Bool

/-- The value a PMUL beyond the capacity leaves under the policy `anyValue` (R162; log 4). -/
opaque Config.productDraw : Nat → Coeffs

end Sys2Proof
end

