-- ==== Sys2Proof/Syntax.lean ====
section
/-! DEFINITION. The 27 commands (spec/30_encoding.md R74) with their operands (R71, R73, R75). -/

namespace Sys2Proof

/-- The number of a scalar register X0..X15 (R21); every 4-bit number names one (R73). -/
abbrev XReg := Fin 16

/-- The number of a polynomial register P0..P15 (R23); every 4-bit number names one (R73). -/
abbrev PReg := Fin 16

/-- One constructor per row of R74, operands in the order rd, rs1, rs2, immediate (R78).
An immediate is an unsigned number; that it fits its field is `WellFormed` (R78). -/
inductive Instr where
  | nop
  | log2w (rd rs1 : XReg)
  | log2h (rd rs1 : XReg)
  | clzw (rd rs1 : XReg)
  | clzh (rd rs1 : XReg)
  | ilv16 (rd rs1 rs2 : XReg)
  | ilv32 (rd rs1 rs2 : XReg)
  | conv16 (rd rs1 rs2 : XReg)
  | conv32 (rd rs1 rs2 : XReg)
  | xli (rd : XReg) (imm16 hw : Nat)
  | xlk (rd : XReg) (imm16 hw : Nat)
  | pfromi (rd : PReg) (rs1 : XReg)
  | pfromb (rd rs1 : PReg) (start count : Nat)
  | pgetb (rd : XReg) (rs1 : PReg) (k : Nat)
  | psetb (rd : PReg) (rs1 : XReg) (k : Nat)
  | pbit (rd : XReg) (rs1 : PReg) (i : Nat)
  | pdeg (rd : XReg) (rs1 : PReg)
  | psize (rd : XReg) (rs1 : PReg)
  | pnub (rd : XReg) (rs1 : PReg)
  | pxor (rd rs1 rs2 : PReg)
  | pand (rd rs1 rs2 : PReg)
  | por (rd rs1 rs2 : PReg)
  | pslli (rd rs1 : PReg) (shamt : Nat)
  | psrli (rd rs1 : PReg) (shamt : Nat)
  | psll (rd rs1 : PReg) (rs2 : XReg)
  | psrl (rd rs1 : PReg) (rs2 : XReg)
  | pmul (rd rs1 rs2 : PReg)
  deriving DecidableEq, Repr

end Sys2Proof
end

