-- ==== Sys2Proof/WellFormed.lean ====
section
/-! DEFINITION. Which terms are commands: every immediate fits its field. These are the four checks the
assembler makes (spec/30_encoding.md R78): imm14 at most 16383, start and count at most 127, imm16 at most 65535,
hw at most 3. Register numbers need no check (R73). -/

namespace Sys2Proof

/-- Format I's immediate (R73). -/
def fitsImm14 (n : Nat) : Bool := n ≤ 16383

/-- PFROMB's two halves of imm14 (R73). -/
def fitsImm7 (n : Nat) : Bool := n ≤ 127

/-- Format U's immediate (R73). -/
def fitsImm16 (n : Nat) : Bool := n ≤ 65535

/-- Format U's halfword select (R73). -/
def fitsHw (n : Nat) : Bool := n ≤ 3

/-- The assembler's checks, as a decidable test (R78). -/
def wellFormed : Instr → Bool
  | .xli _ imm hw | .xlk _ imm hw => fitsImm16 imm && fitsHw hw
  | .pfromb _ _ start count => fitsImm7 start && fitsImm7 count
  | .pgetb _ _ n | .psetb _ _ n | .pbit _ _ n | .pslli _ _ n | .psrli _ _ n => fitsImm14 n
  | .nop | .log2w _ _ | .log2h _ _ | .clzw _ _ | .clzh _ _
  | .ilv16 _ _ _ | .ilv32 _ _ _ | .conv16 _ _ _ | .conv32 _ _ _
  | .pfromi _ _ | .pdeg _ _ | .psize _ _ | .pnub _ _
  | .pxor _ _ _ | .pand _ _ _ | .por _ _ _
  | .psll _ _ _ | .psrl _ _ _ | .pmul _ _ _ => true

/-- `i` is a command: its immediates fit their fields (R78; log 17). -/
abbrev WellFormed (i : Instr) : Prop := wellFormed i = true

end Sys2Proof
end

