-- ==== Sys2Proof/Decode.lean ====
section
/-! DEFINITION. Command words: field positions (spec/30_encoding.md R71), formats and masks (R72), the opcode map
(R74), decoding (R76, R77), and the encoder written from the same tables. -/

namespace Sys2Proof

/-- The five formats (R72). -/
inductive Format where
  | n | r | r2 | i | u
  deriving DecidableEq, Repr

/-- Why a word is illegal: the three kinds of R77. All raise IllegalCommand. -/
inductive Illegal where
  /-- R77 (a): opcode 0x00, the all-zero word among them. -/
  | zeroOpcode
  /-- R77 (b): an unassigned opcode. -/
  | unassignedOpcode
  /-- R77 (c): a 1 in a must-be-zero bit. -/
  | mustBeZero
  deriving DecidableEq, Repr

/-- What decoding answers. -/
inductive Decoded where
  | ok (i : Instr)
  | illegal (why : Illegal)
  deriving DecidableEq, Repr

/-- The mask of a format: a 1 at the opcode bits and at every must-be-zero bit (R72). -/
def formatMask : Format → Command
  | .n => 0xFFFFFFFF#32
  | .r => 0xFC003FFF#32
  | .r2 => 0xFC03FFFF#32
  | .i => 0xFC03C000#32
  | .u => 0xFC3C0000#32

/-- Bits `lo + len - 1` to `lo` of a command word, as an unsigned number (R9 `v[hi:lo]`). -/
def field (w : Command) (lo len : Nat) : Nat := (w.extractLsb' lo len).toNat

/-- op, bits 31:26 (R71). -/
def opField (w : Command) : Nat := field w 26 6

/-- rd, bits 25:22 (R71). -/
def rdField (w : Command) : Fin 16 := Fin.ofNat 16 (field w 22 4)

/-- rs1, bits 21:18 (R71). -/
def rs1Field (w : Command) : Fin 16 := Fin.ofNat 16 (field w 18 4)

/-- rs2, bits 17:14 (R71). -/
def rs2Field (w : Command) : Fin 16 := Fin.ofNat 16 (field w 14 4)

/-- imm14, bits 13:0 (R71). -/
def imm14Field (w : Command) : Nat := field w 0 14

/-- PFROMB's start, imm[13:7] (R73). -/
def startField (w : Command) : Nat := field w 7 7

/-- PFROMB's count, imm[6:0] (R73). -/
def countField (w : Command) : Nat := field w 0 7

/-- hw, bits 17:16 (R71). -/
def hwField (w : Command) : Nat := field w 16 2

/-- imm16, bits 15:0 (R71). -/
def imm16Field (w : Command) : Nat := field w 0 16

/-- The row of a word's opcode (R74): its format, and the command with the fields R71, R73 and R75 give it.
None for 0x00 and the unassigned opcodes (R77). -/
def rowOf (w : Command) : Option (Format × Instr) :=
  match opField w with
  | 0x01 => some (.n, .nop)
  | 0x04 => some (.r2, .log2w (rdField w) (rs1Field w))
  | 0x05 => some (.r2, .log2h (rdField w) (rs1Field w))
  | 0x06 => some (.r2, .clzw (rdField w) (rs1Field w))
  | 0x07 => some (.r2, .clzh (rdField w) (rs1Field w))
  | 0x08 => some (.r, .ilv16 (rdField w) (rs1Field w) (rs2Field w))
  | 0x09 => some (.r, .ilv32 (rdField w) (rs1Field w) (rs2Field w))
  | 0x0A => some (.r, .conv16 (rdField w) (rs1Field w) (rs2Field w))
  | 0x0B => some (.r, .conv32 (rdField w) (rs1Field w) (rs2Field w))
  | 0x0C => some (.u, .xli (rdField w) (imm16Field w) (hwField w))
  | 0x0D => some (.u, .xlk (rdField w) (imm16Field w) (hwField w))
  | 0x10 => some (.r2, .pfromi (rdField w) (rs1Field w))
  | 0x11 => some (.i, .pfromb (rdField w) (rs1Field w) (startField w) (countField w))
  | 0x12 => some (.i, .pgetb (rdField w) (rs1Field w) (imm14Field w))
  | 0x13 => some (.i, .psetb (rdField w) (rs1Field w) (imm14Field w))
  | 0x14 => some (.i, .pbit (rdField w) (rs1Field w) (imm14Field w))
  | 0x15 => some (.r2, .pdeg (rdField w) (rs1Field w))
  | 0x16 => some (.r2, .psize (rdField w) (rs1Field w))
  | 0x17 => some (.r2, .pnub (rdField w) (rs1Field w))
  | 0x18 => some (.r, .pxor (rdField w) (rs1Field w) (rs2Field w))
  | 0x19 => some (.r, .pand (rdField w) (rs1Field w) (rs2Field w))
  | 0x1A => some (.r, .por (rdField w) (rs1Field w) (rs2Field w))
  | 0x1C => some (.i, .pslli (rdField w) (rs1Field w) (imm14Field w))
  | 0x1D => some (.i, .psrli (rdField w) (rs1Field w) (imm14Field w))
  | 0x1E => some (.r, .psll (rdField w) (rs1Field w) (rs2Field w))
  | 0x1F => some (.r, .psrl (rdField w) (rs1Field w) (rs2Field w))
  | 0x20 => some (.r, .pmul (rdField w) (rs1Field w) (rs2Field w))
  | _ => none

/-- `match` of an opcode, `op << 26` (R74). -/
def opMatch (op : Nat) : Command := BitVec.ofNat 32 (op <<< 26)

/-- Decoding of a command word (R76): by opcode, then the must-be-zero bits. Total; never depends on state. -/
def decode (w : Command) : Decoded :=
  match rowOf w with
  | none => .illegal (if opField w = 0 then .zeroOpcode else .unassignedOpcode)
  | some (fmt, i) => if w &&& formatMask fmt = opMatch (opField w) then .ok i else .illegal .mustBeZero

/-- One row of the opcode map. -/
structure OpcodeRow where
  op : Nat
  fmt : Format
  deriving DecidableEq, Repr

/-- The row of a command in R74. -/
def opcodeRow : Instr → OpcodeRow
  | .nop => ⟨0x01, .n⟩
  | .log2w _ _ => ⟨0x04, .r2⟩
  | .log2h _ _ => ⟨0x05, .r2⟩
  | .clzw _ _ => ⟨0x06, .r2⟩
  | .clzh _ _ => ⟨0x07, .r2⟩
  | .ilv16 _ _ _ => ⟨0x08, .r⟩
  | .ilv32 _ _ _ => ⟨0x09, .r⟩
  | .conv16 _ _ _ => ⟨0x0A, .r⟩
  | .conv32 _ _ _ => ⟨0x0B, .r⟩
  | .xli _ _ _ => ⟨0x0C, .u⟩
  | .xlk _ _ _ => ⟨0x0D, .u⟩
  | .pfromi _ _ => ⟨0x10, .r2⟩
  | .pfromb _ _ _ _ => ⟨0x11, .i⟩
  | .pgetb _ _ _ => ⟨0x12, .i⟩
  | .psetb _ _ _ => ⟨0x13, .i⟩
  | .pbit _ _ _ => ⟨0x14, .i⟩
  | .pdeg _ _ => ⟨0x15, .r2⟩
  | .psize _ _ => ⟨0x16, .r2⟩
  | .pnub _ _ => ⟨0x17, .r2⟩
  | .pxor _ _ _ => ⟨0x18, .r⟩
  | .pand _ _ _ => ⟨0x19, .r⟩
  | .por _ _ _ => ⟨0x1A, .r⟩
  | .pslli _ _ _ => ⟨0x1C, .i⟩
  | .psrli _ _ _ => ⟨0x1D, .i⟩
  | .psll _ _ _ => ⟨0x1E, .r⟩
  | .psrl _ _ _ => ⟨0x1F, .r⟩
  | .pmul _ _ _ => ⟨0x20, .r⟩

/-- The (match, mask) pairs of R74's table, as the table prints them. -/
def opcodeTable : List (Command × Command) :=
  [(0x04000000#32, 0xFFFFFFFF#32), (0x10000000#32, 0xFC03FFFF#32), (0x14000000#32, 0xFC03FFFF#32),
    (0x18000000#32, 0xFC03FFFF#32), (0x1C000000#32, 0xFC03FFFF#32), (0x20000000#32, 0xFC003FFF#32),
    (0x24000000#32, 0xFC003FFF#32), (0x28000000#32, 0xFC003FFF#32), (0x2C000000#32, 0xFC003FFF#32)]
  ++ [(0x30000000#32, 0xFC3C0000#32), (0x34000000#32, 0xFC3C0000#32), (0x40000000#32, 0xFC03FFFF#32),
    (0x44000000#32, 0xFC03C000#32), (0x48000000#32, 0xFC03C000#32), (0x4C000000#32, 0xFC03C000#32),
    (0x50000000#32, 0xFC03C000#32), (0x54000000#32, 0xFC03FFFF#32), (0x58000000#32, 0xFC03FFFF#32)]
  ++ [(0x5C000000#32, 0xFC03FFFF#32), (0x60000000#32, 0xFC003FFF#32), (0x64000000#32, 0xFC003FFF#32),
    (0x68000000#32, 0xFC003FFF#32), (0x70000000#32, 0xFC03C000#32), (0x74000000#32, 0xFC03C000#32),
    (0x78000000#32, 0xFC003FFF#32), (0x7C000000#32, 0xFC003FFF#32), (0x80000000#32, 0xFC003FFF#32)]

/-- A register number's four bits (R73). -/
def regBits (r : Fin 16) : BitVec 4 := BitVec.ofNat 4 r

/-- Format N: opcode, the rest 0 (R72). -/
def packN (op : Nat) : Command := BitVec.ofNat 6 op ++ 0#26

/-- Format R: op, rd, rs1, rs2, 0 (R72). -/
def packR (op : Nat) (rd rs1 rs2 : Fin 16) : Command :=
  BitVec.ofNat 6 op ++ regBits rd ++ regBits rs1 ++ regBits rs2 ++ 0#14

/-- Format R2: op, rd, rs1, 0 (R72). -/
def packR2 (op : Nat) (rd rs1 : Fin 16) : Command := BitVec.ofNat 6 op ++ regBits rd ++ regBits rs1 ++ 0#18

/-- Format I: op, rd, rs1, 0, imm14 (R72). -/
def packI (op : Nat) (rd rs1 : Fin 16) (imm14 : BitVec 14) : Command :=
  BitVec.ofNat 6 op ++ regBits rd ++ regBits rs1 ++ 0#4 ++ imm14

/-- Format U: op, rd, 0, hw, imm16 (R72). -/
def packU (op : Nat) (rd : Fin 16) (hw imm16 : Nat) : Command :=
  BitVec.ofNat 6 op ++ regBits rd ++ 0#4 ++ BitVec.ofNat 2 hw ++ BitVec.ofNat 16 imm16

/-- A 14-bit immediate (R73). -/
def imm14Bits (n : Nat) : BitVec 14 := BitVec.ofNat 14 n

/-- PFROMB's immediate, start in 13:7 and count in 6:0 (R73). -/
def rangeBits (start count : Nat) : BitVec 14 := BitVec.ofNat 7 start ++ BitVec.ofNat 7 count

/-- The word of a command (R71 to R75). For a term that is not well-formed each immediate is cut to its field. -/
def encode : Instr → Command
  | .nop => packN 0x01
  | .log2w rd rs1 => packR2 0x04 rd rs1
  | .log2h rd rs1 => packR2 0x05 rd rs1
  | .clzw rd rs1 => packR2 0x06 rd rs1
  | .clzh rd rs1 => packR2 0x07 rd rs1
  | .ilv16 rd rs1 rs2 => packR 0x08 rd rs1 rs2
  | .ilv32 rd rs1 rs2 => packR 0x09 rd rs1 rs2
  | .conv16 rd rs1 rs2 => packR 0x0A rd rs1 rs2
  | .conv32 rd rs1 rs2 => packR 0x0B rd rs1 rs2
  | .xli rd imm16 hw => packU 0x0C rd hw imm16
  | .xlk rd imm16 hw => packU 0x0D rd hw imm16
  | .pfromi rd rs1 => packR2 0x10 rd rs1
  | .pfromb rd rs1 start count => packI 0x11 rd rs1 (rangeBits start count)
  | .pgetb rd rs1 k => packI 0x12 rd rs1 (imm14Bits k)
  | .psetb rd rs1 k => packI 0x13 rd rs1 (imm14Bits k)
  | .pbit rd rs1 i => packI 0x14 rd rs1 (imm14Bits i)
  | .pdeg rd rs1 => packR2 0x15 rd rs1
  | .psize rd rs1 => packR2 0x16 rd rs1
  | .pnub rd rs1 => packR2 0x17 rd rs1
  | .pxor rd rs1 rs2 => packR 0x18 rd rs1 rs2
  | .pand rd rs1 rs2 => packR 0x19 rd rs1 rs2
  | .por rd rs1 rs2 => packR 0x1A rd rs1 rs2
  | .pslli rd rs1 shamt => packI 0x1C rd rs1 (imm14Bits shamt)
  | .psrli rd rs1 shamt => packI 0x1D rd rs1 (imm14Bits shamt)
  | .psll rd rs1 rs2 => packR 0x1E rd rs1 rs2
  | .psrl rd rs1 rs2 => packR 0x1F rd rs1 rs2
  | .pmul rd rs1 rs2 => packR 0x20 rd rs1 rs2

/-- A command word of `nbits` bits, the bits above them 0 (the host's numbering; a command is always one
32-bit word, R70). -/
def tableWord (nbits w : Nat) : Command := BitVec.ofNat 32 (w % 2 ^ nbits)

/-- The command the decoder reads from the word `w` of `nbits` bits; none where it refuses. -/
def decodeTableWord (nbits w : Nat) : Option Instr :=
  match decode (tableWord nbits w) with
  | .ok i => some i
  | .illegal _ => none

end Sys2Proof
end

