-- ==== Sys2Proof/Machine/State.lean ====
section
/-! DEFINITION. The machine's state (spec/10_state.md) and the machine after reset (R42, R210). -/

namespace Sys2Proof.Machine

/-- A polynomial register: the 256-bit value and the cached degree (10_state.md R23, R24). The four 64-bit blocks
are views of the value (00_scope.md R8; log 8). -/
structure Poly where
  bits : Coeffs
  deg : Int
  deriving DecidableEq, Repr

/-- STATUS.CAUSE: the codes that are ever raised (60_exceptions.md R183). -/
inductive Cause where
  | none
  | illegalCommand
  | bitIndexRange
  | blockIndexRange
  deriving DecidableEq, Repr

/-- A register of the host window (20_memory.md R53). -/
inductive WinReg where
  | id
  | cmd
  | status
  | ctrl
  | errcmd
  | cmdcnt
  | x (n : XReg)
  | blk (n : PReg) (k : Fin 4)
  | deg (n : PReg)
  deriving DecidableEq, Repr

/-- One host access: its byte offset in the window, its width in bytes, and the data of a write (R52, R9). -/
inductive HostAccess where
  | read (off width : Nat)
  | write (off width : Nat) (data : Word)
  deriving DecidableEq, Repr

/-- What comes to the core from outside: host accesses, and the reset line's two edges (R210). -/
inductive Input where
  | access (a : HostAccess)
  | assertReset
  | releaseReset
  deriving DecidableEq, Repr

/-- The response to a host access (R52): OK with data, OK to a write, or BUS_ERROR, which carries no data. -/
inductive Response where
  | data (v : Word)
  | written
  | busError
  deriving DecidableEq, Repr

/-- Who moves in one step: the core's command sequencer (R20), or the host port. -/
inductive Agent where
  | sequencer
  | host
  deriving DecidableEq, Repr

/-- Everything the spec gives the core, and the model's own four fields, last. -/
structure State where
  /-- X0..X15 (R21). -/
  x : Vector Word 16
  /-- P0..P15 (R23). -/
  p : Vector Poly 16
  /-- STATUS.ERR (R31). -/
  err : Bool
  /-- STATUS.OVF, sticky (R32). -/
  ovf : Bool
  /-- STATUS.Z (R34). -/
  z : Bool
  /-- STATUS.CAUSE (R29, R183). -/
  cause : Cause
  /-- CTRL.ERRIE (R36). -/
  errie : Bool
  /-- ERRCMD, bits 31:0 (R37). -/
  errcmd : Command
  /-- CMDCNT, bits 31:0 (R35). -/
  cmdcnt : BitVec 32
  /-- CMDQ: commands written and not completed, the oldest first (R40). -/
  cmdq : List Command
  /-- The level of the reset input: true while reset is asserted (R210). -/
  inReset : Bool
  /-- The model's own: what the host and the platform will do, in bus order (log 1). -/
  inputs : List Input
  /-- The model's own: the responses given so far, the oldest first (log 1). -/
  outputs : List Response
  /-- The model's own: who moves at the next points where both agents can (log 2). -/
  sched : List Agent
  /-- The model's own: how many free values have been drawn (log 3). -/
  draws : Nat
  deriving DecidableEq, Repr

/-- Why the machine would stop. NO constructor: nothing in the spec stops the core. A command's fault is a next
state (60_exceptions.md R184), and BUS_ERROR is a response (R52). Safe: a step can never end in a fault (log 13). -/
inductive Fault
  deriving DecidableEq, Repr

/-- Why the model would give a command no meaning. -/
inductive Refusal where
  /-- Raised by an arm of `exec` for a command that has no meaning yet; safe. No arm raises it. -/
  | notModelled (mnemonic : String)
  deriving DecidableEq, Repr

/-- What a command, or a step, ends in. -/
abbrev Result := Host.Outcome State Fault Refusal

/-- The zero polynomial, degree -1 (R42). -/
def Poly.zero : Poly := ⟨0#256, -1⟩

/-- The machine right after reset, the reset input released (R42, R210, R211). The model's own fields are empty
(DESIGN CHOICE, log 15). -/
def State.reset : State where
  x := Vector.replicate 16 0#64
  p := Vector.replicate 16 Poly.zero
  err := false
  ovf := false
  z := false
  cause := .none
  errie := false
  errcmd := 0#32
  cmdcnt := 0#32
  cmdq := []
  inReset := false
  inputs := []
  outputs := []
  sched := []
  draws := 0

end Sys2Proof.Machine
end

