-- ==== Sys2Proof/Machine/Ops.lean ====
section
/-! DEFINITION. The named operations over registers, shared by every meaning: reading and writing X and P
(spec/10_state.md R21 to R27), completing a command (R35), taking a fault (60_exceptions.md R184), the return from one
(R187), and reset (R210). -/

namespace Sys2Proof.Machine

/-- `x[r]` (R9, R21). -/
def State.readX (s : State) (r : XReg) : Word := s.x[r.val]

/-- Polynomial register `r`: value and cached degree (R23). -/
def State.readP (s : State) (r : PReg) : Poly := s.p[r.val]

/-- `x[r] <- v` (R9). -/
def State.setX (s : State) (r : XReg) (v : Word) : State := { s with x := s.x.set r.val v r.isLt }

/-- A polynomial with its degree computed (R25, R126). -/
def Poly.ofBits (v : Coeffs) : Poly := ⟨v, computeDegree v⟩

/-- `p[r] <- v`: the degree field is written in the same step (R9, R25). -/
def State.setP (s : State) (r : PReg) (v : Coeffs) : State := { s with p := s.p.set r.val (Poly.ofBits v) r.isLt }

/-- CMDCNT + 1, modulo 2^32 (R35). -/
def State.retire (s : State) : State := { s with cmdcnt := s.cmdcnt + 1#32 }

/-- A command completes without a fault (R180). -/
def complete (s : State) : Result := .next s.retire

/-- Fault entry: ERR, CAUSE and ERRCMD are written, nothing else (R184). -/
def State.enterFault (s : State) (c : Cause) (w : Command) : State :=
  { s with err := true, cause := c, errcmd := w }

/-- `raise c(w)`: the command ends in the state after fault entry (R184). There is no handler address. -/
def raise (c : Cause) (w : Command) (s : State) : Result := .next (s.enterFault c w)

/-- The return from a fault, CTRL.CLRERR (R36, R187). -/
def State.clearError (s : State) : State := { s with err := false, cause := .none, errcmd := 0#32 }

/-- CTRL.CLROVF (R36). -/
def State.clearOverflow (s : State) : State := { s with ovf := false }

/-- CTRL.ERRIE (R36). -/
def State.setErrie (s : State) (b : Bool) : State := { s with errie := b }

/-- A command word enters CMDQ at its tail (R58). -/
def State.enqueue (s : State) (w : Command) : State := { s with cmdq := s.cmdq ++ [w] }

/-- The queue after its head was taken is `q` (R180). -/
def State.withQueue (s : State) (q : List Command) : State := { s with cmdq := q }

/-- A response is given to the host (R52). -/
def State.respond (s : State) (r : Response) : State := { s with outputs := s.outputs ++ [r] }

/-- `n` free values have been drawn (log 3). -/
def State.draw (s : State) (n : Nat) : State := { s with draws := s.draws + n }

/-- Reset is asserted: every register takes its reset value and CMDQ is emptied (R42, R210). The model's own fields
stay: they are the outside's (log 11). -/
def State.enterReset (s : State) : State :=
  { State.reset with
    inReset := true, inputs := s.inputs, outputs := s.outputs, sched := s.sched, draws := s.draws }

/-- Reset is released (R210). -/
def State.leaveReset (s : State) : State := { s with inReset := false }

end Sys2Proof.Machine
end

