-- ==== Sys2Proof/Machine/Operands.lean ====
section
/-! DEFINITION. Every operand form of spec/30_encoding.md R73 and R75: scalar words cut to a leaf's width (92 D22),
polynomial values, block and bit indices with their range checks (60_exceptions.md R183), shift amounts, halfwords. -/

namespace Sys2Proof.Machine

/-- `x[r][15:0]`; bits 63:16 are ignored (R101, R107). -/
def State.readX16 (s : State) (r : XReg) : BitVec 16 := (s.readX r).setWidth 16

/-- `x[r][31:0]`; bits 63:32 are ignored (R92, R94, R102, R108). -/
def State.readX32 (s : State) (r : XReg) : BitVec 32 := (s.readX r).setWidth 32

/-- `p[r]` as a 256-bit value (R9). -/
def State.readBits (s : State) (r : PReg) : Coeffs := (s.readP r).bits

/-- `p[r].deg`, the cached degree (R24). -/
def State.readDeg (s : State) (r : PReg) : Int := (s.readP r).deg

/-- A shift amount held in an X register, unsigned, 0 to 2^64 - 1 (R144, R148). -/
def State.readAmount (s : State) (r : XReg) : Nat := (s.readX r).toNat

/-- `zext_64` of a narrower value (R9). -/
def zext64 {w : Nat} (v : BitVec w) : Word := v.setWidth 64

/-- `zext_64` of a small number (R91, R121, R122). -/
def natWord (n : Nat) : Word := BitVec.ofNat 64 n

/-- `sext_64` of a degree: -1 reads all ones (R120, R53). -/
def degreeWord (d : Int) : Word := BitVec.ofInt 64 d

/-- A block index in range (R117, R118). -/
def blockIndexOk (k : Nat) : Bool := k < 4

/-- A bit index in range (R119). -/
def bitIndexOk (i : Nat) : Bool := i < 256

/-- PFROMB's sub-range within the four blocks (R116). -/
def blockRangeOk (start count : Nat) : Bool := start + count ≤ 4

/-- `p.blk[i div 64][i mod 64]` (R119). -/
def coefficient (v : Coeffs) (i : Nat) : Bool := (block v (i / 64)).getLsbD (i % 64)

/-- `zext_64(imm16) << (16·hw)` (R171). -/
def placeHalf (imm16 hw : Nat) : Word := (BitVec.ofNat 16 imm16).setWidth 64 <<< (16 * hw)

/-- `(v & ~(0xFFFF << (16·hw))) | (imm16 << (16·hw))` (R172). -/
def keepHalf (v : Word) (imm16 hw : Nat) : Word := (v &&& ~~~(0xFFFF#64 <<< (16 * hw))) ||| placeHalf imm16 hw

end Sys2Proof.Machine
end

