-- ==== Sys2Proof/Machine/Flags.lean ====
section
/-! DEFINITION. STATUS and CTRL: what sets Z (spec/40_bitscan.md R90), what sets OVF (44_shift.md R145,
45_multiply.md R161), the cause codes (60_exceptions.md R183), the fields of STATUS (10_state.md R29), the CTRL word (R36),
and the interrupt output (R190). -/

namespace Sys2Proof.Machine

/-- `status.Z <- b` (R34, R90). -/
def State.setZ (s : State) (b : Bool) : State := { s with z := b }

/-- OVF is sticky: set if bits were lost, never cleared by a command (R32). -/
def State.noteOverflow (s : State) (lost : Bool) : State := { s with ovf := s.ovf || lost }

/-- A left shift of `a` by `i` loses a coefficient: a ≠ 0 and deg(a) + i ≥ 256, over unbounded integers (R145). -/
def shiftOverflows (a : Coeffs) (i : Nat) : Bool := a ≠ 0 && decide (256 ≤ degree a.toNat + (i : Int))

/-- The exact product has a coefficient at 256 or above (R161). -/
def productOverflows (a b : Coeffs) : Bool :=
  a ≠ 0 && b ≠ 0 && decide (256 ≤ degree a.toNat + degree b.toNat)

/-- The cause codes (R183). -/
def causeCode : Cause → BitVec 4
  | .none => 0#4
  | .illegalCommand => 1#4
  | .bitIndexRange => 2#4
  | .blockIndexRange => 3#4

/-- STATUS.BUSY as a read sees it: 0 with CMDQ empty, a draw while commands are outstanding (R30; log 3). -/
def State.busy (s : State) : Bool := if s.cmdq.isEmpty then false else Config.busyDraw s.draws

/-- The fields of STATUS in their places: CAUSE in 11:8, Z, OVF, ERR, BUSY in 3:0, every other bit 0 (R29). -/
def State.statusBits (s : State) (busy : Bool) : Word :=
  0#52 ++ causeCode s.cause ++ 0#4 ++ BitVec.ofBool s.z ++ BitVec.ofBool s.ovf ++ BitVec.ofBool s.err
    ++ BitVec.ofBool busy

/-- The CTRL word as read: ERRIE in bit 0, the action bits and the reserved bits 0 (R36). -/
def State.ctrlWord (s : State) : Word := (BitVec.ofBool s.errie).setWidth 64

/-- A host write to CTRL: ERRIE is updated and the action bits that are 1 act, in one write (R36). -/
def State.writeCtrl (s : State) (d : Word) : State :=
  let s1 := s.setErrie (d.getLsbD 0)
  let s2 := if d.getLsbD 8 then s1.clearError else s1
  if d.getLsbD 9 then s2.clearOverflow else s2

/-- The interrupt output `irq = STATUS.ERR & CTRL.ERRIE` (R190). -/
def State.irq (s : State) : Bool := s.err && s.errie

/-- What the core drives on the platform's interrupt line number `line` (R190; log 16). -/
def State.irqOn (s : State) (line : Nat) : Bool := decide (line = Config.irqLine) && s.irq

end Sys2Proof.Machine
end

