-- ==== Sys2Proof/Machine/BitScan.lean ====
section
/-! DEFINITION. bit_scan_lz / clz_unit: LOG2W, LOG2H, CLZW, CLZH (spec/40_bitscan.md R90 to R94). -/

namespace Sys2Proof.Machine

/-- The result goes to `rd`, Z says whether the scanned input was 0, and the command completes (R90). -/
def scanResult (rd : XReg) (r : Nat) (zero : Bool) (s : State) : Result :=
  complete ((s.setX rd (natWord r)).setZ zero)

/-- LOG2W (R91). -/
def execLog2w (rd rs1 : XReg) (s : State) : Result :=
  scanResult rd (floorLog2 (s.readX rs1)) (s.readX rs1 == 0) s

/-- LOG2H: bits 63:32 are ignored (R92). -/
def execLog2h (rd rs1 : XReg) (s : State) : Result :=
  scanResult rd (floorLog2 (s.readX32 rs1)) (s.readX32 rs1 == 0) s

/-- CLZW: 64 for 0 (R93). -/
def execClzw (rd rs1 : XReg) (s : State) : Result :=
  scanResult rd (leadingZeros (s.readX rs1)) (s.readX rs1 == 0) s

/-- CLZH: 32 for 0, bits 63:32 are ignored (R94). -/
def execClzh (rd rs1 : XReg) (s : State) : Result :=
  scanResult rd (leadingZeros (s.readX32 rs1)) (s.readX32 rs1 == 0) s

end Sys2Proof.Machine
end

