-- ==== Sys2Proof/Machine/BlockArray.lean ====
section
/-! DEFINITION. gf2poly_block_array: PFROMI, PFROMB, PGETB, PSETB, PBIT, PDEG, PSIZE, PNUB, PXOR, PAND, POR
(spec/43_block_array.md R115 to R127). A range fault is raised before any write, and records the command's word
(R183, R185; log 7). -/

namespace Sys2Proof.Machine

/-- PFROMI (R115). -/
def execPfromi (rd : PReg) (rs1 : XReg) (s : State) : Result :=
  complete (s.setP rd ((s.readX rs1).setWidth 256))

/-- PFROMB (R116). -/
def execPfromb (rd rs1 : PReg) (start count : Nat) (s : State) : Result :=
  if blockRangeOk start count then complete (s.setP rd (fromBlocks (s.readBits rs1) start count))
  else raise .blockIndexRange (encode (.pfromb rd rs1 start count)) s

/-- PGETB (R117). -/
def execPgetb (rd : XReg) (rs1 : PReg) (k : Nat) (s : State) : Result :=
  if blockIndexOk k then complete (s.setX rd (block (s.readBits rs1) k))
  else raise .blockIndexRange (encode (.pgetb rd rs1 k)) s

/-- PSETB: the degree is recomputed at once (R118, 90_conflicts.md C1). -/
def execPsetb (rd : PReg) (rs1 : XReg) (k : Nat) (s : State) : Result :=
  if blockIndexOk k then complete (s.setP rd (setBlock (s.readBits rd) k (s.readX rs1)))
  else raise .blockIndexRange (encode (.psetb rd rs1 k)) s

/-- PBIT (R119). -/
def execPbit (rd : XReg) (rs1 : PReg) (i : Nat) (s : State) : Result :=
  if bitIndexOk i then complete (s.setX rd (zext64 (BitVec.ofBool (coefficient (s.readBits rs1) i))))
  else raise .bitIndexRange (encode (.pbit rd rs1 i)) s

/-- PDEG: sign-extended (R120). -/
def execPdeg (rd : XReg) (rs1 : PReg) (s : State) : Result :=
  complete (s.setX rd (degreeWord (s.readDeg rs1)))

/-- PSIZE: deg + 1 (R121). -/
def execPsize (rd : XReg) (rs1 : PReg) (s : State) : Result :=
  complete (s.setX rd (degreeWord (s.readDeg rs1 + 1)))

/-- PNUB: used blocks (R122). -/
def execPnub (rd : XReg) (rs1 : PReg) (s : State) : Result :=
  complete (s.setX rd (degreeWord (usedBlocks (s.readDeg rs1))))

/-- PXOR (R123). -/
def execPxor (rd rs1 rs2 : PReg) (s : State) : Result :=
  complete (s.setP rd (s.readBits rs1 ^^^ s.readBits rs2))

/-- PAND: the degree is recomputed (R124, 90_conflicts.md C2). -/
def execPand (rd rs1 rs2 : PReg) (s : State) : Result :=
  complete (s.setP rd (s.readBits rs1 &&& s.readBits rs2))

/-- POR: the degree is recomputed (R125, 90_conflicts.md C2). -/
def execPor (rd rs1 rs2 : PReg) (s : State) : Result :=
  complete (s.setP rd (s.readBits rs1 ||| s.readBits rs2))

end Sys2Proof.Machine
end

