-- ==== Sys2Proof/Machine/Control.lean ====
section
/-! DEFINITION. NOP, XLI, XLK (spec/46_scalar_and_control.md R170 to R172). -/

namespace Sys2Proof.Machine

/-- NOP: only CMDCNT advances (R170). -/
def execNop (s : State) : Result := complete s

/-- XLI (R171). -/
def execXli (rd : XReg) (imm16 hw : Nat) (s : State) : Result := complete (s.setX rd (placeHalf imm16 hw))

/-- XLK (R172). -/
def execXlk (rd : XReg) (imm16 hw : Nat) (s : State) : Result :=
  complete (s.setX rd (keepHalf (s.readX rd) imm16 hw))

end Sys2Proof.Machine
end

