-- ==== Sys2Proof/Machine/Convolution.lean ====
section
/-! DEFINITION. direct_convolution_word: CONV16, CONV32 (spec/42_convolution.md R105, R107, R108). -/

namespace Sys2Proof.Machine

/-- CONV16 (R107). -/
def execConv16 (rd rs1 rs2 : XReg) (s : State) : Result :=
  complete (s.setX rd (zext64 (conv (s.readX16 rs1) (s.readX16 rs2))))

/-- CONV32 (R108). -/
def execConv32 (rd rs1 rs2 : XReg) (s : State) : Result :=
  complete (s.setX rd (zext64 (conv (s.readX32 rs1) (s.readX32 rs2))))

end Sys2Proof.Machine
end

