-- ==== Sys2Proof/Machine/Interleave.lean ====
section
/-! DEFINITION. bit_interleave_16to32 and bit_interleave_32to64: ILV16, ILV32 (spec/41_interleave.md R100 to R102). -/

namespace Sys2Proof.Machine

/-- ILV16: bits 63:32 of the result are 0 (R101). -/
def execIlv16 (rd rs1 rs2 : XReg) (s : State) : Result :=
  complete (s.setX rd (zext64 (interleave (s.readX16 rs1) (s.readX16 rs2))))

/-- ILV32 (R102). -/
def execIlv32 (rd rs1 rs2 : XReg) (s : State) : Result :=
  complete (s.setX rd (zext64 (interleave (s.readX32 rs1) (s.readX32 rs2))))

end Sys2Proof.Machine
end

