-- ==== Sys2Proof/Machine/Multiply.lean ====
section
/-! DEFINITION. gf2poly_mult_karatsuba_recursive: PMUL (spec/45_multiply.md R159 to R163). -/

namespace Sys2Proof.Machine

/-- The value PMUL writes, under a policy for products beyond the capacity (R160, R162). -/
def productValue (policy : MulOverflowPolicy) (a b : Coeffs) (draws : Nat) : Coeffs :=
  match policy with
  | .truncate => truncProduct a b
  | .anyValue => if productOverflows a b then Config.productDraw draws else truncProduct a b

/-- How many free values that takes (log 4). -/
def productDraws (policy : MulOverflowPolicy) (a b : Coeffs) : Nat :=
  match policy with
  | .truncate => 0
  | .anyValue => if productOverflows a b then 1 else 0

/-- PMUL under a given policy: no register other than rd is written (R160 to R162). -/
def mulWith (policy : MulOverflowPolicy) (rd rs1 rs2 : PReg) (s : State) : Result :=
  let a := s.readBits rs1
  let b := s.readBits rs2
  complete (((s.setP rd (productValue policy a b s.draws)).noteOverflow (productOverflows a b)).draw
    (productDraws policy a b))

/-- PMUL under the machine's policy (R160). -/
def execPmul (rd rs1 rs2 : PReg) (s : State) : Result := mulWith Config.mulOverflowPolicy rd rs1 rs2 s

end Sys2Proof.Machine
end

