-- ==== Sys2Proof/Machine/Shift.lean ====
section
/-! DEFINITION. gf2poly_shift_left and gf2poly_shift_right: PSLLI, PSLL, PSRLI, PSRL (spec/44_shift.md R140 to R149). -/

namespace Sys2Proof.Machine

/-- A left shift by `i`: the truncated result, and OVF if a coefficient was lost (R143, R145). -/
def shiftLeft (rd rs1 : PReg) (i : Nat) (s : State) : Result :=
  complete ((s.setP rd (shl (s.readBits rs1) i)).noteOverflow (shiftOverflows (s.readBits rs1) i))

/-- A right shift by `i`; it sets no flag (R147). -/
def shiftRight (rd rs1 : PReg) (i : Nat) (s : State) : Result :=
  complete (s.setP rd (shr (s.readBits rs1) i))

/-- PSLLI (R143). -/
def execPslli (rd rs1 : PReg) (shamt : Nat) (s : State) : Result := shiftLeft rd rs1 shamt s

/-- PSLL: the amount is x[rs2], 64 bits unsigned (R144). -/
def execPsll (rd rs1 : PReg) (rs2 : XReg) (s : State) : Result := shiftLeft rd rs1 (s.readAmount rs2) s

/-- PSRLI (R147). -/
def execPsrli (rd rs1 : PReg) (shamt : Nat) (s : State) : Result := shiftRight rd rs1 shamt s

/-- PSRL: the amount is x[rs2], 64 bits unsigned (R148). -/
def execPsrl (rd rs1 : PReg) (rs2 : XReg) (s : State) : Result := shiftRight rd rs1 (s.readAmount rs2) s

end Sys2Proof.Machine
end

