-- ==== Sys2Proof/Machine/Dispatch.lean ====
section
/-! DEFINITION. Executing one command: one arm per constructor of Instr, each a direct call of its meaning
(spec/60_exceptions.md R180 "execute c per its rule"). -/

namespace Sys2Proof.Machine

def exec (i : Instr) (s : State) : Host.Outcome State Fault Refusal :=
  match i with
  | .nop => Sys2Proof.Machine.execNop s
  | .log2w rd rs1 => Sys2Proof.Machine.execLog2w rd rs1 s
  | .log2h rd rs1 => Sys2Proof.Machine.execLog2h rd rs1 s
  | .clzw rd rs1 => Sys2Proof.Machine.execClzw rd rs1 s
  | .clzh rd rs1 => Sys2Proof.Machine.execClzh rd rs1 s
  | .ilv16 rd rs1 rs2 => Sys2Proof.Machine.execIlv16 rd rs1 rs2 s
  | .ilv32 rd rs1 rs2 => Sys2Proof.Machine.execIlv32 rd rs1 rs2 s
  | .conv16 rd rs1 rs2 => Sys2Proof.Machine.execConv16 rd rs1 rs2 s
  | .conv32 rd rs1 rs2 => Sys2Proof.Machine.execConv32 rd rs1 rs2 s
  | .xli rd imm16 hw => Sys2Proof.Machine.execXli rd imm16 hw s
  | .xlk rd imm16 hw => Sys2Proof.Machine.execXlk rd imm16 hw s
  | .pfromi rd rs1 => Sys2Proof.Machine.execPfromi rd rs1 s
  | .pfromb rd rs1 start count => Sys2Proof.Machine.execPfromb rd rs1 start count s
  | .pgetb rd rs1 k => Sys2Proof.Machine.execPgetb rd rs1 k s
  | .psetb rd rs1 k => Sys2Proof.Machine.execPsetb rd rs1 k s
  | .pbit rd rs1 n => Sys2Proof.Machine.execPbit rd rs1 n s
  | .pdeg rd rs1 => Sys2Proof.Machine.execPdeg rd rs1 s
  | .psize rd rs1 => Sys2Proof.Machine.execPsize rd rs1 s
  | .pnub rd rs1 => Sys2Proof.Machine.execPnub rd rs1 s
  | .pxor rd rs1 rs2 => Sys2Proof.Machine.execPxor rd rs1 rs2 s
  | .pand rd rs1 rs2 => Sys2Proof.Machine.execPand rd rs1 rs2 s
  | .por rd rs1 rs2 => Sys2Proof.Machine.execPor rd rs1 rs2 s
  | .pslli rd rs1 shamt => Sys2Proof.Machine.execPslli rd rs1 shamt s
  | .psrli rd rs1 shamt => Sys2Proof.Machine.execPsrli rd rs1 shamt s
  | .psll rd rs1 rs2 => Sys2Proof.Machine.execPsll rd rs1 rs2 s
  | .psrl rd rs1 rs2 => Sys2Proof.Machine.execPsrl rd rs1 rs2 s
  | .pmul rd rs1 rs2 => Sys2Proof.Machine.execPmul rd rs1 rs2 s

end Sys2Proof.Machine
end

