-- ==== Sys2Proof/Machine/Command.lean ====
section
/-! DEFINITION. One command word run (spec/60_exceptions.md R180, R186), and the state the accepted commands will leave,
which a STATUS read sees (20_memory.md R61, 70_reset_and_hazards.md R214; log 20). -/

namespace Sys2Proof.Machine

/-- One command word, already taken from CMDQ: discarded while ERR = 1, else decoded and executed (R180, R186). -/
def runCommand (w : Command) (s : State) : Result :=
  if s.err then .next s
  else
    match decode w with
    | .ok i => exec i s
    | .illegal _ => raise .illegalCommand w s

/-- Command words run one after the other, the first at the head (R20, R61). -/
def runQueue : List Command → State → State
  | [], s => s
  | w :: q, s =>
    match runCommand w s with
    | .next t => runQueue q t
    | .fault _ => s
    | .refused _ => s

/-- The state in which every accepted command has completed or been discarded: what the host's accesses see in program
order (R61; DEDUCED, log 20). -/
def State.settled (s : State) : State := runQueue s.cmdq (s.withQueue [])

/-- The STATUS word a read returns: ERR, OVF, Z and CAUSE in program order, so that BUSY alone depends on timing (R29,
R61, R214; DEDUCED, log 20). -/
def State.statusWord (s : State) : Word := s.settled.statusBits s.busy

end Sys2Proof.Machine
end

