-- ==== Sys2Proof/Machine/Window.lean ====
section
/-! DEFINITION. The host register window (spec/20_memory.md R50 to R61): the register map, reads, writes, BUS_ERROR,
byte lanes, and when an access may perform. -/

namespace Sys2Proof.Machine

/-- Offset of CMD (R53). -/
def cmdOffset : Nat := 0x008

/-- Offset of STATUS (R53). -/
def statusOffset : Nat := 0x010

/-- The byte offset of a window register (R53). -/
def offsetOf : WinReg → Nat
  | .id => 0x000
  | .cmd => cmdOffset
  | .status => statusOffset
  | .ctrl => 0x018
  | .errcmd => 0x020
  | .cmdcnt => 0x028
  | .x n => 0x100 + 8 * n
  | .blk n k => 0x200 + 0x20 * n + 8 * k
  | .deg n => 0x400 + 8 * n

/-- The register at a byte offset that is a multiple of 8; none for the unmapped offsets (R53). -/
def windowReg (off : Nat) : Option WinReg :=
  if off = 0x000 then some .id
  else if off = cmdOffset then some .cmd
  else if off = statusOffset then some .status
  else if off = 0x018 then some .ctrl
  else if off = 0x020 then some .errcmd
  else if off = 0x028 then some .cmdcnt
  else if 0x100 ≤ off ∧ off < 0x180 then some (.x (Fin.ofNat 16 ((off - 0x100) / 8)))
  else if 0x200 ≤ off ∧ off < 0x400 then
    some (.blk (Fin.ofNat 16 ((off - 0x200) / 0x20)) (Fin.ofNat 4 ((off - 0x200) / 8)))
  else if 0x400 ≤ off ∧ off < 0x480 then some (.deg (Fin.ofNat 16 ((off - 0x400) / 8)))
  else none

/-- The register an access reaches: only 8-byte accesses at multiples of 8 that the map lists; any other access
gets BUS_ERROR (R52, R59). -/
def accessReg (off width : Nat) : Option WinReg :=
  if width = 8 ∧ off % 8 = 0 then windowReg off else none

/-- What a read of a window register returns (R53, R54; STATUS with commands outstanding: log 3, log 20). -/
def State.readReg (s : State) : WinReg → Word
  | .id => Config.identification
  | .cmd => 0#64
  | .status => s.statusWord
  | .ctrl => s.ctrlWord
  | .errcmd => zext64 s.errcmd
  | .cmdcnt => zext64 s.cmdcnt
  | .x n => s.readX n
  | .blk n k => block (s.readBits n) k
  | .deg n => degreeWord (s.readDeg n)

/-- A write of a window register: read-only registers ignore it, CMD submits data[31:0] (R54, R58). -/
def State.writeReg (s : State) (r : WinReg) (d : Word) : State :=
  match r with
  | .id => s
  | .cmd => s.enqueue (d.setWidth 32)
  | .status => s
  | .ctrl => s.writeCtrl d
  | .errcmd => s
  | .cmdcnt => s
  | .x n => s.setX n d
  | .blk n k => s.setP n (setBlock (s.readBits n) k d)
  | .deg _ => s

/-- How many free values a read of a register draws: one for a STATUS read with commands outstanding (R30; log 3). -/
def State.readDraws (s : State) (r : WinReg) : Nat :=
  if r = .status ∧ s.cmdq ≠ [] then 1 else 0

/-- One host access performs (R52, R54). A BUS_ERROR changes nothing and does not touch ERR. -/
def performAccess (a : HostAccess) (s : State) : State :=
  match a with
  | .read off width =>
    match accessReg off width with
    | some r => (s.draw (s.readDraws r)).respond (.data (s.readReg r))
    | none => s.respond .busError
  | .write off width d =>
    match accessReg off width with
    | some r => (s.writeReg r d).respond .written
    | none => s.respond .busError

/-- The byte offset of an access. -/
def accessOffset : HostAccess → Nat
  | .read off _ => off
  | .write off _ _ => off

/-- A write that submits a command word (R58). -/
def submits : HostAccess → Bool
  | .read _ _ => false
  | .write off width _ => accessReg off width = some .cmd

/-- The access may perform now: a CMD write while CMDQ has room, an access to CMD or STATUS at once, any other
once CMDQ is empty (R58, R61; log 6). What a STATUS read that performs before then shows is log 20. -/
def State.accessReady (s : State) (a : HostAccess) : Bool :=
  if submits a then s.cmdq.length < Config.cmdqDepth
  else if accessOffset a = cmdOffset ∨ accessOffset a = statusOffset then true
  else s.cmdq.isEmpty

/-- One input takes effect. While reset is asserted an access gets no response (R210; log 11). -/
def performInput (i : Input) (s : State) : State :=
  match i with
  | .access a => if s.inReset then s else performAccess a s
  | .assertReset => s.enterReset
  | .releaseReset => s.leaveReset

/-- The first input may take effect now (log 1, log 11). -/
def State.hostReady (s : State) : Bool :=
  match s.inputs with
  | [] => false
  | .access a :: _ => s.inReset || s.accessReady a
  | .assertReset :: _ => true
  | .releaseReset :: _ => true

/-- The host port moves: the first input leaves the list and takes effect. -/
def hostStep (s : State) : Result :=
  match s.inputs with
  | [] => .next s
  | i :: rest => .next (performInput i { s with inputs := rest })

/-- Byte `j` of an 8-byte value, little-endian (R56). -/
def byteLane (v : Word) (j : Nat) : BitVec 8 := v.extractLsb' (8 * j) 8

/-- The byte a read of the register around byte offset `off` carries for it; none in a hole (R56, R57). -/
def State.windowByte (s : State) (off : Nat) : Option (BitVec 8) :=
  (windowReg (off / 8 * 8)).map fun r => byteLane (s.readReg r) (off % 8)

/-- The window offset of a platform address (R50; log 16). -/
def windowOffset (addr : Nat) : Option Nat :=
  if Config.windowBase ≤ addr ∧ addr < Config.windowBase + 0x1000 then some (addr - Config.windowBase) else none

end Sys2Proof.Machine
end

