-- ==== Sys2Proof/Machine/Sequencer.lean ====
section
/-! DEFINITION. The command sequencer (spec/60_exceptions.md R180, R186), and which of it and the host port moves
(10_state.md R20; log 2). -/

namespace Sys2Proof.Machine

/-- The sequencer moves: it takes the head of CMDQ and runs it to its end (R180; log 14). -/
def sequencerStep (s : State) : Result :=
  match s.cmdq with
  | [] => .next s
  | w :: q => runCommand w (s.withQueue q)

/-- The sequencer has a command to take. While reset is asserted it takes none (R210). -/
def State.sequencerReady (s : State) : Bool := !s.inReset && !s.cmdq.isEmpty

/-- Both agents can move: the spec leaves the order open (R30, R216; log 2). -/
def State.contended (s : State) : Bool := s.sequencerReady && s.hostReady

/-- Who moves; none if the core is idle (R198). Where both can, the schedule says; an exhausted schedule says the
sequencer (log 2). -/
def State.turn (s : State) : Option Agent :=
  if s.contended then some (s.sched.headD .sequencer)
  else if s.sequencerReady then some .sequencer
  else if s.hostReady then some .host
  else none

/-- The schedule after that choice: one entry is used where both could move. -/
def State.takeTurn (s : State) : State := if s.contended then { s with sched := s.sched.tail } else s

/-- One step: the agent whose turn it is moves; the idle core keeps all its state (R180, R198; log 9). -/
def coreStep (s : State) : Result :=
  match s.turn with
  | some .sequencer => sequencerStep s.takeTurn
  | some .host => hostStep s.takeTurn
  | none => .next s

/-- `s` with the word `w` as the next command the sequencer takes: it stands at the head of CMDQ (in the place of the
head, if there is one), no error is pending, reset is released, and the schedule leaves the turn to the
sequencer (log 10). -/
def State.withNextCommand (s : State) (w : Command) : State :=
  { s.clearError with cmdq := w :: s.cmdq.tail, inReset := false, sched := [] }

end Sys2Proof.Machine
end

