-- ==== Sys2Proof/Machine/Step.lean ====
section
/-! DEFINITION. One step of the machine, and where the next command stands (log 10). -/

namespace Sys2Proof.Machine

/-- One step of the core and its host port. -/
def step (s : State) : Host.Outcome State Fault Refusal := coreStep s

/-- `s` with the command word `w` of `nbits` bits placed so that the very next step runs it. -/
def State.withFetchWord (s : State) (nbits w : Nat) : State := s.withNextCommand (tableWord nbits w)

end Sys2Proof.Machine
end

