-- ==== Sys2Proof/Machine/Assembler.lean ====
section
/-! DEFINITION. Pseudo-commands (spec/30_encoding.md R79) and the assembler's text form (R78). No part of a step: it is
how a host's command stream is written down. -/

namespace Sys2Proof.Machine

/-- The pseudo-commands (R79). -/
inductive Pseudo where
  | padd (pd pa pb : PReg)
  | psub (pd pa pb : PReg)
  | pmov (pd ps : PReg)
  | pclr (pd : PReg)
  | li (xd : XReg) (imm16 : Nat)
  | li64 (xd : XReg) (imm64 : Word)
  deriving DecidableEq, Repr

/-- The core commands a pseudo-command stands for (R79). -/
def expandPseudo : Pseudo → List Instr
  | .padd pd pa pb => [.pxor pd pa pb]
  | .psub pd pa pb => [.pxor pd pa pb]
  | .pmov pd ps => [.por pd ps ps]
  | .pclr pd => [.pxor pd pd pd]
  | .li xd imm16 => [.xli xd imm16 0]
  | .li64 xd imm64 =>
    [.xli xd (imm64.extractLsb' 48 16).toNat 3, .xlk xd (imm64.extractLsb' 32 16).toNat 2,
      .xlk xd (imm64.extractLsb' 16 16).toNat 1, .xlk xd (imm64.extractLsb' 0 16).toNat 0]

/-- An operand as written (R78). -/
inductive AsmOperand where
  | x (n : XReg)
  | p (n : PReg)
  | imm (n : Nat)
  deriving DecidableEq, Repr

/-- A digit's value in a base up to 16. -/
def digitValue (base : Nat) (c : Char) : Option Nat :=
  let v := if '0' ≤ c ∧ c ≤ '9' then some (c.toNat - '0'.toNat)
    else if 'a' ≤ c ∧ c ≤ 'f' then some (c.toNat - 'a'.toNat + 10)
    else if 'A' ≤ c ∧ c ≤ 'F' then some (c.toNat - 'A'.toNat + 10)
    else none
  v.bind fun n => if n < base then some n else none

/-- A nonempty run of digits; leading zeros are accepted and do not count (DESIGN CHOICE, safe; log 19). -/
def parseDigits (base : Nat) (cs : List Char) : Option Nat :=
  if cs.isEmpty then none
  else cs.foldl (fun acc c => acc.bind fun n => (digitValue base c).map fun d => n * base + d) (some 0)

/-- An immediate: decimal, or hexadecimal after `0x`, unsigned (R78). -/
def parseImm : List Char → Option Nat
  | '0' :: 'x' :: cs => parseDigits 16 cs
  | cs => parseDigits 10 cs

/-- A register number, 0 to 15, in decimal digits. R78 names `x0` to `x15` and says nothing of leading zeros: they are
accepted and do not count, `x007` is X7 (DESIGN CHOICE, safe; log 19). -/
def parseRegNumber (cs : List Char) : Option (Fin 16) :=
  (parseDigits 10 cs).bind fun n => if h : n < 16 then some ⟨n, h⟩ else none

/-- One operand: `x0` to `x15`, `p0` to `p15`, or an immediate (R78). -/
def parseOperand : List Char → Option AsmOperand
  | 'x' :: cs => (parseRegNumber cs).map .x
  | 'p' :: cs => (parseRegNumber cs).map .p
  | cs => (parseImm cs).map .imm

/-- White space within a line. -/
def isBlank (c : Char) : Bool := c = ' ' || c = '\t'

/-- A field without the white space around it. -/
def trimBlank (cs : List Char) : List Char :=
  ((cs.dropWhile isBlank).reverse.dropWhile isBlank).reverse

/-- The pieces of a text between separators. -/
def splitAt (sep : Char) : List Char → List (List Char)
  | [] => [[]]
  | c :: cs =>
    if c = sep then [] :: splitAt sep cs
    else
      match splitAt sep cs with
      | [] => [[c]]
      | piece :: rest => (c :: piece) :: rest

/-- The operands after a mnemonic, separated by commas. -/
def parseOperands (cs : List Char) : Option (List AsmOperand) :=
  let t := trimBlank cs
  if t.isEmpty then some [] else (splitAt ',' t).mapM fun f => parseOperand (trimBlank f)

/-- A mnemonic, in lower case, with its operands: the command or pseudo-command it names, as core commands
(R78, R79). hw is 0 where XLI and XLK leave it out. -/
def assembleCommand (mnemonic : String) (ops : List AsmOperand) : Option (List Instr) :=
  match mnemonic, ops with
  | "nop", [] => some [.nop]
  | "log2w", [.x d, .x a] => some [.log2w d a]
  | "log2h", [.x d, .x a] => some [.log2h d a]
  | "clzw", [.x d, .x a] => some [.clzw d a]
  | "clzh", [.x d, .x a] => some [.clzh d a]
  | "ilv16", [.x d, .x a, .x b] => some [.ilv16 d a b]
  | "ilv32", [.x d, .x a, .x b] => some [.ilv32 d a b]
  | "conv16", [.x d, .x a, .x b] => some [.conv16 d a b]
  | "conv32", [.x d, .x a, .x b] => some [.conv32 d a b]
  | "xli", [.x d, .imm n] => some [.xli d n 0]
  | "xli", [.x d, .imm n, .imm hw] => some [.xli d n hw]
  | "xlk", [.x d, .imm n] => some [.xlk d n 0]
  | "xlk", [.x d, .imm n, .imm hw] => some [.xlk d n hw]
  | "pfromi", [.p d, .x a] => some [.pfromi d a]
  | "pfromb", [.p d, .p a, .imm start, .imm count] => some [.pfromb d a start count]
  | "pgetb", [.x d, .p a, .imm k] => some [.pgetb d a k]
  | "psetb", [.p d, .x a, .imm k] => some [.psetb d a k]
  | "pbit", [.x d, .p a, .imm n] => some [.pbit d a n]
  | "pdeg", [.x d, .p a] => some [.pdeg d a]
  | "psize", [.x d, .p a] => some [.psize d a]
  | "pnub", [.x d, .p a] => some [.pnub d a]
  | "pxor", [.p d, .p a, .p b] => some [.pxor d a b]
  | "pand", [.p d, .p a, .p b] => some [.pand d a b]
  | "por", [.p d, .p a, .p b] => some [.por d a b]
  | "pslli", [.p d, .p a, .imm n] => some [.pslli d a n]
  | "psrli", [.p d, .p a, .imm n] => some [.psrli d a n]
  | "psll", [.p d, .p a, .x n] => some [.psll d a n]
  | "psrl", [.p d, .p a, .x n] => some [.psrl d a n]
  | "pmul", [.p d, .p a, .p b] => some [.pmul d a b]
  | "padd", [.p d, .p a, .p b] => some (expandPseudo (.padd d a b))
  | "psub", [.p d, .p a, .p b] => some (expandPseudo (.psub d a b))
  | "pmov", [.p d, .p a] => some (expandPseudo (.pmov d a))
  | "pclr", [.p d] => some (expandPseudo (.pclr d))
  | "li", [.x d, .imm n] => some (expandPseudo (.li d n))
  | "li64", [.x d, .imm n] => if n < 2 ^ 64 then some (expandPseudo (.li64 d (BitVec.ofNat 64 n))) else none
  | _, _ => none

/-- One line of assembler text: `MNEMONIC operand, operand, ...`, a comment after `;`, mnemonics in any case. An
immediate that does not fit its field is refused (R78). A line with no command assembles to nothing (log 19). -/
def assembleLine (line : List Char) : Option (List Instr) :=
  let code := trimBlank (line.takeWhile fun c => c ≠ ';')
  if code.isEmpty then some []
  else
    let name := (code.takeWhile fun c => !isBlank c).map Char.toLower
    let rest := code.dropWhile fun c => !isBlank c
    (parseOperands rest).bind fun ops =>
      (assembleCommand (String.ofList name) ops).bind fun is => if is.all wellFormed then some is else none

/-- A text, one command a line (R78), as the command words the host writes to CMD. -/
def assemble (text : List Char) : Option (List Command) :=
  ((splitAt '\n' text).mapM assembleLine).map fun iss => iss.flatten.map encode

end Sys2Proof.Machine
end

