-- ==== Sys2Proof/Safety.lean ====
section
/-! DEFINITION. The terms claims are made in: which registers a command may write (spec/30_encoding.md R75), what a
step leaves alone, and the invariants of the machine (10_state.md R25, R29, R40, R42). -/

namespace Sys2Proof.Machine

/-- The X register a command writes, if any (R22, R75). -/
def destX : Instr → Option XReg
  | .log2w rd _ | .log2h rd _ | .clzw rd _ | .clzh rd _ => some rd
  | .ilv16 rd _ _ | .ilv32 rd _ _ | .conv16 rd _ _ | .conv32 rd _ _ => some rd
  | .xli rd _ _ | .xlk rd _ _ => some rd
  | .pgetb rd _ _ | .pbit rd _ _ => some rd
  | .pdeg rd _ | .psize rd _ | .pnub rd _ => some rd
  | .nop | .pfromi _ _ | .pfromb _ _ _ _ | .psetb _ _ _ => none
  | .pxor _ _ _ | .pand _ _ _ | .por _ _ _ => none
  | .pslli _ _ _ | .psrli _ _ _ | .psll _ _ _ | .psrl _ _ _ | .pmul _ _ _ => none

/-- The P register a command writes, if any (R26, R75). -/
def destP : Instr → Option PReg
  | .pfromi rd _ | .pfromb rd _ _ _ | .psetb rd _ _ => some rd
  | .pxor rd _ _ | .pand rd _ _ | .por rd _ _ => some rd
  | .pslli rd _ _ | .psrli rd _ _ | .psll rd _ _ | .psrl rd _ _ | .pmul rd _ _ => some rd
  | .nop | .log2w _ _ | .log2h _ _ | .clzw _ _ | .clzh _ _ => none
  | .ilv16 _ _ _ | .ilv32 _ _ _ | .conv16 _ _ _ | .conv32 _ _ _ => none
  | .xli _ _ _ | .xlk _ _ _ | .pgetb _ _ _ | .pbit _ _ _ => none
  | .pdeg _ _ | .psize _ _ | .pnub _ _ => none

/-- The commands that write Z (R34, R90). -/
def writesZ : Instr → Bool
  | .log2w _ _ | .log2h _ _ | .clzw _ _ | .clzh _ _ => true
  | .nop | .ilv16 _ _ _ | .ilv32 _ _ _ | .conv16 _ _ _ | .conv32 _ _ _ | .xli _ _ _ | .xlk _ _ _ => false
  | .pfromi _ _ | .pfromb _ _ _ _ | .pgetb _ _ _ | .psetb _ _ _ | .pbit _ _ _ => false
  | .pdeg _ _ | .psize _ _ | .pnub _ _ | .pxor _ _ _ | .pand _ _ _ | .por _ _ _ => false
  | .pslli _ _ _ | .psrli _ _ _ | .psll _ _ _ | .psrl _ _ _ | .pmul _ _ _ => false

/-- The commands that may set OVF (R32). -/
def maySetOvf : Instr → Bool
  | .pslli _ _ _ | .psll _ _ _ | .pmul _ _ _ => true
  | .nop | .log2w _ _ | .log2h _ _ | .clzw _ _ | .clzh _ _ => false
  | .ilv16 _ _ _ | .ilv32 _ _ _ | .conv16 _ _ _ | .conv32 _ _ _ | .xli _ _ _ | .xlk _ _ _ => false
  | .pfromi _ _ | .pfromb _ _ _ _ | .pgetb _ _ _ | .psetb _ _ _ | .pbit _ _ _ => false
  | .pdeg _ _ | .psize _ _ | .pnub _ _ | .pxor _ _ _ | .pand _ _ _ | .por _ _ _ => false
  | .psrli _ _ _ | .psrl _ _ _ => false

/-- The range fault a command raises, if its index is out of range (R183): no command has two range checks (R189). -/
def rangeFault : Instr → Option Cause
  | .pfromb _ _ start count => if 4 < start + count then some .blockIndexRange else none
  | .pgetb _ _ k | .psetb _ _ k => if 4 ≤ k then some .blockIndexRange else none
  | .pbit _ _ i => if 256 ≤ i then some .bitIndexRange else none
  | .nop | .log2w _ _ | .log2h _ _ | .clzw _ _ | .clzh _ _ => none
  | .ilv16 _ _ _ | .ilv32 _ _ _ | .conv16 _ _ _ | .conv32 _ _ _ | .xli _ _ _ | .xlk _ _ _ => none
  | .pfromi _ _ | .pdeg _ _ | .psize _ _ | .pnub _ _ | .pxor _ _ _ | .pand _ _ _ | .por _ _ _ => none
  | .pslli _ _ _ | .psrli _ _ _ | .psll _ _ _ | .psrl _ _ _ | .pmul _ _ _ => none

/-- The X registers a command reads (R22, R75). -/
def readsX : Instr → List XReg
  | .log2w _ a | .log2h _ a | .clzw _ a | .clzh _ a => [a]
  | .ilv16 _ a b | .ilv32 _ a b | .conv16 _ a b | .conv32 _ a b => [a, b]
  | .xlk rd _ _ => [rd]
  | .pfromi _ a | .psetb _ a _ => [a]
  | .psll _ _ b | .psrl _ _ b => [b]
  | .nop | .xli _ _ _ | .pfromb _ _ _ _ | .pgetb _ _ _ | .pbit _ _ _ => []
  | .pdeg _ _ | .psize _ _ | .pnub _ _ | .pxor _ _ _ | .pand _ _ _ | .por _ _ _ => []
  | .pslli _ _ _ | .psrli _ _ _ | .pmul _ _ _ => []

/-- The P registers a command reads (R26, R75). -/
def readsP : Instr → List PReg
  | .pfromb _ a _ _ | .pgetb _ a _ | .pbit _ a _ | .pdeg _ a | .psize _ a | .pnub _ a => [a]
  | .pslli _ a _ | .psrli _ a _ | .psll _ a _ | .psrl _ a _ => [a]
  | .pxor _ a b | .pand _ a b | .por _ a b | .pmul _ a b => [a, b]
  | .psetb rd _ _ => [rd]
  | .nop | .log2w _ _ | .log2h _ _ | .clzw _ _ | .clzh _ _ => []
  | .ilv16 _ _ _ | .ilv32 _ _ _ | .conv16 _ _ _ | .conv32 _ _ _ => []
  | .xli _ _ _ | .xlk _ _ _ | .pfromi _ _ => []

/-- What bits 25:22 of a command's word hold: its destination's number, 0 if it has none (R71, R72, R75). -/
def rdNumber (i : Instr) : Nat :=
  match destX i, destP i with
  | some r, _ => r
  | none, some r => r
  | none, none => 0

/-- What bits 21:18 of a command's word hold: rs1, 0 where the format has none (R71, R72, R75). -/
def rs1Number : Instr → Nat
  | .log2w _ a | .log2h _ a | .clzw _ a | .clzh _ a => a
  | .ilv16 _ a _ | .ilv32 _ a _ | .conv16 _ a _ | .conv32 _ a _ => a
  | .pfromi _ a | .pfromb _ a _ _ | .pgetb _ a _ | .psetb _ a _ | .pbit _ a _ => a
  | .pdeg _ a | .psize _ a | .pnub _ a | .pxor _ a _ | .pand _ a _ | .por _ a _ => a
  | .pslli _ a _ | .psrli _ a _ | .psll _ a _ | .psrl _ a _ | .pmul _ a _ => a
  | .nop | .xli _ _ _ | .xlk _ _ _ => 0

/-- What bits 17:0 of a command's word hold: rs2 at 14, or imm14, or hw at 16 and imm16 (R71 to R73). -/
def lowNumber : Instr → Nat
  | .ilv16 _ _ b | .ilv32 _ _ b | .conv16 _ _ b | .conv32 _ _ b => b * 2 ^ 14
  | .pxor _ _ b | .pand _ _ b | .por _ _ b | .psll _ _ b | .psrl _ _ b | .pmul _ _ b => b * 2 ^ 14
  | .xli _ imm16 hw | .xlk _ imm16 hw => hw * 2 ^ 16 + imm16
  | .pfromb _ _ start count => start * 2 ^ 7 + count
  | .pgetb _ _ n | .psetb _ _ n | .pbit _ _ n | .pslli _ _ n | .psrli _ _ n => n
  | .nop | .log2w _ _ | .log2h _ _ | .clzw _ _ | .clzh _ _ => 0
  | .pfromi _ _ | .pdeg _ _ | .psize _ _ | .pnub _ _ => 0

/-- A list of commands, one after the other, as the sequencer runs them. -/
def runCommands : List Instr → State → Result
  | [], s => .next s
  | i :: rest, s =>
    match exec i s with
    | .next t => runCommands rest t
    | .fault f => .fault f
    | .refused r => .refused r

/-- X registers but `d` are unchanged. -/
def SameXBut (d : Option XReg) (s t : State) : Prop := ∀ r, some r ≠ d → t.readX r = s.readX r

/-- P registers but `d` are unchanged, value and degree. -/
def SamePBut (d : Option PReg) (s t : State) : Prop := ∀ r, some r ≠ d → t.readP r = s.readP r

/-- The error registers are unchanged: ERR, CAUSE, ERRCMD. -/
structure SameError (s t : State) : Prop where
  err : t.err = s.err
  cause : t.cause = s.cause
  errcmd : t.errcmd = s.errcmd

/-- What no command reads or writes is unchanged: CTRL, CMDQ, the reset line, and the model's own lists. -/
structure SameOutside (s t : State) : Prop where
  errie : t.errie = s.errie
  cmdq : t.cmdq = s.cmdq
  inReset : t.inReset = s.inReset
  inputs : t.inputs = s.inputs
  outputs : t.outputs = s.outputs
  sched : t.sched = s.sched

/-- A command completed without a fault: CMDCNT counts it (R35), and neither the error registers nor anything outside
the command's reach changed. -/
structure Completed (s t : State) : Prop where
  cmdcnt : t.cmdcnt = s.cmdcnt + 1#32
  error : SameError s t
  outside : SameOutside s t
  draws : t.draws = s.draws

/-- A command that writes at most X register `d` and no flag completed: its frame. -/
structure FrameX (d : Option XReg) (s t : State) : Prop where
  x : SameXBut d s t
  p : SamePBut none s t
  ovf : t.ovf = s.ovf
  z : t.z = s.z
  completed : Completed s t

/-- A bit-scan command completed: X register `d` and Z may have changed (R90). -/
structure FrameScan (d : XReg) (s t : State) : Prop where
  x : SameXBut (some d) s t
  p : SamePBut none s t
  ovf : t.ovf = s.ovf
  completed : Completed s t

/-- A command that writes P register `d` and no flag completed: its frame. -/
structure FrameP (d : PReg) (s t : State) : Prop where
  x : SameXBut none s t
  p : SamePBut (some d) s t
  ovf : t.ovf = s.ovf
  z : t.z = s.z
  completed : Completed s t

/-- A command that writes P register `d` and may set OVF completed: its frame. -/
structure FramePOvf (d : PReg) (s t : State) : Prop where
  x : SameXBut none s t
  p : SamePBut (some d) s t
  z : t.z = s.z
  completed : Completed s t

/-- Command word `w` faulted with cause `c`: ERR, CAUSE and ERRCMD are written and nothing else changed (R184). -/
structure FaultEntered (c : Cause) (w : Command) (s t : State) : Prop where
  err : t.err = true
  cause : t.cause = c
  errcmd : t.errcmd = w
  x : SameXBut none s t
  p : SamePBut none s t
  ovf : t.ovf = s.ovf
  z : t.z = s.z
  cmdcnt : t.cmdcnt = s.cmdcnt
  outside : SameOutside s t
  draws : t.draws = s.draws

/-- P register `r` of `t` holds the value `v`, with its degree (R9, R10, R25). -/
def HoldsPoly (t : State) (r : PReg) (v : Coeffs) : Prop := t.readBits r = v ∧ t.readDeg r = degree v.toNat

/-- The word of a command is of the row with opcode `op` and format `f` (R72, R74). -/
def HasRow (i : Instr) (op : Nat) (f : Format) : Prop := encode i &&& formatMask f = opMatch op

/-- The degree invariant: every cached degree is the degree of its value (R25). -/
def DegreeInv (s : State) : Prop := ∀ r, s.readDeg r = degree (s.readBits r).toNat

/-- CAUSE is 0 while ERR = 0 and a raised code while ERR = 1, and ERRCMD is 0 while ERR = 0 (R29, R31, R37). -/
def ErrorInv (s : State) : Prop :=
  (s.err = false → s.cause = .none ∧ s.errcmd = 0#32) ∧ (s.err = true → s.cause ≠ .none)

/-- CMDQ holds at most CMDQ_DEPTH commands (R40). -/
def QueueInv (s : State) : Prop := s.cmdq.length ≤ Config.cmdqDepth

/-- Every register of the spec holds its reset value and CMDQ is empty (R42). -/
structure AtReset (s : State) : Prop where
  x : ∀ r, s.readX r = 0#64
  p : ∀ r, s.readP r = Poly.zero
  err : s.err = false
  ovf : s.ovf = false
  z : s.z = false
  cause : s.cause = .none
  errie : s.errie = false
  errcmd : s.errcmd = 0#32
  cmdcnt : s.cmdcnt = 0#32
  cmdq : s.cmdq = []

/-- While reset is asserted the registers hold their reset values (R210). -/
def ResetInv (s : State) : Prop := s.inReset = true → AtReset s

/-- Work left: queued commands, and inputs, each of which may queue one command (R216). -/
def outstanding (s : State) : Nat := s.cmdq.length + 2 * s.inputs.length

/-- How many responses a list of inputs gets: one for each access made while reset is released, none for one made while it
is asserted (R52, R210; log 11). -/
def answers : Bool → List Input → Nat
  | _, [] => 0
  | inReset, .access _ :: rest => (if inReset then 0 else 1) + answers inReset rest
  | _, .assertReset :: rest => answers true rest
  | _, .releaseReset :: rest => answers false rest

end Sys2Proof.Machine
end

