-- ==== Sys2Proof/Certificates/Slice0/Obligations.lean ====
section
/-! DEFINITION. The statements for the provers. Each docstring names the rule it formalises, or says that it rests on the
spec's own inference or on a choice of the model's. -/

open Sys2Proof Sys2Proof.Machine

/-! ### Encoding -/

/-- Decoding the word of a command gives the command back, for all 27 commands at every operand (30_encoding.md). -/
def Obligations.DecodeOfEncodeIsTheCommand : Prop :=
  ∀ i : Instr, WellFormed i → decode (encode i) = .ok i

/-- A word that decodes is the word of the command it decodes to: no bit of a word is ignored (30_encoding.md). -/
def Obligations.EncodeOfDecodeIsTheWord : Prop :=
  ∀ (w : Command) (i : Instr), decode w = .ok i → WellFormed i ∧ encode i = w

/-- R74: a word decodes exactly when a row's match fits it under the row's mask; it is then the command of the
one row that fits. -/
def Obligations.WordsDecodeByTheOpcodeTable : Prop :=
  (∀ w : Command, (∃ i, decode w = .ok i) ↔ ∃ row ∈ opcodeTable, w &&& row.2 = row.1) ∧
  (∀ (w : Command) (i : Instr), decode w = .ok i →
    w &&& formatMask (opcodeRow i).fmt = opMatch (opcodeRow i).op ∧
    (opMatch (opcodeRow i).op, formatMask (opcodeRow i).fmt) ∈ opcodeTable) ∧
  (∀ (w : Command), ∀ r1 ∈ opcodeTable, ∀ r2 ∈ opcodeTable,
    w &&& r1.2 = r1.1 → w &&& r2.2 = r2.1 → r1 = r2)

/-- R71: the operands of a decoded command are the fields of its word: op in 31:26, rd in 25:22, rs1 in 21:18, and
rs2, imm14, start and count, or hw and imm16 below; the parts below fit their fields, so bits 17:0 fix each of them. -/
def Obligations.DecodedOperandsAreTheWordsFields : Prop :=
  ∀ (w : Command) (i : Instr), decode w = .ok i →
    WellFormed i ∧
    w.toNat / 2 ^ 26 = (opcodeRow i).op ∧
    w.toNat / 2 ^ 22 % 16 = rdNumber i ∧
    w.toNat / 2 ^ 18 % 16 = rs1Number i ∧
    w.toNat % 2 ^ 18 = lowNumber i

/-- R77: opcode 0x00, the unassigned opcodes, and a 1 in a must-be-zero bit of an assigned opcode's format are illegal;
every word that fits no row of the table is, and it raises IllegalCommand when it is taken. -/
def Obligations.IllegalWordsAreRefused : Prop :=
  (∀ w : Command, w.toNat / 2 ^ 26 = 0 → decode w = .illegal .zeroOpcode) ∧
  (∀ w : Command, w.toNat / 2 ^ 26 ∈ [0x02, 0x03, 0x0E, 0x0F, 0x1B] ∨ 0x21 ≤ w.toNat / 2 ^ 26 →
    decode w = .illegal .unassignedOpcode) ∧
  (∀ (w : Command) (i : Instr), w.toNat / 2 ^ 26 = (opcodeRow i).op →
    w &&& (formatMask (opcodeRow i).fmt &&& 0x03FFFFFF#32) ≠ 0 → decode w = .illegal .mustBeZero) ∧
  (∀ (w : Command) (s : State), (∀ row ∈ opcodeTable, w &&& row.2 ≠ row.1) → s.err = false →
    ∃ t, runCommand w s = .next t ∧ FaultEntered .illegalCommand w s t)

/-- Words the spec writes out, with the commands they stand for (95_test_vectors.md, sections 2.4, 2.7 and 3). -/
def Obligations.PrintedWordsDecode : Prop :=
  decode 0x04000000#32 = .ok .nop ∧
  decode 0x11500000#32 = .ok (.log2w 5 4) ∧
  decode 0x20C48000#32 = .ok (.ilv16 3 1 2) ∧
  decode 0x29048000#32 = .ok (.conv16 4 1 2) ∧
  decode 0x3042BEEF#32 = .ok (.xli 1 0xBEEF 2) ∧
  decode 0x44C40082#32 = .ok (.pfromb 3 1 1 2) ∧
  decode 0x70840064#32 = .ok (.pslli 2 1 100) ∧
  decode 0x80C48000#32 = .ok (.pmul 3 1 2) ∧
  decode 0x80C48001#32 = .illegal .mustBeZero

/-- An assembled line holds only commands whose immediates fit (30_encoding.md). -/
def Obligations.AssemblerRefusesWhatDoesNotFit : Prop :=
  ∀ (line : List Char) (is : List Instr), assembleLine line = some is → ∀ i ∈ is, WellFormed i

/-! ### The command step -/

/-- At the sequencer's turn, with no error pending, the step executes the command the head of CMDQ decodes to, on the
state with the head removed and the turn used up (log 2); and `withFetchWord` places a word so (log 10). -/
def Obligations.StepRunsTheDecodedCommand : Prop :=
  (∀ (s : State) (w : Command) (q : List Command) (i : Instr),
    s.turn = some .sequencer → s.cmdq = w :: q → s.err = false → decode w = .ok i →
    step s = exec i (s.takeTurn.withQueue q)) ∧
  (∀ (s : State) (w : Nat) (i : Instr), decodeTableWord 32 w = some i →
    ∃ t, step (s.withFetchWord 32 w) = exec i t ∧ SameXBut none s t ∧ SamePBut none s t ∧ t.cmdq = s.cmdq.tail ∧
      t.cmdcnt = s.cmdcnt ∧ t.ovf = s.ovf ∧ t.z = s.z ∧ t.errie = s.errie)

/-- R180, R184, R186: one word taken from CMDQ is discarded while ERR = 1, raises IllegalCommand if it does not decode,
raises its range fault, or executes, completes and is counted. A fault records the very word. -/
def Obligations.SequencerStepIsTheCommandStep : Prop :=
  ∀ (s : State) (w : Command) (q : List Command), s.turn = some .sequencer → s.cmdq = w :: q →
    ∃ t, step s = .next t ∧
      (s.err = true → t = s.takeTurn.withQueue q) ∧
      (s.err = false → ∀ why, decode w = .illegal why →
        FaultEntered .illegalCommand w (s.takeTurn.withQueue q) t) ∧
      (s.err = false → ∀ i c, decode w = .ok i → rangeFault i = some c →
        FaultEntered c w (s.takeTurn.withQueue q) t) ∧
      (s.err = false → ∀ i, decode w = .ok i → rangeFault i = none →
        exec i (s.takeTurn.withQueue q) = .next t ∧ Completed (s.takeTurn.withQueue q) t)

/-- R183: the cause codes, and who raises them when: an illegal word cause 1, a PBIT index of 256 or more cause 2, a
block index of 4 or more (PGETB, PSETB) or start + count above 4 (PFROMB) cause 3; each records the word. No other command
raises any, and codes 4 to 15 never stand in STATUS. -/
def Obligations.CausesAreRaisedAsListed : Prop :=
  (causeCode .none = 0#4 ∧ causeCode .illegalCommand = 1#4 ∧ causeCode .bitIndexRange = 2#4 ∧
    causeCode .blockIndexRange = 3#4 ∧ ∀ s : State, (causeCode s.cause).toNat < 4) ∧
  (∀ (w : Command) (why : Illegal) (s : State), s.err = false → decode w = .illegal why →
    ∃ t, runCommand w s = .next t ∧ FaultEntered .illegalCommand w s t) ∧
  (∀ (rd : XReg) (rs1 : PReg) (n : Nat) (s : State), 256 ≤ n →
    ∃ t, exec (.pbit rd rs1 n) s = .next t ∧ FaultEntered .bitIndexRange (encode (.pbit rd rs1 n)) s t) ∧
  (∀ (rd : XReg) (rs1 : PReg) (k : Nat) (s : State), 4 ≤ k →
    ∃ t, exec (.pgetb rd rs1 k) s = .next t ∧ FaultEntered .blockIndexRange (encode (.pgetb rd rs1 k)) s t) ∧
  (∀ (rd : PReg) (rs1 : XReg) (k : Nat) (s : State), 4 ≤ k →
    ∃ t, exec (.psetb rd rs1 k) s = .next t ∧ FaultEntered .blockIndexRange (encode (.psetb rd rs1 k)) s t) ∧
  (∀ (rd rs1 : PReg) (start count : Nat) (s : State), 4 < start + count →
    ∃ t, exec (.pfromb rd rs1 start count) s = .next t ∧
      FaultEntered .blockIndexRange (encode (.pfromb rd rs1 start count)) s t) ∧
  (∀ (i : Instr) (s t : State), rangeFault i = none → exec i s = .next t → SameError s t)

/-- R31: ERR and CAUSE are set when the sequencer's command faults; only a host write of 1 to CLRERR, or reset, clears ERR
or CAUSE, and each of the two zeroes both; while ERR = 1 the sequencer executes nothing. -/
def Obligations.OnlyTheHostClearsErr : Prop :=
  (∀ s t : State, s.err = false → t.err = true → step s = .next t →
    s.turn = some .sequencer ∧ t.cause ≠ .none ∧
      ∃ w q, s.cmdq = w :: q ∧ FaultEntered t.cause w (s.takeTurn.withQueue q) t) ∧
  (∀ (s : State) (w : Command) (q : List Command), s.err = false → s.turn = some .sequencer → s.cmdq = w :: q →
    (∀ why, decode w = .illegal why → ∃ t, step s = .next t ∧ t.err = true ∧ t.cause = .illegalCommand) ∧
    (∀ i c, decode w = .ok i → rangeFault i = some c → ∃ t, step s = .next t ∧ t.err = true ∧ t.cause = c)) ∧
  (∀ s t : State, (s.err = true ∧ t.err = false) ∨ (s.cause ≠ .none ∧ t.cause = .none) → step s = .next t →
    s.turn = some .host ∧ t.err = false ∧ t.cause = .none ∧
    ((∃ rest, s.inputs = .assertReset :: rest) ∨
      ∃ d rest, s.inputs = .access (.write 0x018 8 d) :: rest ∧ d.getLsbD 8 = true)) ∧
  (∀ (s : State) (d : Word), d.getLsbD 8 = true → (s.writeCtrl d).err = false ∧ (s.writeCtrl d).cause = .none) ∧
  (∀ s : State, s.enterReset.err = false ∧ s.enterReset.cause = .none) ∧
  (∀ (s : State) (w : Command) (q : List Command), s.err = true → s.turn = some .sequencer → s.cmdq = w :: q →
    step s = .next (s.takeTurn.withQueue q))

/-- No command and no step stops the machine: there is always a next state (60_exceptions.md; log 13). -/
def Obligations.NothingStopsTheMachine : Prop :=
  (∀ (i : Instr) (s : State), ∃ t, exec i s = .next t) ∧ (∀ s : State, ∃ t, step s = .next t)

/-- R22, R26: a command writes no register but its destination, and what it writes there depends only on the registers
the rules list as read. -/
def Obligations.RegistersReadAndWrittenAsListed : Prop :=
  (∀ (i : Instr) (s t : State), exec i s = .next t → SameXBut (destX i) s t ∧ SamePBut (destP i) s t) ∧
  (∀ (i : Instr) (s u t v : State), rangeFault i = none →
    (∀ r ∈ readsX i, u.readX r = s.readX r) → (∀ r ∈ readsP i, u.readP r = s.readP r) →
    exec i s = .next t → exec i u = .next v →
    (∀ d, destX i = some d → v.readX d = t.readX d) ∧ (∀ d, destP i = some d → v.readP d = t.readP d))

/-- R90: the four scans set Z to whether their input is 0, and no other command writes Z. -/
def Obligations.ZIsWrittenByTheScansOnly : Prop :=
  (∀ (rd rs1 : XReg) (s t : State),
    (exec (.log2w rd rs1) s = .next t ∨ exec (.clzw rd rs1) s = .next t →
      (t.z = true ↔ (s.readX rs1).toNat = 0)) ∧
    (exec (.log2h rd rs1) s = .next t ∨ exec (.clzh rd rs1) s = .next t →
      (t.z = true ↔ (s.readX rs1).toNat % 2 ^ 32 = 0))) ∧
  (∀ (i : Instr) (s t : State), writesZ i = false → exec i s = .next t → t.z = s.z)

/-- R32: PSLLI, PSLL and PMUL set OVF when the exact result has a coefficient at 256 or above; no command clears it, no
other command changes it, and a host write of 1 to CLROVF, or reset, clears it, and nothing else does. -/
def Obligations.OvfIsSetExactlyByLostCoefficients : Prop :=
  (∀ (rd rs1 : PReg) (n : Nat) (s t : State), exec (.pslli rd rs1 n) s = .next t →
    (t.ovf = true ↔ s.ovf = true ∨ ∃ k, 256 ≤ k ∧ ((s.readBits rs1).toNat <<< n).testBit k = true)) ∧
  (∀ (rd rs1 : PReg) (rs2 : XReg) (s t : State), exec (.psll rd rs1 rs2) s = .next t →
    (t.ovf = true ↔ s.ovf = true ∨
      ∃ k, 256 ≤ k ∧ ((s.readBits rs1).toNat <<< (s.readX rs2).toNat).testBit k = true)) ∧
  (∀ (rd rs1 rs2 : PReg) (s t : State), exec (.pmul rd rs1 rs2) s = .next t →
    (t.ovf = true ↔ s.ovf = true ∨
      ∃ k, 256 ≤ k ∧ (clmul (s.readBits rs1).toNat (s.readBits rs2).toNat).testBit k = true)) ∧
  (∀ (i : Instr) (s t : State), maySetOvf i = false → exec i s = .next t → t.ovf = s.ovf) ∧
  (∀ (s : State) (d : Word), d.getLsbD 9 = true → (s.writeCtrl d).ovf = false) ∧
  (∀ s : State, s.enterReset.ovf = false) ∧
  (∀ s t : State, s.ovf = true → t.ovf = false → step s = .next t →
    s.turn = some .host ∧
    ((∃ rest, s.inputs = .assertReset :: rest) ∨
      ∃ d rest, s.inputs = .access (.write 0x018 8 d) :: rest ∧ d.getLsbD 9 = true))

/-! ### Invariants -/

/-- R25: in every step from a state whose cached degrees are right, they stay right, whatever command or host write is
performed. -/
def Obligations.DegreeInvariantIsKept : Prop :=
  ∀ s t : State, DegreeInv s → step s = .next t → DegreeInv t

/-- CAUSE and ERRCMD are 0 while ERR = 0, and CAUSE is a raised code while ERR = 1, in every step (10_state.md). -/
def Obligations.ErrorRegistersStayConsistent : Prop :=
  ∀ s t : State, ErrorInv s → step s = .next t → ErrorInv t

/-- CMDQ never holds more than CMDQ_DEPTH commands (10_state.md; the depth is free, log 5). -/
def Obligations.QueueNeverExceedsItsDepth : Prop :=
  ∀ s t : State, QueueInv s → step s = .next t → QueueInv t

/-- While reset is asserted every register keeps its reset value, so it has it when reset is released
(70_reset_and_hazards.md; log 11). -/
def Obligations.ResetValuesHoldUntilRelease : Prop :=
  (∀ s t : State, ResetInv s → step s = .next t → ResetInv t) ∧
  (∀ (s t : State) (rest : List Input), ResetInv s → s.inReset = true → s.inputs = .releaseReset :: rest →
    step s = .next t → AtReset t ∧ t.inReset = false)

/-- The invariants hold after reset. -/
def Obligations.InvariantsHoldAfterReset : Prop :=
  DegreeInv State.reset ∧ ErrorInv State.reset ∧ QueueInv State.reset ∧ ResetInv State.reset

/-! ### Reset -/

/-- R42: every register of the spec after reset, as the host and the platform see it. -/
def Obligations.ResetValuesAreZero : Prop :=
  AtReset State.reset ∧
  (∀ n, State.reset.readReg (.x n) = 0#64) ∧
  (∀ n k, State.reset.readReg (.blk n k) = 0#64) ∧
  (∀ n, State.reset.readReg (.deg n) = 0xFFFFFFFFFFFFFFFF#64) ∧
  State.reset.readReg .status = 0#64 ∧ State.reset.readReg .ctrl = 0#64 ∧ State.reset.readReg .errcmd = 0#64 ∧
  State.reset.readReg .cmdcnt = 0#64 ∧ State.reset.readReg .id = 0x0000000147463250#64 ∧ State.reset.irq = false

/-- When reset is asserted, queued commands are lost and every register takes its reset value; while it is asserted a
host access gets no response and changes nothing (70_reset_and_hazards.md; log 11). -/
def Obligations.AssertedResetClearsTheCore : Prop :=
  (∀ (s : State) (rest : List Input), s.turn = some .host → s.inputs = .assertReset :: rest →
    ∃ t, step s = .next t ∧ AtReset t ∧ t.inReset = true ∧ t.inputs = rest ∧ t.outputs = s.outputs) ∧
  (∀ (s : State) (a : HostAccess) (rest : List Input), s.inReset = true → s.inputs = .access a :: rest →
    step s = .next { s with inputs := rest })

/-! ### Bit scan -/

/-- R91, R92: LOG2W and LOG2H give floor(log2) of the 64-bit word and of its low 32 bits, 0 for 0 with Z set. -/
def Obligations.Log2GivesTheHighestSetBit : Prop :=
  (∀ (rd rs1 : XReg) (s : State), HasRow (.log2w rd rs1) 0x04 .r2 ∧
    ∃ t, exec (.log2w rd rs1) s = .next t ∧ FrameScan rd s t ∧
      (t.z = true ↔ (s.readX rs1).toNat = 0) ∧
      ((s.readX rs1).toNat = 0 → t.readX rd = 0#64) ∧
      ((s.readX rs1).toNat ≠ 0 → 2 ^ (t.readX rd).toNat ≤ (s.readX rs1).toNat ∧
        (s.readX rs1).toNat < 2 ^ ((t.readX rd).toNat + 1))) ∧
  (∀ (rd rs1 : XReg) (s : State), HasRow (.log2h rd rs1) 0x05 .r2 ∧
    ∃ t, exec (.log2h rd rs1) s = .next t ∧ FrameScan rd s t ∧
      (t.z = true ↔ (s.readX rs1).toNat % 2 ^ 32 = 0) ∧
      ((s.readX rs1).toNat % 2 ^ 32 = 0 → t.readX rd = 0#64) ∧
      ((s.readX rs1).toNat % 2 ^ 32 ≠ 0 → 2 ^ (t.readX rd).toNat ≤ (s.readX rs1).toNat % 2 ^ 32 ∧
        (s.readX rs1).toNat % 2 ^ 32 < 2 ^ ((t.readX rd).toNat + 1)))

/-- R93, R94: CLZW and CLZH count the leading zeros of the 64-bit word and of its low 32 bits, 64 and 32 for 0. -/
def Obligations.ClzCountsTheLeadingZeros : Prop :=
  (∀ (rd rs1 : XReg) (s : State), HasRow (.clzw rd rs1) 0x06 .r2 ∧
    ∃ t, exec (.clzw rd rs1) s = .next t ∧ FrameScan rd s t ∧
      (t.z = true ↔ (s.readX rs1).toNat = 0) ∧
      ((s.readX rs1).toNat = 0 → t.readX rd = 64#64) ∧
      ((s.readX rs1).toNat ≠ 0 → ∃ r, t.readX rd = BitVec.ofNat 64 (63 - r) ∧ r ≤ 63 ∧
        2 ^ r ≤ (s.readX rs1).toNat ∧ (s.readX rs1).toNat < 2 ^ (r + 1))) ∧
  (∀ (rd rs1 : XReg) (s : State), HasRow (.clzh rd rs1) 0x07 .r2 ∧
    ∃ t, exec (.clzh rd rs1) s = .next t ∧ FrameScan rd s t ∧
      (t.z = true ↔ (s.readX rs1).toNat % 2 ^ 32 = 0) ∧
      ((s.readX rs1).toNat % 2 ^ 32 = 0 → t.readX rd = 32#64) ∧
      ((s.readX rs1).toNat % 2 ^ 32 ≠ 0 → ∃ r, t.readX rd = BitVec.ofNat 64 (31 - r) ∧ r ≤ 31 ∧
        2 ^ r ≤ (s.readX rs1).toNat % 2 ^ 32 ∧ (s.readX rs1).toNat % 2 ^ 32 < 2 ^ (r + 1)))

/-- The relations between the scans' results that 40_bitscan.md lists as derived. -/
def Obligations.ScanResultsAreRelated : Prop :=
  (∀ (rd re rs1 : XReg) (s t u : State), exec (.log2w rd rs1) s = .next t → exec (.clzw re rs1) s = .next u →
    (s.readX rs1).toNat ≠ 0 → (u.readX re).toNat + (t.readX rd).toNat = 63) ∧
  (∀ (rd re rs1 : XReg) (s t u : State), exec (.log2h rd rs1) s = .next t → exec (.clzh re rs1) s = .next u →
    (s.readX rs1).toNat % 2 ^ 32 ≠ 0 → (u.readX re).toNat + (t.readX rd).toNat = 31) ∧
  (∀ (rd re rs1 : XReg) (s t u : State), exec (.log2w rd rs1) s = .next t → exec (.log2h re rs1) s = .next u →
    (s.readX rs1).toNat < 2 ^ 32 → t.readX rd = u.readX re)

/-! ### Interleave and convolution -/

/-- R101, R102: result bit 2i is bit i of a, bit 2i+1 is bit i of b; ILV16's bits 63:32 are 0. -/
def Obligations.InterleaveMergesTheBits : Prop :=
  (∀ (rd rs1 rs2 : XReg) (s : State), HasRow (.ilv16 rd rs1 rs2) 0x08 .r ∧
    ∃ t, exec (.ilv16 rd rs1 rs2) s = .next t ∧ FrameX (some rd) s t ∧
      (∀ i, i < 16 → (t.readX rd).getLsbD (2 * i) = (s.readX rs1).getLsbD i ∧
        (t.readX rd).getLsbD (2 * i + 1) = (s.readX rs2).getLsbD i) ∧
      (t.readX rd).toNat < 2 ^ 32) ∧
  (∀ (rd rs1 rs2 : XReg) (s : State), HasRow (.ilv32 rd rs1 rs2) 0x09 .r ∧
    ∃ t, exec (.ilv32 rd rs1 rs2) s = .next t ∧ FrameX (some rd) s t ∧
      (∀ i, i < 32 → (t.readX rd).getLsbD (2 * i) = (s.readX rs1).getLsbD i ∧
        (t.readX rd).getLsbD (2 * i + 1) = (s.readX rs2).getLsbD i))

/-- The mask-and-shift form of the interleaver, with the constants 41_interleave.md takes from general knowledge, gives
the loop's result. -/
def Obligations.InterleaveIsTheSpreadForm : Prop :=
  (∀ a b : BitVec 16, interleave a b = spread16 a ||| spread16 b <<< 1) ∧
  (∀ a b : BitVec 32, interleave a b = spread32 a ||| spread32 b <<< 1)

/-- R107, R108: CONV16 and CONV32 give the carry-less product of the low 16 and 32 bits, with bits 63:31 and bit 63 of
the result 0. -/
def Obligations.ConvolutionCommandsMultiply : Prop :=
  (∀ (rd rs1 rs2 : XReg) (s : State), HasRow (.conv16 rd rs1 rs2) 0x0A .r ∧
    ∃ t, exec (.conv16 rd rs1 rs2) s = .next t ∧ FrameX (some rd) s t ∧
      (t.readX rd).toNat = clmul ((s.readX rs1).toNat % 2 ^ 16) ((s.readX rs2).toNat % 2 ^ 16) ∧
      (t.readX rd).toNat < 2 ^ 31) ∧
  (∀ (rd rs1 rs2 : XReg) (s : State), HasRow (.conv32 rd rs1 rs2) 0x0B .r ∧
    ∃ t, exec (.conv32 rd rs1 rs2) s = .next t ∧ FrameX (some rd) s t ∧
      (t.readX rd).toNat = clmul ((s.readX rs1).toNat % 2 ^ 32) ((s.readX rs2).toNat % 2 ^ 32) ∧
      (t.readX rd).toNat < 2 ^ 63)

/-- The convolution datapath of even and odd accumulators computes the carry-less product, at both widths (the spec's own
inference in 42_convolution.md, and the equivalence the source asks for). -/
def Obligations.ConvolutionDatapathIsTheProduct : Prop :=
  (∀ a b : BitVec 16, (conv a b).toNat = clmul a.toNat b.toNat) ∧
  (∀ a b : BitVec 32, (conv a b).toNat = clmul a.toNat b.toNat)

/-! ### Block array -/

/-- R115, R116: PFROMI puts the word in block 0; PFROMB moves a block range down to block 0, or faults if it is out of
range. -/
def Obligations.ConstructorsPlaceTheirBlocks : Prop :=
  (∀ (rd : PReg) (rs1 : XReg) (s : State), HasRow (.pfromi rd rs1) 0x10 .r2 ∧
    ∃ t, exec (.pfromi rd rs1) s = .next t ∧ FrameP rd s t ∧
      (t.readBits rd).toNat = (s.readX rs1).toNat ∧ t.readDeg rd = degree (s.readX rs1).toNat) ∧
  (∀ (rd rs1 : PReg) (start count : Nat) (s : State), HasRow (.pfromb rd rs1 start count) 0x11 .i ∧
    (start + count ≤ 4 → ∃ t, exec (.pfromb rd rs1 start count) s = .next t ∧ FrameP rd s t ∧
      (∀ k, k < 4 → block (t.readBits rd) k = if k < count then block (s.readBits rs1) (start + k) else 0#64) ∧
      t.readDeg rd = degree (t.readBits rd).toNat) ∧
    (4 < start + count → ∃ t, exec (.pfromb rd rs1 start count) s = .next t ∧
      FaultEntered .blockIndexRange (encode (.pfromb rd rs1 start count)) s t))

/-- R117, R119: PGETB reads a block and PBIT a coefficient, or they fault if the index is out of range. -/
def Obligations.AccessorsReadBlocksAndCoefficients : Prop :=
  (∀ (rd : XReg) (rs1 : PReg) (k : Nat) (s : State), HasRow (.pgetb rd rs1 k) 0x12 .i ∧
    (k < 4 → ∃ t, exec (.pgetb rd rs1 k) s = .next t ∧ FrameX (some rd) s t ∧
      (t.readX rd).toNat = (s.readBits rs1).toNat / 2 ^ (64 * k) % 2 ^ 64) ∧
    (4 ≤ k → ∃ t, exec (.pgetb rd rs1 k) s = .next t ∧
      FaultEntered .blockIndexRange (encode (.pgetb rd rs1 k)) s t)) ∧
  (∀ (rd : XReg) (rs1 : PReg) (n : Nat) (s : State), HasRow (.pbit rd rs1 n) 0x14 .i ∧
    (n < 256 → ∃ t, exec (.pbit rd rs1 n) s = .next t ∧ FrameX (some rd) s t ∧
      t.readX rd = if (s.readBits rs1).toNat.testBit n then 1#64 else 0#64) ∧
    (256 ≤ n → ∃ t, exec (.pbit rd rs1 n) s = .next t ∧
      FaultEntered .bitIndexRange (encode (.pbit rd rs1 n)) s t))

/-- R118: PSETB replaces one block, keeps the others, and recomputes the degree; it faults if the index is out of range. -/
def Obligations.PsetbReplacesOneBlock : Prop :=
  ∀ (rd : PReg) (rs1 : XReg) (k : Nat) (s : State), HasRow (.psetb rd rs1 k) 0x13 .i ∧
    (k < 4 → ∃ t, exec (.psetb rd rs1 k) s = .next t ∧ FrameP rd s t ∧
      (∀ m, m < 4 → block (t.readBits rd) m = if m = k then s.readX rs1 else block (s.readBits rd) m) ∧
      t.readDeg rd = degree (t.readBits rd).toNat) ∧
    (4 ≤ k → ∃ t, exec (.psetb rd rs1 k) s = .next t ∧
      FaultEntered .blockIndexRange (encode (.psetb rd rs1 k)) s t)

/-- R120 to R122: PDEG, PSIZE and PNUB read the degree, the size and the number of used blocks. The values are read as
numbers in states whose cached degrees are right (the invariant DegreeInvariantIsKept). -/
def Obligations.QueriesReadTheDegree : Prop :=
  (∀ (rd : XReg) (rs1 : PReg) (s : State), HasRow (.pdeg rd rs1) 0x15 .r2 ∧
    ∃ t, exec (.pdeg rd rs1) s = .next t ∧ FrameX (some rd) s t ∧
      (DegreeInv s → (t.readX rd).toInt = s.readDeg rs1 ∧ s.readDeg rs1 = degree (s.readBits rs1).toNat)) ∧
  (∀ (rd : XReg) (rs1 : PReg) (s : State), HasRow (.psize rd rs1) 0x16 .r2 ∧
    ∃ t, exec (.psize rd rs1) s = .next t ∧ FrameX (some rd) s t ∧
      (DegreeInv s → ((t.readX rd).toNat : Int) = s.readDeg rs1 + 1)) ∧
  (∀ (rd : XReg) (rs1 : PReg) (s : State), HasRow (.pnub rd rs1) 0x17 .r2 ∧
    ∃ t, exec (.pnub rd rs1) s = .next t ∧ FrameX (some rd) s t ∧
      (DegreeInv s →
        ((t.readX rd).toNat : Int) = (if s.readDeg rs1 = -1 then 0 else s.readDeg rs1 / 64 + 1) ∧
        (s.readBits rs1).toNat < 2 ^ (64 * (t.readX rd).toNat)))

/-- R123 to R125: PXOR, PAND and POR over all coefficients, the degree recomputed; POR's is the larger of the two. -/
def Obligations.BitwiseCommandsCombineCoefficients : Prop :=
  (∀ (rd rs1 rs2 : PReg) (s : State), HasRow (.pxor rd rs1 rs2) 0x18 .r ∧
    ∃ t, exec (.pxor rd rs1 rs2) s = .next t ∧ FrameP rd s t ∧
      HoldsPoly t rd (s.readBits rs1 ^^^ s.readBits rs2)) ∧
  (∀ (rd rs1 rs2 : PReg) (s : State), HasRow (.pand rd rs1 rs2) 0x19 .r ∧
    ∃ t, exec (.pand rd rs1 rs2) s = .next t ∧ FrameP rd s t ∧
      HoldsPoly t rd (s.readBits rs1 &&& s.readBits rs2)) ∧
  (∀ (rd rs1 rs2 : PReg) (s : State), HasRow (.por rd rs1 rs2) 0x1A .r ∧
    ∃ t, exec (.por rd rs1 rs2) s = .next t ∧ FrameP rd s t ∧
      HoldsPoly t rd (s.readBits rs1 ||| s.readBits rs2) ∧
      t.readDeg rd = max (degree (s.readBits rs1).toNat) (degree (s.readBits rs2).toNat))

/-! ### Shifts -/

/-- R143 to R145: PSLLI and PSLL write the left-shift datapath's result and set OVF exactly when a ≠ 0 and
deg(a) + i ≥ 256, the amount taken as an unbounded integer. -/
def Obligations.LeftShiftsTruncateAndFlag : Prop :=
  (∀ (rd rs1 : PReg) (n : Nat) (s : State), HasRow (.pslli rd rs1 n) 0x1C .i ∧
    ∃ t, exec (.pslli rd rs1 n) s = .next t ∧ FramePOvf rd s t ∧ HoldsPoly t rd (shl (s.readBits rs1) n) ∧
      (t.ovf = true ↔ s.ovf = true ∨
        (s.readBits rs1 ≠ 0 ∧ 256 ≤ degree (s.readBits rs1).toNat + (n : Int)))) ∧
  (∀ (rd rs1 : PReg) (rs2 : XReg) (s : State), HasRow (.psll rd rs1 rs2) 0x1E .r ∧
    ∃ t, exec (.psll rd rs1 rs2) s = .next t ∧ FramePOvf rd s t ∧
      HoldsPoly t rd (shl (s.readBits rs1) (s.readX rs2).toNat) ∧
      (t.ovf = true ↔ s.ovf = true ∨
        (s.readBits rs1 ≠ 0 ∧ 256 ≤ degree (s.readBits rs1).toNat + ((s.readX rs2).toNat : Int))))

/-- R147 to R149: PSRLI and PSRL write the right-shift datapath's result and no flag; the degree falls by the amount, or
is -1. -/
def Obligations.RightShiftsDropLowCoefficients : Prop :=
  (∀ (rd rs1 : PReg) (n : Nat) (s : State), HasRow (.psrli rd rs1 n) 0x1D .i ∧
    ∃ t, exec (.psrli rd rs1 n) s = .next t ∧ FrameP rd s t ∧ HoldsPoly t rd (shr (s.readBits rs1) n) ∧
      t.readDeg rd = if (n : Int) ≤ degree (s.readBits rs1).toNat then degree (s.readBits rs1).toNat - n else -1) ∧
  (∀ (rd rs1 : PReg) (rs2 : XReg) (s : State), HasRow (.psrl rd rs1 rs2) 0x1F .r ∧
    ∃ t, exec (.psrl rd rs1 rs2) s = .next t ∧ FrameP rd s t ∧
      HoldsPoly t rd (shr (s.readBits rs1) (s.readX rs2).toNat) ∧
      t.readDeg rd = if ((s.readX rs2).toNat : Int) ≤ degree (s.readBits rs1).toNat
        then degree (s.readBits rs1).toNat - ((s.readX rs2).toNat : Int) else -1)

/-- The block datapaths are the shifts: shl(a, i) = trunc_256(a << i) and shr(a, i) = a >> i, for every amount (the
spec's own inference in 44_shift.md). -/
def Obligations.ShiftDatapathsAreTheShifts : Prop :=
  (∀ (a : Coeffs) (i : Nat), shl a i = a <<< i) ∧ (∀ (a : Coeffs) (i : Nat), shr a i = a >>> i)

/-- In contract a left shift then a right shift by the same amount gives the polynomial back, and OVF is untouched (the
source's round trip, 44_shift.md and 95_test_vectors.md). -/
def Obligations.ShiftRoundTripInContract : Prop :=
  ∀ (rd re rs1 : PReg) (n : Nat) (s t u : State), degree (s.readBits rs1).toNat + (n : Int) < 256 →
    exec (.pslli rd rs1 n) s = .next t → exec (.psrli re rd n) t = .next u →
    u.readBits re = s.readBits rs1 ∧ u.ovf = s.ovf

/-! ### The product -/

/-- The reference product's coefficients: bit k of clmul(a, b) is the XOR, over i + j = k, of bit i of a and bit j of b
(00_scope.md, the source's naive multiplier). -/
def Obligations.ClmulXorsThePairs : Prop :=
  ∀ a b k : Nat, (clmul a b).testBit k =
    (List.range (k + 1)).foldl (fun acc i => acc ^^ (a.testBit i && b.testBit (k - i))) false

/-- Degrees add in the reference product (the spec's own inference in 00_scope.md). -/
def Obligations.ClmulAddsDegrees : Prop :=
  ∀ a b : Nat, a ≠ 0 → b ≠ 0 → degree (clmul a b) = degree a + degree b

/-- The algebra of the reference product that 00_scope.md lists. -/
def Obligations.ClmulIsARingProduct : Prop :=
  (∀ a b : Nat, clmul a b = clmul b a) ∧
  (∀ a b c : Nat, clmul (clmul a b) c = clmul a (clmul b c)) ∧
  (∀ a b c : Nat, clmul a (b ^^^ c) = clmul a b ^^^ clmul a c) ∧
  (∀ a : Nat, clmul 1 a = a ∧ clmul 0 a = 0)

/-- R160, R161: PMUL writes the product truncated to 256 bits and sets OVF exactly when both operands are nonzero and
their degrees sum to 256 or more. -/
def Obligations.PmulWritesTheTruncatedProduct : Prop :=
  ∀ (rd rs1 rs2 : PReg) (s : State), HasRow (.pmul rd rs1 rs2) 0x20 .r ∧
    ∃ t, exec (.pmul rd rs1 rs2) s = .next t ∧ FramePOvf rd s t ∧
      (t.readBits rd).toNat = clmul (s.readBits rs1).toNat (s.readBits rs2).toNat % 2 ^ 256 ∧
      t.readDeg rd = degree (t.readBits rd).toNat ∧
      (t.ovf = true ↔ s.ovf = true ∨ (s.readBits rs1 ≠ 0 ∧ s.readBits rs2 ≠ 0 ∧
        256 ≤ degree (s.readBits rs1).toNat + degree (s.readBits rs2).toNat))

/-- The recursive Karatsuba datapath computes the truncated product, for every pair of 256-bit operands (the spec's own
inference in 45_multiply.md; log 18). -/
def Obligations.KaratsubaDatapathIsTheProduct : Prop :=
  ∀ a b : Coeffs, kmul a b = truncProduct a b

/-- The properties of multiplication the source lists (45_multiply.md): commutative, zero and one, and an exact degree in
contract. -/
def Obligations.MultiplicationProperties : Prop :=
  (∀ (rd rs1 rs2 : PReg) (s : State), exec (.pmul rd rs1 rs2) s = exec (.pmul rd rs2 rs1) s) ∧
  (∀ (rd rs1 rs2 : PReg) (s t : State), s.readBits rs1 = 0 → exec (.pmul rd rs1 rs2) s = .next t →
    HoldsPoly t rd 0 ∧ t.ovf = s.ovf) ∧
  (∀ (rd rs1 rs2 : PReg) (s t : State), s.readBits rs1 = 1 → exec (.pmul rd rs1 rs2) s = .next t →
    HoldsPoly t rd (s.readBits rs2) ∧ t.ovf = s.ovf) ∧
  (∀ (rd rs1 rs2 : PReg) (s t : State), s.readBits rs1 ≠ 0 → s.readBits rs2 ≠ 0 →
    degree (s.readBits rs1).toNat + degree (s.readBits rs2).toNat < 256 → exec (.pmul rd rs1 rs2) s = .next t →
    t.readDeg rd = degree (s.readBits rs1).toNat + degree (s.readBits rs2).toNat ∧
      (t.readBits rd).toNat = clmul (s.readBits rs1).toNat (s.readBits rs2).toNat)

/-- Under the other multiply policy a product beyond the capacity is any value, with its degree right and OVF set; in
contract the product is exact and OVF untouched, and no other register changes (45_multiply.md; the model's default is
truncate, log 4). -/
def Obligations.AnyValuePolicyConfinesTheDraw : Prop :=
  ∀ (rd rs1 rs2 : PReg) (s : State), ∃ t, mulWith .anyValue rd rs1 rs2 s = .next t ∧
    SameXBut none s t ∧ SamePBut (some rd) s t ∧ t.z = s.z ∧ SameError s t ∧ SameOutside s t ∧
    t.cmdcnt = s.cmdcnt + 1#32 ∧ t.readDeg rd = degree (t.readBits rd).toNat ∧
    ((s.readBits rs1 = 0 ∨ s.readBits rs2 = 0 ∨
        degree (s.readBits rs1).toNat + degree (s.readBits rs2).toNat < 256) →
      (t.readBits rd).toNat = clmul (s.readBits rs1).toNat (s.readBits rs2).toNat ∧ t.ovf = s.ovf) ∧
    (s.readBits rs1 ≠ 0 → s.readBits rs2 ≠ 0 →
      256 ≤ degree (s.readBits rs1).toNat + degree (s.readBits rs2).toNat → t.ovf = true)

/-! ### Control -/

/-- R170 to R172: NOP changes nothing but CMDCNT; XLI places a halfword and zeroes the rest; XLK replaces a halfword and
keeps the rest. -/
def Obligations.ConstantsAreLoadedByHalfwords : Prop :=
  (encode .nop = 0x04000000#32 ∧ HasRow .nop 0x01 .n ∧
    ∀ s : State, ∃ t, exec .nop s = .next t ∧ FrameX none s t) ∧
  (∀ (rd : XReg) (imm16 hw : Nat) (s : State), WellFormed (.xli rd imm16 hw) →
    HasRow (.xli rd imm16 hw) 0x0C .u ∧
    ∃ t, exec (.xli rd imm16 hw) s = .next t ∧ FrameX (some rd) s t ∧
      (t.readX rd).toNat = imm16 * 2 ^ (16 * hw)) ∧
  (∀ (rd : XReg) (imm16 hw : Nat) (s : State), WellFormed (.xlk rd imm16 hw) →
    HasRow (.xlk rd imm16 hw) 0x0D .u ∧
    ∃ t, exec (.xlk rd imm16 hw) s = .next t ∧ FrameX (some rd) s t ∧
      ∀ j, j < 64 → (t.readX rd).getLsbD j =
        if 16 * hw ≤ j ∧ j < 16 * hw + 16 then imm16.testBit (j - 16 * hw) else (s.readX rd).getLsbD j)

/-- R79: each pseudo-command's expansion does what its reason says: sum, difference, copy, clear, small constant and
64-bit constant in four words. -/
def Obligations.PseudoCommandsDoWhatTheySay : Prop :=
  (∀ (pd pa pb : PReg) (s : State),
    expandPseudo (.padd pd pa pb) = [.pxor pd pa pb] ∧ expandPseudo (.psub pd pa pb) = [.pxor pd pa pb] ∧
    ∃ t, runCommands (expandPseudo (.padd pd pa pb)) s = .next t ∧
      HoldsPoly t pd (s.readBits pa ^^^ s.readBits pb)) ∧
  (∀ (pd ps : PReg) (s : State), expandPseudo (.pmov pd ps) = [.por pd ps ps] ∧
    ∃ t, runCommands (expandPseudo (.pmov pd ps)) s = .next t ∧
    HoldsPoly t pd (s.readBits ps) ∧ t.cmdcnt = s.cmdcnt + 1#32) ∧
  (∀ (pd : PReg) (s : State), expandPseudo (.pclr pd) = [.pxor pd pd pd] ∧
    ∃ t, runCommands (expandPseudo (.pclr pd)) s = .next t ∧
    HoldsPoly t pd 0 ∧ t.readDeg pd = -1 ∧ t.cmdcnt = s.cmdcnt + 1#32) ∧
  (∀ (xd : XReg) (n : Nat) (s : State), n < 2 ^ 16 → expandPseudo (.li xd n) = [.xli xd n 0] ∧
    ∃ t, runCommands (expandPseudo (.li xd n)) s = .next t ∧ (t.readX xd).toNat = n ∧ t.cmdcnt = s.cmdcnt + 1#32) ∧
  (∀ (xd : XReg) (v : Word) (s : State),
    expandPseudo (.li64 xd v) = [.xli xd (v.toNat / 2 ^ 48 % 2 ^ 16) 3, .xlk xd (v.toNat / 2 ^ 32 % 2 ^ 16) 2,
      .xlk xd (v.toNat / 2 ^ 16 % 2 ^ 16) 1, .xlk xd (v.toNat % 2 ^ 16) 0] ∧
    ∃ t, runCommands (expandPseudo (.li64 xd v)) s = .next t ∧
    t.readX xd = v ∧ SameXBut (some xd) s t ∧ SamePBut none s t ∧ t.cmdcnt = s.cmdcnt + 4#32)

/-! ### The host window -/

/-- R52: only 8-byte accesses at multiples of 8 that the map lists are OK; every other access gets BUS_ERROR, and
nothing but the response changes. -/
def Obligations.OtherAccessesGetBusError : Prop :=
  ∀ (off width : Nat) (d : Word) (s : State),
    (width ≠ 8 ∨ off % 8 ≠ 0 ∨ (0x030 ≤ off ∧ off < 0x100) ∨ (0x180 ≤ off ∧ off < 0x200) ∨ 0x480 ≤ off →
      performAccess (.read off width) s = s.respond .busError ∧
      performAccess (.write off width d) s = s.respond .busError) ∧
    (¬ (width ≠ 8 ∨ off % 8 ≠ 0 ∨ (0x030 ≤ off ∧ off < 0x100) ∨ (0x180 ≤ off ∧ off < 0x200) ∨ 0x480 ≤ off) →
      (∃ v, (performAccess (.read off width) s).outputs = s.outputs ++ [.data v]) ∧
      (performAccess (.write off width d) s).outputs = s.outputs ++ [.written])

/-- What a read at each offset of the map returns; reads change no register (20_memory.md, section 1). STATUS is
StatusWordShowsTheFields. -/
def Obligations.WindowReadsReturnTheRegisters : Prop :=
  (∀ s : State, performAccess (.read 0x000 8) s = s.respond (.data 0x0000000147463250#64) ∧
    performAccess (.read 0x008 8) s = s.respond (.data 0#64) ∧
    performAccess (.read 0x018 8) s = s.respond (.data (if s.errie then 1#64 else 0#64))) ∧
  (∀ s : State, ∃ v w, performAccess (.read 0x020 8) s = s.respond (.data v) ∧ v.toNat = s.errcmd.toNat ∧
    performAccess (.read 0x028 8) s = s.respond (.data w) ∧ w.toNat = s.cmdcnt.toNat) ∧
  (∀ (s : State) (n : XReg), performAccess (.read (0x100 + 8 * n) 8) s = s.respond (.data (s.readX n))) ∧
  (∀ (s : State) (n : PReg) (k : Fin 4), ∃ v,
    performAccess (.read (0x200 + 0x20 * n + 8 * k) 8) s = s.respond (.data v) ∧
    v.toNat = (s.readBits n).toNat / 2 ^ (64 * (k : Nat)) % 2 ^ 64) ∧
  (∀ (s : State) (n : PReg), DegreeInv s → ∃ v,
    performAccess (.read (0x400 + 8 * n) 8) s = s.respond (.data v) ∧ v.toInt = s.readDeg n)

/-- A write to a read-only register is ignored; a write to Xn or Pn.BLKk replaces it, and the degree is updated in the
same access (20_memory.md, section 1). Writes to CTRL and CMD are CtrlWritesActOnce and CmdWritesQueueTheWord. -/
def Obligations.WindowWritesReachTheRegisters : Prop :=
  (∀ (s : State) (d : Word), performAccess (.write 0x000 8 d) s = s.respond .written ∧
    performAccess (.write 0x010 8 d) s = s.respond .written ∧
    performAccess (.write 0x020 8 d) s = s.respond .written ∧
    performAccess (.write 0x028 8 d) s = s.respond .written) ∧
  (∀ (s : State) (d : Word) (n : PReg), performAccess (.write (0x400 + 8 * n) 8 d) s = s.respond .written) ∧
  (∀ (s : State) (d : Word) (n : XReg),
    performAccess (.write (0x100 + 8 * n) 8 d) s = (s.setX n d).respond .written) ∧
  (∀ (s : State) (d : Word) (n : PReg) (k : Fin 4), ∃ v,
    performAccess (.write (0x200 + 0x20 * n + 8 * k) 8 d) s = (s.setP n v).respond .written ∧
    (∀ m, m < 4 → block v m = if m = k then d else block (s.readBits n) m) ∧
    HoldsPoly (s.setP n v) n v)

/-- R36: one CTRL write updates ERRIE, and CLRERR and CLROVF act if their bits are 1; nothing else changes. A read
returns ERRIE alone. -/
def Obligations.CtrlWritesActOnce : Prop :=
  ∀ (s : State) (d : Word), ∃ t, performAccess (.write 0x018 8 d) s = t.respond .written ∧
    t.errie = d.getLsbD 0 ∧
    (d.getLsbD 8 = true → t.err = false ∧ t.cause = .none ∧ t.errcmd = 0#32) ∧
    (d.getLsbD 8 = false → SameError s t) ∧
    (d.getLsbD 9 = true → t.ovf = false) ∧ (d.getLsbD 9 = false → t.ovf = s.ovf) ∧
    SameXBut none s t ∧ SamePBut none s t ∧ t.z = s.z ∧ t.cmdcnt = s.cmdcnt ∧ t.cmdq = s.cmdq ∧
    t.inReset = s.inReset ∧ t.inputs = s.inputs ∧ t.outputs = s.outputs ∧ t.draws = s.draws ∧
    (∀ j, j < 64 → t.ctrlWord.getLsbD j = (decide (j = 0) && d.getLsbD 0))

/-- The STATUS word of 10_state.md, section 5, bit by bit; BUSY is 0 once CMDQ is empty (its value before that is a draw,
log 3). With CMDQ empty the fields are the state's own; with commands outstanding they are those the commands will leave (log
20). A read changes no register. -/
def Obligations.StatusWordShowsTheFields : Prop :=
  ∀ s : State, (∃ n, performAccess (.read 0x010 8) s = (s.draw n).respond (.data s.statusWord)) ∧
    (s.cmdq = [] → s.settled = s ∧ s.statusWord.getLsbD 0 = false) ∧
    s.statusWord.getLsbD 1 = s.settled.err ∧ s.statusWord.getLsbD 2 = s.settled.ovf ∧
    s.statusWord.getLsbD 3 = s.settled.z ∧
    (∀ j, 4 ≤ j → j < 8 → s.statusWord.getLsbD j = false) ∧
    s.statusWord.toNat / 2 ^ 8 % 16 = (match s.settled.cause with
      | .none => 0 | .illegalCommand => 1 | .bitIndexRange => 2 | .blockIndexRange => 3) ∧
    (∀ j, 12 ≤ j → s.statusWord.getLsbD j = false)

/-- R190: irq is ERR and ERRIE: raised by a fault if enabled, cleared by CLRERR or by writing ERRIE = 0. -/
def Obligations.IrqIsErrAndErrie : Prop :=
  (∀ s : State, s.irq = true ↔ s.err = true ∧ s.errie = true) ∧
  (∀ (s : State) (c : Cause) (w : Command), (s.enterFault c w).irq = s.errie) ∧
  (∀ (s : State) (d : Word), (s.writeCtrl d).irq = (s.err && !d.getLsbD 8 && d.getLsbD 0)) ∧
  (∀ (i : Instr) (s t : State), rangeFault i = none → exec i s = .next t → t.irq = s.irq)

/-- R58: a CMD write puts data[31:0] at the tail of CMDQ; while CMDQ is full the write waits and the sequencer moves, so
no word is dropped; once there is room the write may perform; commands leave CMDQ in order, from its head. -/
def Obligations.CmdWritesQueueTheWord : Prop :=
  (∀ (s : State) (d : Word) (rest : List Input), s.inReset = false →
    s.inputs = .access (.write 0x008 8 d) :: rest → s.turn = some .host →
    ∃ t, step s = .next t ∧ t.cmdq = s.cmdq ++ [BitVec.ofNat 32 d.toNat] ∧ t.inputs = rest ∧
      t.outputs = s.outputs ++ [.written] ∧ SameXBut none s t ∧ SamePBut none s t ∧ SameError s t ∧
      t.ovf = s.ovf ∧ t.z = s.z ∧ t.errie = s.errie ∧ t.cmdcnt = s.cmdcnt ∧ t.inReset = false ∧ t.draws = s.draws) ∧
  (∀ (s : State) (d : Word) (rest : List Input), s.inReset = false →
    s.inputs = .access (.write 0x008 8 d) :: rest → Config.cmdqDepth ≤ s.cmdq.length →
    s.turn = some .sequencer) ∧
  (∀ (s : State) (d : Word) (rest : List Input), s.inReset = false →
    s.inputs = .access (.write 0x008 8 d) :: rest → s.cmdq.length < Config.cmdqDepth → s.hostReady = true) ∧
  (∀ (s : State) (w : Command) (q : List Command), s.turn = some .sequencer → s.cmdq = w :: q →
    ∃ t, step s = .next t ∧ t.cmdq = q ∧ t.inputs = s.inputs)

/-- A host access to an offset other than CMD and STATUS performs only once CMDQ is empty; until then the sequencer
moves (20_memory.md; log 6). -/
def Obligations.OtherAccessesWaitForTheQueue : Prop :=
  (∀ (s : State) (a : HostAccess) (rest : List Input), s.inReset = false → s.inputs = .access a :: rest →
    accessOffset a ≠ 0x008 → accessOffset a ≠ 0x010 → s.turn = some .host → s.cmdq = []) ∧
  (∀ (s : State) (a : HostAccess) (rest : List Input), s.inReset = false → s.inputs = .access a :: rest →
    accessOffset a ≠ 0x008 → accessOffset a ≠ 0x010 → s.cmdq ≠ [] → s.turn = some .sequencer)

/-- Where the sequencer and a CMD write could both move, the order makes no difference: both orders end in the same state
(the consequences 20_memory.md draws from its consistency model; the choice itself is free, log 2). -/
def Obligations.CommandsAndSubmissionsCommute : Prop :=
  ∀ (s t u : State) (d : Word) (rest : List Input), s.inReset = false → s.cmdq ≠ [] →
    s.inputs = .access (.write 0x008 8 d) :: rest →
    sequencerStep s = .next t → hostStep s = .next u →
    ∃ v, hostStep t = .next v ∧ sequencerStep u = .next v

/-- Every outstanding command completes or is discarded and every waiting access performs, within as many steps as there
is work left; each access outside reset gets one response (70_reset_and_hazards.md). -/
def Obligations.OutstandingWorkIsFinished : Prop :=
  ∀ s : State, ResetInv s →
    ∃ n t, n ≤ outstanding s ∧ Host.Core.run Sys2Proof.core n s = .next t ∧ t.cmdq = [] ∧ t.inputs = [] ∧
      ∃ rs, t.outputs = s.outputs ++ rs ∧ rs.length = answers s.inReset s.inputs

/-- Where a coefficient stands in the window: coefficient i of Pn is bit i mod 8 of byte (i mod 64) div 8 of the register
at 0x200 + 0x20·n + 8·(i div 64), little-endian (the spec's own inference in 20_memory.md). -/
def Obligations.CoefficientsStandInTheirBytes : Prop :=
  ∀ (s : State) (n : PReg) (i : Nat), i < 256 →
    ∃ b, s.windowByte (0x200 + 0x20 * n + 8 * (i / 64) + i % 64 / 8) = some b ∧
      b.getLsbD (i % 8) = (s.readBits n).getLsbD i

/-- A step at the host's turn performs the first waiting access whole, outside reset, and an access gives one response.
The turn is the host's once CMDQ is empty, and while commands wait if the access may perform and the schedule says so
(20_memory.md; logs 2, 6). -/
def Obligations.StepPerformsTheHostsAccess : Prop :=
  (∀ (s : State) (a : HostAccess) (rest : List Input), s.inReset = false → s.inputs = .access a :: rest →
    s.turn = some .host →
    step s = .next (performAccess a { s.takeTurn with inputs := rest }) ∧
      ∃ r, (performAccess a { s.takeTurn with inputs := rest }).outputs = s.outputs ++ [r]) ∧
  (∀ (s : State) (a : HostAccess) (rest : List Input), s.inReset = false → s.inputs = .access a :: rest →
    s.cmdq = [] → s.turn = some .host) ∧
  (∀ (s : State) (a : HostAccess) (rest : List Input), s.inReset = false → s.inputs = .access a :: rest →
    s.cmdq ≠ [] → (s.turn = some .host ↔ s.accessReady a = true ∧ s.sched.head? = some .host)) ∧
  (∀ (s : State) (a : HostAccess), accessOffset a = 0x010 → s.accessReady a = true)

/-- Of what the host can read, BUSY alone depends on timing: a STATUS read before a command runs and one after it return the
same ERR, OVF, Z and CAUSE, and no other register can be read while commands wait (70_reset_and_hazards.md and the last
paragraph of 20_memory.md, section 4; the reading of STATUS is the model's, log 20). -/
def Obligations.OnlyBusyDependsOnTiming : Prop :=
  (∀ s t : State, s.turn = some .sequencer → step s = .next t →
    ∃ m n v w, performAccess (.read 0x010 8) s = (s.draw m).respond (.data v) ∧
      performAccess (.read 0x010 8) t = (t.draw n).respond (.data w) ∧
      ∀ j, 1 ≤ j → w.getLsbD j = v.getLsbD j) ∧
  (∀ (s : State) (off width : Nat) (r : WinReg), accessReg off width = some r → r ≠ .cmd → r ≠ .status →
    s.cmdq ≠ [] → s.accessReady (.read off width) = false)
end

