-- ==== Sys2Proof/Laws/Arith.lean ====
section
/-! SUPPORT. One lemma per arithmetic operation, saying bit by bit or as a number what it computes. -/

namespace Sys2Proof.Machine

/-! ### Degree -/

theorem degree_zero : degree 0 = -1 := rfl

theorem degree_of_ne {v : Nat} (h : v ≠ 0) : degree v = (Nat.log2 v : Int) := by simp [degree, h]

/-- A degree is at least -1 (R24). -/
theorem neg_one_le_degree (v : Nat) : -1 ≤ degree v := by
  unfold degree; split <;> omega

/-- A value below 2^n has a degree below n. -/
theorem degree_lt {v n : Nat} (h : v < 2 ^ n) : degree v < n := by
  unfold degree
  split
  · omega
  · next hv => exact_mod_cast (Nat.log2_lt hv).2 h

theorem degree_eq_neg_one {v : Nat} : degree v = -1 ↔ v = 0 := by
  unfold degree; split <;> simp_all

/-- size(v) = deg(v) + 1 (R10). -/
theorem bitSize_eq (v : Nat) : (bitSize v : Int) = degree v + 1 := by
  unfold bitSize degree; split <;> simp

/-- A value is below 2^size. -/
theorem lt_two_pow_bitSize (v : Nat) : v < 2 ^ bitSize v := by
  unfold bitSize
  split
  · next h => simp [h]
  · exact Nat.lt_log2_self

/-- The highest set bit is the one the degree names. -/
theorem degree_eq_of_bounds {v n : Nat} (lo : 2 ^ n ≤ v) (hi : v < 2 ^ (n + 1)) : degree v = n := by
  have hv : v ≠ 0 := by have := Nat.two_pow_pos n; omega
  rw [degree_of_ne hv, (Nat.log2_eq_iff hv).2 ⟨lo, hi⟩]

/-- `floorLog2` of a nonzero word: 2^r ≤ v < 2^(r+1). -/
theorem floorLog2_bounds {w : Nat} {v : BitVec w} (h : v ≠ 0) :
    2 ^ floorLog2 v ≤ v.toNat ∧ v.toNat < 2 ^ (floorLog2 v + 1) := by
  have hn : v.toNat ≠ 0 := by simpa [BitVec.toNat_eq] using h
  rw [floorLog2, if_neg h]
  exact (Nat.log2_eq_iff hn).1 rfl

theorem floorLog2_zero {w : Nat} : floorLog2 (0 : BitVec w) = 0 := by simp [floorLog2]

/-- `floorLog2` of a W-bit word is below W for W > 0. -/
theorem floorLog2_lt {w : Nat} (hw : 0 < w) (v : BitVec w) : floorLog2 v < w := by
  by_cases h : v = 0
  · simpa [floorLog2, h] using hw
  · have := (floorLog2_bounds h).1
    exact (Nat.pow_lt_pow_iff_right (by decide)).1 (Nat.lt_of_le_of_lt this v.isLt)

/-! ### Blocks -/

/-- A block's bits are the value's bits (R8). -/
theorem getLsbD_block (v : Coeffs) (k j : Nat) : (block v k).getLsbD j = (decide (j < 64) && v.getLsbD (64 * k + j)) := by
  simp [block]

/-- A block as a number. -/
theorem toNat_block (v : Coeffs) (k : Nat) : (block v k).toNat = v.toNat / 2 ^ (64 * k) % 2 ^ 64 := by
  simp [block, Nat.shiftRight_eq_div_pow]

/-- A block above the fourth is 0 (R140). -/
theorem block_of_ge (v : Coeffs) {k : Nat} (h : 4 ≤ k) : block v k = 0 := by
  apply BitVec.eq_of_getLsbD_eq
  intro j hj
  rw [getLsbD_block, BitVec.getLsbD_of_ge v _ (by omega)]
  simp

/-- The bits of a value with one block replaced (R54, R118). -/
theorem getLsbD_setBlock (v : Coeffs) (k : Nat) (b : Word) (i : Nat) (hi : i < 256) :
    (setBlock v k b).getLsbD i = if 64 * k ≤ i ∧ i < 64 * k + 64 then b.getLsbD (i - 64 * k) else v.getLsbD i := by
  simp only [setBlock, BitVec.getLsbD_or, BitVec.getLsbD_and, BitVec.getLsbD_not, BitVec.getLsbD_shiftLeft,
    BitVec.getLsbD_setWidth, BitVec.getLsbD_allOnes]
  by_cases h1 : 64 * k ≤ i
  · by_cases h2 : i < 64 * k + 64
    · have h3 : i - 64 * k < 64 := by omega
      have h4 : i - 64 * k < 256 := by omega
      have h5 : ¬ i < 64 * k := by omega
      simp [hi, h1, h2, h3, h4, h5]
    · have h3 : ¬ i - 64 * k < 64 := by omega
      have h4 : b.getLsbD (i - 64 * k) = false := BitVec.getLsbD_of_ge b _ (by omega)
      simp [hi, h2, h3, h4]
  · have h5 : i < 64 * k := by omega
    simp [hi, h5, h1]

/-- The replaced block reads back (R118). -/
theorem block_setBlock_same (v : Coeffs) {k : Nat} (hk : k < 4) (b : Word) : block (setBlock v k b) k = b := by
  apply BitVec.eq_of_getLsbD_eq
  intro j hj
  rw [getLsbD_block, getLsbD_setBlock v k b _ (by omega)]
  have h : 64 * k ≤ 64 * k + j ∧ 64 * k + j < 64 * k + 64 := by omega
  simp [hj]

/-- Every other block is kept (R118). -/
theorem block_setBlock_ne (v : Coeffs) {k m : Nat} (hm : m < 4) (b : Word) (h : m ≠ k) :
    block (setBlock v k b) m = block v m := by
  apply BitVec.eq_of_getLsbD_eq
  intro j hj
  rw [getLsbD_block, getLsbD_block, getLsbD_setBlock v k b _ (by omega)]
  have : ¬ (64 * k ≤ 64 * m + j ∧ 64 * m + j < 64 * k + 64) := by omega
  simp [hj, this]

/-- Two values with the same four blocks are equal (R8). -/
theorem eq_of_blocks {u v : Coeffs} (h : ∀ k, k < 4 → block u k = block v k) : u = v := by
  apply BitVec.eq_of_getLsbD_eq
  intro i hi
  have := congrArg (fun b => b.getLsbD (i % 64)) (h (i / 64) (by omega))
  simp only [getLsbD_block] at this
  have h1 : i % 64 < 64 := Nat.mod_lt _ (by decide)
  have h2 : 64 * (i / 64) + i % 64 = i := Nat.div_add_mod i 64
  simpa [h1, h2] using this

/-- The bits of a value given by its blocks (R8). -/
theorem getLsbD_ofBlocks (b3 b2 b1 b0 : Word) (i : Nat) :
    (ofBlocks b3 b2 b1 b0).getLsbD i =
      if i < 64 then b0.getLsbD i else if i < 128 then b1.getLsbD (i - 64)
      else if i < 192 then b2.getLsbD (i - 128) else b3.getLsbD (i - 192) := by
  simp only [ofBlocks, BitVec.getLsbD_append]
  by_cases h0 : i < 64
  · simp [h0]
  · by_cases h1 : i < 128
    · have : i - 64 < 64 := by omega
      simp [h0, h1, this]
    · by_cases h2 : i < 192
      · have a : ¬ i - 64 < 64 := by omega
        have b : i - 128 < 64 := by omega
        simp [h0, h1, h2, a, b, Nat.sub_sub]
      · have a : ¬ i - 64 < 64 := by omega
        have b : ¬ i - 128 < 64 := by omega
        simp [h0, h1, h2, a, b, Nat.sub_sub]

/-- The coefficient PBIT reads is the value's bit (R8, R119). -/
theorem coefficient_eq (v : Coeffs) (i : Nat) : coefficient v i = v.getLsbD i := by
  have h1 : i % 64 < 64 := Nat.mod_lt _ (by decide)
  simp only [coefficient, getLsbD_block, Nat.div_add_mod]
  simp [h1]

/-- PFROMB's value, block by block (R116). -/
theorem block_fromBlocks (v : Coeffs) (start : Nat) {count : Nat} (hc : count ≤ 4) {j : Nat} (hj : j < 4) :
    block (fromBlocks v start count) j = if j < count then block v (start + j) else 0 := by
  induction count with
  | zero => simp [fromBlocks, block]
  | succ n ih =>
    by_cases h : j = n
    · subst h; simp [fromBlocks, block_setBlock_same _ hj]
    · rw [fromBlocks, block_setBlock_ne _ hj _ h, ih (by omega)]
      have : j < n ↔ j < n + 1 := by omega
      simp [this]

/-- The scan of R126 finds the highest set bit below its starting block. -/
theorem computeDegree_scan (v : Coeffs) (n : Nat) : computeDegree.scan v n = degree (v.toNat % 2 ^ (64 * n)) := by
  induction n with
  | zero => simp [computeDegree.scan, degree, Nat.mod_one]
  | succ k ih =>
    have split : v.toNat % 2 ^ (64 * (k + 1)) = (block v k).toNat * 2 ^ (64 * k) + v.toNat % 2 ^ (64 * k) := by
      have e : 64 * (k + 1) = 64 * k + 64 := by ring
      rw [toNat_block, e, pow_add, Nat.mod_mul]
      ring
    by_cases hb : block v k = 0
    · simp [computeDegree.scan, hb, ih, split]
    · have hlo := (floorLog2_bounds hb).1
      have hhi := (floorLog2_bounds hb).2
      have hmod : v.toNat % 2 ^ (64 * k) < 2 ^ (64 * k) := Nat.mod_lt _ (Nat.two_pow_pos _)
      have lo : 2 ^ (64 * k + floorLog2 (block v k)) ≤ v.toNat % 2 ^ (64 * (k + 1)) := by
        rw [split, pow_add]
        have := Nat.mul_le_mul_left (2 ^ (64 * k)) hlo
        rw [Nat.mul_comm _ (block v k).toNat] at this
        exact Nat.le_trans this (Nat.le_add_right _ _)
      have hi : v.toNat % 2 ^ (64 * (k + 1)) < 2 ^ (64 * k + floorLog2 (block v k) + 1) := by
        rw [split, show 64 * k + floorLog2 (block v k) + 1 = 64 * k + (floorLog2 (block v k) + 1) by ring, pow_add]
        have := Nat.mul_le_mul_left (2 ^ (64 * k)) (Nat.succ_le_of_lt hhi)
        have e : 2 ^ (64 * k) * ((block v k).toNat + 1) = (block v k).toNat * 2 ^ (64 * k) + 2 ^ (64 * k) := by ring
        simp only [Nat.succ_eq_add_one] at this
        omega
      rw [degree_eq_of_bounds lo hi, computeDegree.scan, if_pos hb]
      push_cast
      rfl

/-- Every write of a P register stores the degree of its value (R25, R126). -/
theorem computeDegree_eq (v : Coeffs) : computeDegree v = degree v.toNat := by
  rw [computeDegree, computeDegree_scan, Nat.mod_eq_of_lt (by simpa using v.isLt)]

/-- A degree of a 256-bit value is in -1..255 (R24). -/
theorem degree_range (v : Coeffs) : -1 ≤ degree v.toNat ∧ degree v.toNat ≤ 255 := by
  have := degree_lt (n := 256) v.isLt
  exact ⟨neg_one_le_degree _, by omega⟩

/-! ### Interleave -/

/-- A one-bit word. -/
theorem getLsbD_bitAt (n : Nat) (b : Bool) (pos i : Nat) (hi : i < n) :
    (bitAt n b pos).getLsbD i = (b && decide (i = pos)) := by
  cases b with
  | false => simp [bitAt]
  | true =>
    by_cases h : i = pos
    · subst h; simp [bitAt, hi]
    · by_cases h2 : i < pos
      · simp [bitAt, h2, h]
      · have : i - pos ≠ 0 := by omega
        simp [bitAt, hi, h, h2, this]

/-- The bits of the interleave loop after `n` turns. -/
theorem getLsbD_interleave_loop {w : Nat} (a b : BitVec w) (n i : Nat) (hi : i < 2 * w) :
    (interleave.loop a b n).getLsbD i =
      (decide (i < 2 * n) && if i % 2 = 0 then a.getLsbD (i / 2) else b.getLsbD (i / 2)) := by
  induction n with
  | zero => simp [interleave.loop]
  | succ n ih =>
    simp only [interleave.loop, BitVec.getLsbD_or, ih, getLsbD_bitAt _ _ _ _ hi]
    by_cases h0 : i = 2 * n
    · subst h0; simp
    · by_cases h1 : i = 2 * n + 1
      · subst h1
        have : (2 * n + 1) / 2 = n := by omega
        have : (2 * n + 1) % 2 = 1 := by omega
        simp [*]; omega
      · have : i < 2 * n ↔ i < 2 * (n + 1) := by omega
        simp [h0, h1, this]

/-- Interleave, bit by bit: even positions from a, odd positions from b (R100). -/
theorem getLsbD_interleave {w : Nat} (a b : BitVec w) (i : Nat) (hi : i < 2 * w) :
    (interleave a b).getLsbD i = if i % 2 = 0 then a.getLsbD (i / 2) else b.getLsbD (i / 2) := by
  rw [interleave, getLsbD_interleave_loop a b w i hi]
  simp [hi]

/-! ### The reference product -/

/-- Rows of bits that are 0 add nothing. -/
theorem clmul_rows_of_bitSize_le (a b : Nat) {n : Nat} (h : bitSize a ≤ n) : clmul.rows a b n = clmul a b := by
  induction n, h using Nat.le_induction with
  | base => rfl
  | succ n hn ih =>
    have : a.testBit n = false :=
      Nat.testBit_lt_two_pow (Nat.lt_of_lt_of_le (lt_two_pow_bitSize a) (Nat.pow_le_pow_right (by decide) hn))
    simp [clmul.rows, this, ih]

/-- The rows taken to any common length (R12). -/
theorem clmul_eq_rows (a b : Nat) {n : Nat} (h : a < 2 ^ n) : clmul a b = clmul.rows a b n := by
  refine (clmul_rows_of_bitSize_le a b ?_).symm
  unfold bitSize
  split
  · exact Nat.zero_le _
  · next ha => exact (Nat.log2_lt ha).2 h

/-- clmul distributes over XOR in its second argument (R12). -/
theorem clmul_xor_right (a b c : Nat) : clmul a (b ^^^ c) = clmul a b ^^^ clmul a c := by
  suffices h : ∀ n, clmul.rows a (b ^^^ c) n = clmul.rows a b n ^^^ clmul.rows a c n from h _
  intro n
  induction n with
  | zero => simp [clmul.rows]
  | succ n ih =>
    simp only [clmul.rows, ih]
    split
    · rw [Nat.shiftLeft_xor_distrib]; ac_rfl
    · simp

/-- clmul distributes over XOR in its first argument (R12). -/
theorem clmul_xor_left (a b c : Nat) : clmul (a ^^^ b) c = clmul a c ^^^ clmul b c := by
  have ha : a < 2 ^ (max (bitSize a) (bitSize b)) :=
    Nat.lt_of_lt_of_le (lt_two_pow_bitSize a) (Nat.pow_le_pow_right (by decide) (Nat.le_max_left _ _))
  have hb : b < 2 ^ (max (bitSize a) (bitSize b)) :=
    Nat.lt_of_lt_of_le (lt_two_pow_bitSize b) (Nat.pow_le_pow_right (by decide) (Nat.le_max_right _ _))
  rw [clmul_eq_rows _ c (Nat.xor_lt_two_pow ha hb), clmul_eq_rows _ c ha, clmul_eq_rows _ c hb]
  generalize max (bitSize a) (bitSize b) = n
  induction n with
  | zero => simp [clmul.rows]
  | succ n ih =>
    simp only [clmul.rows, ih, Nat.testBit_xor]
    cases a.testBit n <;> cases b.testBit n
    · simp
    · simp; ac_rfl
    · simp; ac_rfl
    · rw [show clmul.rows a c n ^^^ (if true = true then c <<< n else 0) ^^^
          (clmul.rows b c n ^^^ (if true = true then c <<< n else 0)) =
          clmul.rows a c n ^^^ clmul.rows b c n ^^^ (c <<< n ^^^ c <<< n) by simp only [if_true]; ac_rfl]
      simp

theorem clmul_zero_left (b : Nat) : clmul 0 b = 0 := rfl

theorem clmul_zero_right (a : Nat) : clmul a 0 = 0 := by
  suffices h : ∀ n, clmul.rows a 0 n = 0 from h _
  intro n; induction n with
  | zero => rfl
  | succ n ih => simp [clmul.rows, ih]

end Sys2Proof.Machine
end

