-- ==== Sys2Proof/Laws/Decode.lean ====
section
/-! SUPPORT. The numbers and fields of the words each format packs (spec/30_encoding.md R71, R72), and that a packed word
passes its format's mask. -/

namespace Sys2Proof

/-- Concatenation as a number: the high part above the low one (R9 `{a, b}`). -/
theorem toNat_append_add {m n : Nat} (x : BitVec m) (y : BitVec n) :
    (x ++ y).toNat = x.toNat * 2 ^ n + y.toNat := by
  rw [BitVec.toNat_append, ← Nat.shiftLeft_add_eq_or_of_lt y.isLt, Nat.shiftLeft_eq]

theorem toNat_regBits (r : Fin 16) : (regBits r).toNat = r := by
  simp [regBits]

/-- A field as a number (R71). -/
theorem field_eq (w : Command) (lo len : Nat) : field w lo len = w.toNat / 2 ^ lo % 2 ^ len := by
  simp [field, Nat.shiftRight_eq_div_pow]

theorem toNat_packN (op : Nat) : (packN op).toNat = op % 64 * 2 ^ 26 := by
  show BitVec.toNat (w := 6 + 26) (_ ++ _) = _
  simp only [toNat_append_add]
  simp

theorem toNat_packR (op : Nat) (rd rs1 rs2 : Fin 16) :
    (packR op rd rs1 rs2).toNat = op % 64 * 2 ^ 26 + rd * 2 ^ 22 + rs1 * 2 ^ 18 + rs2 * 2 ^ 14 := by
  show BitVec.toNat (w := 6 + 4 + 4 + 4 + 14) (_ ++ _ ++ _ ++ _ ++ _) = _
  simp only [toNat_append_add, toNat_regBits]
  simp; omega

theorem toNat_packR2 (op : Nat) (rd rs1 : Fin 16) :
    (packR2 op rd rs1).toNat = op % 64 * 2 ^ 26 + rd * 2 ^ 22 + rs1 * 2 ^ 18 := by
  show BitVec.toNat (w := 6 + 4 + 4 + 18) (_ ++ _ ++ _ ++ _) = _
  simp only [toNat_append_add, toNat_regBits]
  simp; omega

theorem toNat_packI (op : Nat) (rd rs1 : Fin 16) (imm : BitVec 14) :
    (packI op rd rs1 imm).toNat = op % 64 * 2 ^ 26 + rd * 2 ^ 22 + rs1 * 2 ^ 18 + imm.toNat := by
  show BitVec.toNat (w := 6 + 4 + 4 + 4 + 14) (_ ++ _ ++ _ ++ _ ++ _) = _
  simp only [toNat_append_add, toNat_regBits]
  simp; omega

theorem toNat_packU (op : Nat) (rd : Fin 16) (hw imm16 : Nat) :
    (packU op rd hw imm16).toNat = op % 64 * 2 ^ 26 + rd * 2 ^ 22 + hw % 4 * 2 ^ 16 + imm16 % 2 ^ 16 := by
  show BitVec.toNat (w := 6 + 4 + 4 + 2 + 16) (_ ++ _ ++ _ ++ _ ++ _) = _
  simp only [toNat_append_add, toNat_regBits]
  simp; omega

theorem toNat_rangeBits (start count : Nat) :
    (rangeBits start count).toNat = start % 128 * 128 + count % 128 := by
  show BitVec.toNat (w := 7 + 7) (_ ++ _) = _
  simp only [toNat_append_add]
  simp

/-! ### A packed word passes its mask (R72, R76) -/

theorem opcode_and_mask (op : Nat) : BitVec.ofNat 6 op &&& 0x3F#6 = BitVec.ofNat 6 op := BitVec.and_allOnes

theorem opMatch_eq (op : Nat) : opMatch op = BitVec.ofNat 6 op ++ 0#26 := by
  apply BitVec.eq_of_toNat_eq
  show _ = BitVec.toNat (w := 6 + 26) (_ ++ _)
  simp only [toNat_append_add]
  simp [opMatch, Nat.shiftLeft_eq]; omega

theorem packN_mask (op : Nat) : packN op &&& formatMask .n = opMatch op := by
  rw [opMatch_eq, show formatMask .n = 0x3F#6 ++ 0x3FFFFFF#26 by decide]
  show ((_ ++ _ : BitVec (6 + 26)) &&& (_ ++ _ : BitVec (6 + 26))) = _
  simp only [BitVec.and_append, opcode_and_mask, BitVec.zero_and]

theorem packR_mask (op : Nat) (rd rs1 rs2 : Fin 16) : packR op rd rs1 rs2 &&& formatMask .r = opMatch op := by
  have z : opMatch op = BitVec.ofNat 6 op ++ 0#4 ++ 0#4 ++ 0#4 ++ 0#14 := by
    rw [opMatch_eq, BitVec.append_assoc, BitVec.append_assoc, BitVec.append_assoc]; rfl
  rw [z, show formatMask .r = 0x3F#6 ++ 0#4 ++ 0#4 ++ 0#4 ++ 0x3FFF#14 by decide]
  show ((_ ++ _ ++ _ ++ _ ++ _ : BitVec (6 + 4 + 4 + 4 + 14)) &&& (_ ++ _ ++ _ ++ _ ++ _ : BitVec (6 + 4 + 4 + 4 + 14))) = _
  simp only [BitVec.and_append, opcode_and_mask, BitVec.and_zero, BitVec.zero_and]

theorem packR2_mask (op : Nat) (rd rs1 : Fin 16) : packR2 op rd rs1 &&& formatMask .r2 = opMatch op := by
  have z : opMatch op = BitVec.ofNat 6 op ++ 0#4 ++ 0#4 ++ 0#18 := by
    rw [opMatch_eq, BitVec.append_assoc, BitVec.append_assoc]; rfl
  rw [z, show formatMask .r2 = 0x3F#6 ++ 0#4 ++ 0#4 ++ 0x3FFFF#18 by decide]
  show ((_ ++ _ ++ _ ++ _ : BitVec (6 + 4 + 4 + 18)) &&& (_ ++ _ ++ _ ++ _ : BitVec (6 + 4 + 4 + 18))) = _
  simp only [BitVec.and_append, opcode_and_mask, BitVec.and_zero, BitVec.zero_and]

theorem packI_mask (op : Nat) (rd rs1 : Fin 16) (imm : BitVec 14) :
    packI op rd rs1 imm &&& formatMask .i = opMatch op := by
  have z : opMatch op = BitVec.ofNat 6 op ++ 0#4 ++ 0#4 ++ 0#4 ++ 0#14 := by
    rw [opMatch_eq, BitVec.append_assoc, BitVec.append_assoc, BitVec.append_assoc]; rfl
  rw [z, show formatMask .i = 0x3F#6 ++ 0#4 ++ 0#4 ++ 0xF#4 ++ 0#14 by decide]
  show ((_ ++ _ ++ _ ++ _ ++ _ : BitVec (6 + 4 + 4 + 4 + 14)) &&& (_ ++ _ ++ _ ++ _ ++ _ : BitVec (6 + 4 + 4 + 4 + 14))) = _
  simp only [BitVec.and_append, opcode_and_mask, BitVec.and_zero, BitVec.zero_and]

theorem packU_mask (op : Nat) (rd : Fin 16) (hw imm16 : Nat) : packU op rd hw imm16 &&& formatMask .u = opMatch op := by
  have z : opMatch op = BitVec.ofNat 6 op ++ 0#4 ++ 0#4 ++ 0#2 ++ 0#16 := by
    rw [opMatch_eq, BitVec.append_assoc, BitVec.append_assoc, BitVec.append_assoc]; rfl
  rw [z, show formatMask .u = 0x3F#6 ++ 0#4 ++ 0xF#4 ++ 0#2 ++ 0#16 by decide]
  show ((_ ++ _ ++ _ ++ _ ++ _ : BitVec (6 + 4 + 4 + 2 + 16)) &&& (_ ++ _ ++ _ ++ _ ++ _ : BitVec (6 + 4 + 4 + 2 + 16))) = _
  simp only [BitVec.and_append, opcode_and_mask, BitVec.and_zero, BitVec.zero_and]

end Sys2Proof
end

