-- ==== Sys2Proof/Laws/State.lean ====
section
/-! SUPPORT. One lemma per field per update of State, true by rfl, and what the register reads see after each update. -/

namespace Sys2Proof.Machine

variable (s : State)

/-! ### setX -/

@[simp] theorem setX_x (r : XReg) (v : Word) : (s.setX r v).x = s.x.set r.val v r.isLt := rfl
@[simp] theorem setX_p (r : XReg) (v : Word) : (s.setX r v).p = s.p := rfl
@[simp] theorem setX_err (r : XReg) (v : Word) : (s.setX r v).err = s.err := rfl
@[simp] theorem setX_ovf (r : XReg) (v : Word) : (s.setX r v).ovf = s.ovf := rfl
@[simp] theorem setX_z (r : XReg) (v : Word) : (s.setX r v).z = s.z := rfl
@[simp] theorem setX_cause (r : XReg) (v : Word) : (s.setX r v).cause = s.cause := rfl
@[simp] theorem setX_errie (r : XReg) (v : Word) : (s.setX r v).errie = s.errie := rfl
@[simp] theorem setX_errcmd (r : XReg) (v : Word) : (s.setX r v).errcmd = s.errcmd := rfl
@[simp] theorem setX_cmdcnt (r : XReg) (v : Word) : (s.setX r v).cmdcnt = s.cmdcnt := rfl
@[simp] theorem setX_cmdq (r : XReg) (v : Word) : (s.setX r v).cmdq = s.cmdq := rfl
@[simp] theorem setX_inReset (r : XReg) (v : Word) : (s.setX r v).inReset = s.inReset := rfl
@[simp] theorem setX_inputs (r : XReg) (v : Word) : (s.setX r v).inputs = s.inputs := rfl
@[simp] theorem setX_outputs (r : XReg) (v : Word) : (s.setX r v).outputs = s.outputs := rfl
@[simp] theorem setX_sched (r : XReg) (v : Word) : (s.setX r v).sched = s.sched := rfl
@[simp] theorem setX_draws (r : XReg) (v : Word) : (s.setX r v).draws = s.draws := rfl
@[simp] theorem setX_readP (r : XReg) (v : Word) (i : PReg) : (s.setX r v).readP i = s.readP i := rfl

/-! ### setP -/

@[simp] theorem setP_x (r : PReg) (v : Coeffs) : (s.setP r v).x = s.x := rfl
@[simp] theorem setP_p (r : PReg) (v : Coeffs) : (s.setP r v).p = s.p.set r.val (Poly.ofBits v) r.isLt := rfl
@[simp] theorem setP_err (r : PReg) (v : Coeffs) : (s.setP r v).err = s.err := rfl
@[simp] theorem setP_ovf (r : PReg) (v : Coeffs) : (s.setP r v).ovf = s.ovf := rfl
@[simp] theorem setP_z (r : PReg) (v : Coeffs) : (s.setP r v).z = s.z := rfl
@[simp] theorem setP_cause (r : PReg) (v : Coeffs) : (s.setP r v).cause = s.cause := rfl
@[simp] theorem setP_errie (r : PReg) (v : Coeffs) : (s.setP r v).errie = s.errie := rfl
@[simp] theorem setP_errcmd (r : PReg) (v : Coeffs) : (s.setP r v).errcmd = s.errcmd := rfl
@[simp] theorem setP_cmdcnt (r : PReg) (v : Coeffs) : (s.setP r v).cmdcnt = s.cmdcnt := rfl
@[simp] theorem setP_cmdq (r : PReg) (v : Coeffs) : (s.setP r v).cmdq = s.cmdq := rfl
@[simp] theorem setP_inReset (r : PReg) (v : Coeffs) : (s.setP r v).inReset = s.inReset := rfl
@[simp] theorem setP_inputs (r : PReg) (v : Coeffs) : (s.setP r v).inputs = s.inputs := rfl
@[simp] theorem setP_outputs (r : PReg) (v : Coeffs) : (s.setP r v).outputs = s.outputs := rfl
@[simp] theorem setP_sched (r : PReg) (v : Coeffs) : (s.setP r v).sched = s.sched := rfl
@[simp] theorem setP_draws (r : PReg) (v : Coeffs) : (s.setP r v).draws = s.draws := rfl
@[simp] theorem setP_readX (r : PReg) (v : Coeffs) (i : XReg) : (s.setP r v).readX i = s.readX i := rfl

/-! ### retire -/

@[simp] theorem retire_x : (s.retire).x = s.x := rfl
@[simp] theorem retire_p : (s.retire).p = s.p := rfl
@[simp] theorem retire_err : (s.retire).err = s.err := rfl
@[simp] theorem retire_ovf : (s.retire).ovf = s.ovf := rfl
@[simp] theorem retire_z : (s.retire).z = s.z := rfl
@[simp] theorem retire_cause : (s.retire).cause = s.cause := rfl
@[simp] theorem retire_errie : (s.retire).errie = s.errie := rfl
@[simp] theorem retire_errcmd : (s.retire).errcmd = s.errcmd := rfl
@[simp] theorem retire_cmdcnt : (s.retire).cmdcnt = s.cmdcnt + 1#32 := rfl
@[simp] theorem retire_cmdq : (s.retire).cmdq = s.cmdq := rfl
@[simp] theorem retire_inReset : (s.retire).inReset = s.inReset := rfl
@[simp] theorem retire_inputs : (s.retire).inputs = s.inputs := rfl
@[simp] theorem retire_outputs : (s.retire).outputs = s.outputs := rfl
@[simp] theorem retire_sched : (s.retire).sched = s.sched := rfl
@[simp] theorem retire_draws : (s.retire).draws = s.draws := rfl
@[simp] theorem retire_readX (i : XReg) : (s.retire).readX i = s.readX i := rfl
@[simp] theorem retire_readP (i : PReg) : (s.retire).readP i = s.readP i := rfl

/-! ### enterFault -/

@[simp] theorem enterFault_x (c : Cause) (w : Command) : (s.enterFault c w).x = s.x := rfl
@[simp] theorem enterFault_p (c : Cause) (w : Command) : (s.enterFault c w).p = s.p := rfl
@[simp] theorem enterFault_err (c : Cause) (w : Command) : (s.enterFault c w).err = true := rfl
@[simp] theorem enterFault_ovf (c : Cause) (w : Command) : (s.enterFault c w).ovf = s.ovf := rfl
@[simp] theorem enterFault_z (c : Cause) (w : Command) : (s.enterFault c w).z = s.z := rfl
@[simp] theorem enterFault_cause (c : Cause) (w : Command) : (s.enterFault c w).cause = c := rfl
@[simp] theorem enterFault_errie (c : Cause) (w : Command) : (s.enterFault c w).errie = s.errie := rfl
@[simp] theorem enterFault_errcmd (c : Cause) (w : Command) : (s.enterFault c w).errcmd = w := rfl
@[simp] theorem enterFault_cmdcnt (c : Cause) (w : Command) : (s.enterFault c w).cmdcnt = s.cmdcnt := rfl
@[simp] theorem enterFault_cmdq (c : Cause) (w : Command) : (s.enterFault c w).cmdq = s.cmdq := rfl
@[simp] theorem enterFault_inReset (c : Cause) (w : Command) : (s.enterFault c w).inReset = s.inReset := rfl
@[simp] theorem enterFault_inputs (c : Cause) (w : Command) : (s.enterFault c w).inputs = s.inputs := rfl
@[simp] theorem enterFault_outputs (c : Cause) (w : Command) : (s.enterFault c w).outputs = s.outputs := rfl
@[simp] theorem enterFault_sched (c : Cause) (w : Command) : (s.enterFault c w).sched = s.sched := rfl
@[simp] theorem enterFault_draws (c : Cause) (w : Command) : (s.enterFault c w).draws = s.draws := rfl
@[simp] theorem enterFault_readX (c : Cause) (w : Command) (i : XReg) : (s.enterFault c w).readX i = s.readX i := rfl
@[simp] theorem enterFault_readP (c : Cause) (w : Command) (i : PReg) : (s.enterFault c w).readP i = s.readP i := rfl

/-! ### clearError -/

@[simp] theorem clearError_x : (s.clearError).x = s.x := rfl
@[simp] theorem clearError_p : (s.clearError).p = s.p := rfl
@[simp] theorem clearError_err : (s.clearError).err = false := rfl
@[simp] theorem clearError_ovf : (s.clearError).ovf = s.ovf := rfl
@[simp] theorem clearError_z : (s.clearError).z = s.z := rfl
@[simp] theorem clearError_cause : (s.clearError).cause = .none := rfl
@[simp] theorem clearError_errie : (s.clearError).errie = s.errie := rfl
@[simp] theorem clearError_errcmd : (s.clearError).errcmd = 0#32 := rfl
@[simp] theorem clearError_cmdcnt : (s.clearError).cmdcnt = s.cmdcnt := rfl
@[simp] theorem clearError_cmdq : (s.clearError).cmdq = s.cmdq := rfl
@[simp] theorem clearError_inReset : (s.clearError).inReset = s.inReset := rfl
@[simp] theorem clearError_inputs : (s.clearError).inputs = s.inputs := rfl
@[simp] theorem clearError_outputs : (s.clearError).outputs = s.outputs := rfl
@[simp] theorem clearError_sched : (s.clearError).sched = s.sched := rfl
@[simp] theorem clearError_draws : (s.clearError).draws = s.draws := rfl
@[simp] theorem clearError_readX (i : XReg) : (s.clearError).readX i = s.readX i := rfl
@[simp] theorem clearError_readP (i : PReg) : (s.clearError).readP i = s.readP i := rfl

/-! ### clearOverflow -/

@[simp] theorem clearOverflow_x : (s.clearOverflow).x = s.x := rfl
@[simp] theorem clearOverflow_p : (s.clearOverflow).p = s.p := rfl
@[simp] theorem clearOverflow_err : (s.clearOverflow).err = s.err := rfl
@[simp] theorem clearOverflow_ovf : (s.clearOverflow).ovf = false := rfl
@[simp] theorem clearOverflow_z : (s.clearOverflow).z = s.z := rfl
@[simp] theorem clearOverflow_cause : (s.clearOverflow).cause = s.cause := rfl
@[simp] theorem clearOverflow_errie : (s.clearOverflow).errie = s.errie := rfl
@[simp] theorem clearOverflow_errcmd : (s.clearOverflow).errcmd = s.errcmd := rfl
@[simp] theorem clearOverflow_cmdcnt : (s.clearOverflow).cmdcnt = s.cmdcnt := rfl
@[simp] theorem clearOverflow_cmdq : (s.clearOverflow).cmdq = s.cmdq := rfl
@[simp] theorem clearOverflow_inReset : (s.clearOverflow).inReset = s.inReset := rfl
@[simp] theorem clearOverflow_inputs : (s.clearOverflow).inputs = s.inputs := rfl
@[simp] theorem clearOverflow_outputs : (s.clearOverflow).outputs = s.outputs := rfl
@[simp] theorem clearOverflow_sched : (s.clearOverflow).sched = s.sched := rfl
@[simp] theorem clearOverflow_draws : (s.clearOverflow).draws = s.draws := rfl
@[simp] theorem clearOverflow_readX (i : XReg) : (s.clearOverflow).readX i = s.readX i := rfl
@[simp] theorem clearOverflow_readP (i : PReg) : (s.clearOverflow).readP i = s.readP i := rfl

/-! ### setErrie -/

@[simp] theorem setErrie_x (b : Bool) : (s.setErrie b).x = s.x := rfl
@[simp] theorem setErrie_p (b : Bool) : (s.setErrie b).p = s.p := rfl
@[simp] theorem setErrie_err (b : Bool) : (s.setErrie b).err = s.err := rfl
@[simp] theorem setErrie_ovf (b : Bool) : (s.setErrie b).ovf = s.ovf := rfl
@[simp] theorem setErrie_z (b : Bool) : (s.setErrie b).z = s.z := rfl
@[simp] theorem setErrie_cause (b : Bool) : (s.setErrie b).cause = s.cause := rfl
@[simp] theorem setErrie_errie (b : Bool) : (s.setErrie b).errie = b := rfl
@[simp] theorem setErrie_errcmd (b : Bool) : (s.setErrie b).errcmd = s.errcmd := rfl
@[simp] theorem setErrie_cmdcnt (b : Bool) : (s.setErrie b).cmdcnt = s.cmdcnt := rfl
@[simp] theorem setErrie_cmdq (b : Bool) : (s.setErrie b).cmdq = s.cmdq := rfl
@[simp] theorem setErrie_inReset (b : Bool) : (s.setErrie b).inReset = s.inReset := rfl
@[simp] theorem setErrie_inputs (b : Bool) : (s.setErrie b).inputs = s.inputs := rfl
@[simp] theorem setErrie_outputs (b : Bool) : (s.setErrie b).outputs = s.outputs := rfl
@[simp] theorem setErrie_sched (b : Bool) : (s.setErrie b).sched = s.sched := rfl
@[simp] theorem setErrie_draws (b : Bool) : (s.setErrie b).draws = s.draws := rfl
@[simp] theorem setErrie_readX (b : Bool) (i : XReg) : (s.setErrie b).readX i = s.readX i := rfl
@[simp] theorem setErrie_readP (b : Bool) (i : PReg) : (s.setErrie b).readP i = s.readP i := rfl

/-! ### setZ -/

@[simp] theorem setZ_x (b : Bool) : (s.setZ b).x = s.x := rfl
@[simp] theorem setZ_p (b : Bool) : (s.setZ b).p = s.p := rfl
@[simp] theorem setZ_err (b : Bool) : (s.setZ b).err = s.err := rfl
@[simp] theorem setZ_ovf (b : Bool) : (s.setZ b).ovf = s.ovf := rfl
@[simp] theorem setZ_z (b : Bool) : (s.setZ b).z = b := rfl
@[simp] theorem setZ_cause (b : Bool) : (s.setZ b).cause = s.cause := rfl
@[simp] theorem setZ_errie (b : Bool) : (s.setZ b).errie = s.errie := rfl
@[simp] theorem setZ_errcmd (b : Bool) : (s.setZ b).errcmd = s.errcmd := rfl
@[simp] theorem setZ_cmdcnt (b : Bool) : (s.setZ b).cmdcnt = s.cmdcnt := rfl
@[simp] theorem setZ_cmdq (b : Bool) : (s.setZ b).cmdq = s.cmdq := rfl
@[simp] theorem setZ_inReset (b : Bool) : (s.setZ b).inReset = s.inReset := rfl
@[simp] theorem setZ_inputs (b : Bool) : (s.setZ b).inputs = s.inputs := rfl
@[simp] theorem setZ_outputs (b : Bool) : (s.setZ b).outputs = s.outputs := rfl
@[simp] theorem setZ_sched (b : Bool) : (s.setZ b).sched = s.sched := rfl
@[simp] theorem setZ_draws (b : Bool) : (s.setZ b).draws = s.draws := rfl
@[simp] theorem setZ_readX (b : Bool) (i : XReg) : (s.setZ b).readX i = s.readX i := rfl
@[simp] theorem setZ_readP (b : Bool) (i : PReg) : (s.setZ b).readP i = s.readP i := rfl

/-! ### noteOverflow -/

@[simp] theorem noteOverflow_x (b : Bool) : (s.noteOverflow b).x = s.x := rfl
@[simp] theorem noteOverflow_p (b : Bool) : (s.noteOverflow b).p = s.p := rfl
@[simp] theorem noteOverflow_err (b : Bool) : (s.noteOverflow b).err = s.err := rfl
@[simp] theorem noteOverflow_ovf (b : Bool) : (s.noteOverflow b).ovf = (s.ovf || b) := rfl
@[simp] theorem noteOverflow_z (b : Bool) : (s.noteOverflow b).z = s.z := rfl
@[simp] theorem noteOverflow_cause (b : Bool) : (s.noteOverflow b).cause = s.cause := rfl
@[simp] theorem noteOverflow_errie (b : Bool) : (s.noteOverflow b).errie = s.errie := rfl
@[simp] theorem noteOverflow_errcmd (b : Bool) : (s.noteOverflow b).errcmd = s.errcmd := rfl
@[simp] theorem noteOverflow_cmdcnt (b : Bool) : (s.noteOverflow b).cmdcnt = s.cmdcnt := rfl
@[simp] theorem noteOverflow_cmdq (b : Bool) : (s.noteOverflow b).cmdq = s.cmdq := rfl
@[simp] theorem noteOverflow_inReset (b : Bool) : (s.noteOverflow b).inReset = s.inReset := rfl
@[simp] theorem noteOverflow_inputs (b : Bool) : (s.noteOverflow b).inputs = s.inputs := rfl
@[simp] theorem noteOverflow_outputs (b : Bool) : (s.noteOverflow b).outputs = s.outputs := rfl
@[simp] theorem noteOverflow_sched (b : Bool) : (s.noteOverflow b).sched = s.sched := rfl
@[simp] theorem noteOverflow_draws (b : Bool) : (s.noteOverflow b).draws = s.draws := rfl
@[simp] theorem noteOverflow_readX (b : Bool) (i : XReg) : (s.noteOverflow b).readX i = s.readX i := rfl
@[simp] theorem noteOverflow_readP (b : Bool) (i : PReg) : (s.noteOverflow b).readP i = s.readP i := rfl

/-! ### enqueue -/

@[simp] theorem enqueue_x (w : Command) : (s.enqueue w).x = s.x := rfl
@[simp] theorem enqueue_p (w : Command) : (s.enqueue w).p = s.p := rfl
@[simp] theorem enqueue_err (w : Command) : (s.enqueue w).err = s.err := rfl
@[simp] theorem enqueue_ovf (w : Command) : (s.enqueue w).ovf = s.ovf := rfl
@[simp] theorem enqueue_z (w : Command) : (s.enqueue w).z = s.z := rfl
@[simp] theorem enqueue_cause (w : Command) : (s.enqueue w).cause = s.cause := rfl
@[simp] theorem enqueue_errie (w : Command) : (s.enqueue w).errie = s.errie := rfl
@[simp] theorem enqueue_errcmd (w : Command) : (s.enqueue w).errcmd = s.errcmd := rfl
@[simp] theorem enqueue_cmdcnt (w : Command) : (s.enqueue w).cmdcnt = s.cmdcnt := rfl
@[simp] theorem enqueue_cmdq (w : Command) : (s.enqueue w).cmdq = s.cmdq ++ [w] := rfl
@[simp] theorem enqueue_inReset (w : Command) : (s.enqueue w).inReset = s.inReset := rfl
@[simp] theorem enqueue_inputs (w : Command) : (s.enqueue w).inputs = s.inputs := rfl
@[simp] theorem enqueue_outputs (w : Command) : (s.enqueue w).outputs = s.outputs := rfl
@[simp] theorem enqueue_sched (w : Command) : (s.enqueue w).sched = s.sched := rfl
@[simp] theorem enqueue_draws (w : Command) : (s.enqueue w).draws = s.draws := rfl
@[simp] theorem enqueue_readX (w : Command) (i : XReg) : (s.enqueue w).readX i = s.readX i := rfl
@[simp] theorem enqueue_readP (w : Command) (i : PReg) : (s.enqueue w).readP i = s.readP i := rfl

/-! ### withQueue -/

@[simp] theorem withQueue_x (q : List Command) : (s.withQueue q).x = s.x := rfl
@[simp] theorem withQueue_p (q : List Command) : (s.withQueue q).p = s.p := rfl
@[simp] theorem withQueue_err (q : List Command) : (s.withQueue q).err = s.err := rfl
@[simp] theorem withQueue_ovf (q : List Command) : (s.withQueue q).ovf = s.ovf := rfl
@[simp] theorem withQueue_z (q : List Command) : (s.withQueue q).z = s.z := rfl
@[simp] theorem withQueue_cause (q : List Command) : (s.withQueue q).cause = s.cause := rfl
@[simp] theorem withQueue_errie (q : List Command) : (s.withQueue q).errie = s.errie := rfl
@[simp] theorem withQueue_errcmd (q : List Command) : (s.withQueue q).errcmd = s.errcmd := rfl
@[simp] theorem withQueue_cmdcnt (q : List Command) : (s.withQueue q).cmdcnt = s.cmdcnt := rfl
@[simp] theorem withQueue_cmdq (q : List Command) : (s.withQueue q).cmdq = q := rfl
@[simp] theorem withQueue_inReset (q : List Command) : (s.withQueue q).inReset = s.inReset := rfl
@[simp] theorem withQueue_inputs (q : List Command) : (s.withQueue q).inputs = s.inputs := rfl
@[simp] theorem withQueue_outputs (q : List Command) : (s.withQueue q).outputs = s.outputs := rfl
@[simp] theorem withQueue_sched (q : List Command) : (s.withQueue q).sched = s.sched := rfl
@[simp] theorem withQueue_draws (q : List Command) : (s.withQueue q).draws = s.draws := rfl
@[simp] theorem withQueue_readX (q : List Command) (i : XReg) : (s.withQueue q).readX i = s.readX i := rfl
@[simp] theorem withQueue_readP (q : List Command) (i : PReg) : (s.withQueue q).readP i = s.readP i := rfl

/-! ### respond -/

@[simp] theorem respond_x (o : Response) : (s.respond o).x = s.x := rfl
@[simp] theorem respond_p (o : Response) : (s.respond o).p = s.p := rfl
@[simp] theorem respond_err (o : Response) : (s.respond o).err = s.err := rfl
@[simp] theorem respond_ovf (o : Response) : (s.respond o).ovf = s.ovf := rfl
@[simp] theorem respond_z (o : Response) : (s.respond o).z = s.z := rfl
@[simp] theorem respond_cause (o : Response) : (s.respond o).cause = s.cause := rfl
@[simp] theorem respond_errie (o : Response) : (s.respond o).errie = s.errie := rfl
@[simp] theorem respond_errcmd (o : Response) : (s.respond o).errcmd = s.errcmd := rfl
@[simp] theorem respond_cmdcnt (o : Response) : (s.respond o).cmdcnt = s.cmdcnt := rfl
@[simp] theorem respond_cmdq (o : Response) : (s.respond o).cmdq = s.cmdq := rfl
@[simp] theorem respond_inReset (o : Response) : (s.respond o).inReset = s.inReset := rfl
@[simp] theorem respond_inputs (o : Response) : (s.respond o).inputs = s.inputs := rfl
@[simp] theorem respond_outputs (o : Response) : (s.respond o).outputs = s.outputs ++ [o] := rfl
@[simp] theorem respond_sched (o : Response) : (s.respond o).sched = s.sched := rfl
@[simp] theorem respond_draws (o : Response) : (s.respond o).draws = s.draws := rfl
@[simp] theorem respond_readX (o : Response) (i : XReg) : (s.respond o).readX i = s.readX i := rfl
@[simp] theorem respond_readP (o : Response) (i : PReg) : (s.respond o).readP i = s.readP i := rfl

/-! ### draw -/

@[simp] theorem draw_x (n : Nat) : (s.draw n).x = s.x := rfl
@[simp] theorem draw_p (n : Nat) : (s.draw n).p = s.p := rfl
@[simp] theorem draw_err (n : Nat) : (s.draw n).err = s.err := rfl
@[simp] theorem draw_ovf (n : Nat) : (s.draw n).ovf = s.ovf := rfl
@[simp] theorem draw_z (n : Nat) : (s.draw n).z = s.z := rfl
@[simp] theorem draw_cause (n : Nat) : (s.draw n).cause = s.cause := rfl
@[simp] theorem draw_errie (n : Nat) : (s.draw n).errie = s.errie := rfl
@[simp] theorem draw_errcmd (n : Nat) : (s.draw n).errcmd = s.errcmd := rfl
@[simp] theorem draw_cmdcnt (n : Nat) : (s.draw n).cmdcnt = s.cmdcnt := rfl
@[simp] theorem draw_cmdq (n : Nat) : (s.draw n).cmdq = s.cmdq := rfl
@[simp] theorem draw_inReset (n : Nat) : (s.draw n).inReset = s.inReset := rfl
@[simp] theorem draw_inputs (n : Nat) : (s.draw n).inputs = s.inputs := rfl
@[simp] theorem draw_outputs (n : Nat) : (s.draw n).outputs = s.outputs := rfl
@[simp] theorem draw_sched (n : Nat) : (s.draw n).sched = s.sched := rfl
@[simp] theorem draw_draws (n : Nat) : (s.draw n).draws = s.draws + n := rfl
@[simp] theorem draw_readX (n : Nat) (i : XReg) : (s.draw n).readX i = s.readX i := rfl
@[simp] theorem draw_readP (n : Nat) (i : PReg) : (s.draw n).readP i = s.readP i := rfl

/-! ### leaveReset -/

@[simp] theorem leaveReset_x : (s.leaveReset).x = s.x := rfl
@[simp] theorem leaveReset_p : (s.leaveReset).p = s.p := rfl
@[simp] theorem leaveReset_err : (s.leaveReset).err = s.err := rfl
@[simp] theorem leaveReset_ovf : (s.leaveReset).ovf = s.ovf := rfl
@[simp] theorem leaveReset_z : (s.leaveReset).z = s.z := rfl
@[simp] theorem leaveReset_cause : (s.leaveReset).cause = s.cause := rfl
@[simp] theorem leaveReset_errie : (s.leaveReset).errie = s.errie := rfl
@[simp] theorem leaveReset_errcmd : (s.leaveReset).errcmd = s.errcmd := rfl
@[simp] theorem leaveReset_cmdcnt : (s.leaveReset).cmdcnt = s.cmdcnt := rfl
@[simp] theorem leaveReset_cmdq : (s.leaveReset).cmdq = s.cmdq := rfl
@[simp] theorem leaveReset_inReset : (s.leaveReset).inReset = false := rfl
@[simp] theorem leaveReset_inputs : (s.leaveReset).inputs = s.inputs := rfl
@[simp] theorem leaveReset_outputs : (s.leaveReset).outputs = s.outputs := rfl
@[simp] theorem leaveReset_sched : (s.leaveReset).sched = s.sched := rfl
@[simp] theorem leaveReset_draws : (s.leaveReset).draws = s.draws := rfl
@[simp] theorem leaveReset_readX (i : XReg) : (s.leaveReset).readX i = s.readX i := rfl
@[simp] theorem leaveReset_readP (i : PReg) : (s.leaveReset).readP i = s.readP i := rfl

/-! ### enterReset -/

@[simp] theorem enterReset_x : (s.enterReset).x = State.reset.x := rfl
@[simp] theorem enterReset_p : (s.enterReset).p = State.reset.p := rfl
@[simp] theorem enterReset_err : (s.enterReset).err = false := rfl
@[simp] theorem enterReset_ovf : (s.enterReset).ovf = false := rfl
@[simp] theorem enterReset_z : (s.enterReset).z = false := rfl
@[simp] theorem enterReset_cause : (s.enterReset).cause = .none := rfl
@[simp] theorem enterReset_errie : (s.enterReset).errie = false := rfl
@[simp] theorem enterReset_errcmd : (s.enterReset).errcmd = 0#32 := rfl
@[simp] theorem enterReset_cmdcnt : (s.enterReset).cmdcnt = 0#32 := rfl
@[simp] theorem enterReset_cmdq : (s.enterReset).cmdq = [] := rfl
@[simp] theorem enterReset_inReset : (s.enterReset).inReset = true := rfl
@[simp] theorem enterReset_inputs : (s.enterReset).inputs = s.inputs := rfl
@[simp] theorem enterReset_outputs : (s.enterReset).outputs = s.outputs := rfl
@[simp] theorem enterReset_sched : (s.enterReset).sched = s.sched := rfl
@[simp] theorem enterReset_draws : (s.enterReset).draws = s.draws := rfl

/-! ### The fields of STATUS -/

/-- BUSY is bit 0 (R29). -/
@[simp] theorem statusBits_busy (b : Bool) : (s.statusBits b).getLsbD 0 = b := by
  simp only [State.statusBits, BitVec.getLsbD_append]; simp

/-- ERR is bit 1 (R29). -/
@[simp] theorem statusBits_err (b : Bool) : (s.statusBits b).getLsbD 1 = s.err := by
  simp only [State.statusBits, BitVec.getLsbD_append]; simp

/-- OVF is bit 2 (R29). -/
@[simp] theorem statusBits_ovf (b : Bool) : (s.statusBits b).getLsbD 2 = s.ovf := by
  simp only [State.statusBits, BitVec.getLsbD_append]; simp

/-- Z is bit 3 (R29). -/
@[simp] theorem statusBits_z (b : Bool) : (s.statusBits b).getLsbD 3 = s.z := by
  simp only [State.statusBits, BitVec.getLsbD_append]; simp

/-- No bit but BUSY depends on BUSY (R29). -/
theorem statusBits_above_busy (b c : Bool) {j : Nat} (h : 1 ≤ j) :
    (s.statusBits b).getLsbD j = (s.statusBits c).getLsbD j := by
  unfold State.statusBits
  rw [BitVec.getLsbD_append, BitVec.getLsbD_append (y := BitVec.ofBool c)]
  simp [show ¬ j = 0 by omega]

/-! ### Register reads after register writes -/

/-- A write of Xr is read back (R21). -/
@[simp] theorem readX_setX_same (r : XReg) (v : Word) : (s.setX r v).readX r = v := by
  simp [State.readX, State.setX]

/-- A write of Xr leaves every other X register (R21: no aliases). -/
theorem readX_setX_ne (r i : XReg) (v : Word) (h : i ≠ r) : (s.setX r v).readX i = s.readX i := by
  have : r.val ≠ i.val := fun e => h (Fin.ext e.symm)
  simp [State.readX, State.setX, this]

/-- A write of Pr is read back, with its degree (R25). -/
@[simp] theorem readP_setP_same (r : PReg) (v : Coeffs) : (s.setP r v).readP r = Poly.ofBits v := by
  simp [State.readP, State.setP]

/-- A write of Pr leaves every other P register (R23). -/
theorem readP_setP_ne (r i : PReg) (v : Coeffs) (h : i ≠ r) : (s.setP r v).readP i = s.readP i := by
  have : r.val ≠ i.val := fun e => h (Fin.ext e.symm)
  simp [State.readP, State.setP, this]

@[simp] theorem ofBits_bits (v : Coeffs) : (Poly.ofBits v).bits = v := rfl

@[simp] theorem ofBits_deg (v : Coeffs) : (Poly.ofBits v).deg = computeDegree v := rfl

/-- Reset reads 0 in every X register (R42). -/
@[simp] theorem readX_reset (r : XReg) : State.reset.readX r = 0#64 := by
  simp [State.readX, State.reset]

/-- Reset reads the zero polynomial in every P register (R42). -/
@[simp] theorem readP_reset (r : PReg) : State.reset.readP r = Poly.zero := by
  simp [State.readP, State.reset]

/-- Asserting reset gives the reset registers (R42, R210). -/
theorem enterReset_atReset : AtReset s.enterReset where
  x r := readX_reset r
  p r := readP_reset r
  err := rfl
  ovf := rfl
  z := rfl
  cause := rfl
  errie := rfl
  errcmd := rfl
  cmdcnt := rfl
  cmdq := rfl

end Sys2Proof.Machine
end

