-- ==== Sys2Proof/Laws/Exec.lean ====
section
/-! SUPPORT. What one command can do, said once: the inversion lemma `exec_cases`, from one frame lemma per shape of
meaning. -/

namespace Sys2Proof.Machine

variable {s : State}

/-- Reads of a register written with another's value: the frame of `setX`. -/
theorem setX_sameXBut (r : XReg) (v : Word) : SameXBut (some r) s (s.setX r v) :=
  fun i h => readX_setX_ne s r i v fun e => h (congrArg some e)

/-- The frame of `setP`. -/
theorem setP_samePBut (r : PReg) (v : Coeffs) : SamePBut (some r) s (s.setP r v) :=
  fun i h => readP_setP_ne s r i v fun e => h (congrArg some e)

/-- The written register holds the value and its degree (R25). -/
theorem setP_holds (r : PReg) (v : Coeffs) : HoldsPoly (s.setP r v) r v := by
  simp [HoldsPoly, State.readBits, State.readDeg, computeDegree_eq]

/-- A write of a P register keeps the degree invariant (R25). -/
theorem setP_degreeInv (r : PReg) (v : Coeffs) (h : DegreeInv s) : DegreeInv (s.setP r v) := by
  intro i
  by_cases e : i = r
  · subst e
    obtain ⟨hb, hd⟩ := setP_holds (s := s) i v
    rw [hd, hb]
  · simpa [State.readBits, State.readDeg, readP_setP_ne s r i v e] using h i

/-- A command that only completes (R170). -/
theorem frameX_nop : FrameX none s s.retire where
  x _ _ := rfl
  p _ _ := rfl
  ovf := rfl
  z := rfl
  completed := ⟨rfl, ⟨rfl, rfl, rfl⟩, ⟨rfl, rfl, rfl, rfl, rfl, rfl⟩, rfl⟩

/-- A command that writes an X register. -/
theorem frameX_setX (r : XReg) (v : Word) : FrameX (some r) s (s.setX r v).retire where
  x := setX_sameXBut r v
  p _ _ := rfl
  ovf := rfl
  z := rfl
  completed := ⟨rfl, ⟨rfl, rfl, rfl⟩, ⟨rfl, rfl, rfl, rfl, rfl, rfl⟩, rfl⟩

/-- A command that writes an X register and Z. -/
theorem frameScan_setX (r : XReg) (v : Word) (b : Bool) : FrameScan r s ((s.setX r v).setZ b).retire where
  x := setX_sameXBut r v
  p _ _ := rfl
  ovf := rfl
  completed := ⟨rfl, ⟨rfl, rfl, rfl⟩, ⟨rfl, rfl, rfl, rfl, rfl, rfl⟩, rfl⟩

/-- A command that writes a P register. -/
theorem frameP_setP (r : PReg) (v : Coeffs) : FrameP r s (s.setP r v).retire where
  x _ _ := rfl
  p := setP_samePBut r v
  ovf := rfl
  z := rfl
  completed := ⟨rfl, ⟨rfl, rfl, rfl⟩, ⟨rfl, rfl, rfl, rfl, rfl, rfl⟩, rfl⟩

/-- A command that writes a P register and may set OVF. -/
theorem framePOvf_setP (r : PReg) (v : Coeffs) (b : Bool) :
    FramePOvf r s ((s.setP r v).noteOverflow b).retire where
  x _ _ := rfl
  p := setP_samePBut r v
  z := rfl
  completed := ⟨rfl, ⟨rfl, rfl, rfl⟩, ⟨rfl, rfl, rfl, rfl, rfl, rfl⟩, rfl⟩

/-- Fault entry (R184). -/
theorem faultEntered_enterFault (c : Cause) (w : Command) : FaultEntered c w s (s.enterFault c w) where
  err := rfl
  cause := rfl
  errcmd := rfl
  x _ _ := rfl
  p _ _ := rfl
  ovf := rfl
  z := rfl
  cmdcnt := rfl
  outside := ⟨rfl, rfl, rfl, rfl, rfl, rfl⟩
  draws := rfl

/-- What a command that completes can do. -/
structure CommandEffect (i : Instr) (s t : State) : Prop where
  x : SameXBut (destX i) s t
  p : SamePBut (destP i) s t
  degree : ∀ r, destP i = some r → t.readDeg r = Machine.degree (t.readBits r).toNat
  z : writesZ i = false → t.z = s.z
  ovf : maySetOvf i = false → t.ovf = s.ovf
  sticky : s.ovf = true → t.ovf = true
  completed : Completed s t

theorem FrameX.effect {i : Instr} {t : State} {d : Option XReg} (h : FrameX d s t) (hx : destX i = d)
    (hp : destP i = none) : CommandEffect i s t where
  x := hx ▸ h.x
  p := hp ▸ h.p
  degree r e := by simp [hp] at e
  z _ := h.z
  ovf _ := h.ovf
  sticky e := h.ovf.trans e
  completed := h.completed

theorem FrameScan.effect {i : Instr} {t : State} {r : XReg} (h : FrameScan r s t) (hx : destX i = some r)
    (hp : destP i = none) (hz : writesZ i = true) : CommandEffect i s t where
  x := hx ▸ h.x
  p := hp ▸ h.p
  degree r e := by simp [hp] at e
  z e := by simp [hz] at e
  ovf _ := h.ovf
  sticky e := h.ovf.trans e
  completed := h.completed

/-- A completed write of a P register is an effect of its command. -/
theorem effect_setP {i : Instr} {r : PReg} (v : Coeffs) (hx : destX i = none) (hp : destP i = some r) :
    CommandEffect i s (s.setP r v).retire where
  x := hx ▸ (frameP_setP r v).x
  p := hp ▸ (frameP_setP r v).p
  degree q e := by
    obtain rfl : r = q := Option.some.inj (hp.symm.trans e)
    have := setP_holds (s := s) r v
    exact this.2.trans (congrArg _ (congrArg _ this.1.symm))
  z _ := rfl
  ovf _ := rfl
  sticky e := e
  completed := (frameP_setP r v).completed

/-- A completed write of a P register that may set OVF is an effect of its command. -/
theorem effect_setP_noteOverflow {i : Instr} {r : PReg} (v : Coeffs) (b : Bool) (hx : destX i = none)
    (hp : destP i = some r) (ho : maySetOvf i = true) :
    CommandEffect i s ((s.setP r v).noteOverflow b).retire where
  x := hx ▸ (framePOvf_setP r v b).x
  p := hp ▸ (framePOvf_setP r v b).p
  degree := (effect_setP (i := i) v hx hp).degree
  z _ := rfl
  ovf e := by simp [ho] at e
  sticky e := by simp [e]
  completed := (framePOvf_setP r v b).completed

/-- PMUL under the policy `truncate` (R160). -/
theorem mulWith_truncate (rd rs1 rs2 : PReg) (s : State) :
    mulWith .truncate rd rs1 rs2 s =
      complete ((s.setP rd (truncProduct (s.readBits rs1) (s.readBits rs2))).noteOverflow
        (productOverflows (s.readBits rs1) (s.readBits rs2))) := rfl

/-- What a command can do: it completes with its effect, or it raises its one range fault (R180, R185, R189). -/
theorem exec_cases (i : Instr) (s : State) :
    (rangeFault i = none ∧ ∃ t, exec i s = .next t ∧ CommandEffect i s t) ∨
      ∃ c, rangeFault i = some c ∧ exec i s = .next (s.enterFault c (encode i)) := by
  cases i with
  | nop => exact .inl ⟨rfl, _, rfl, frameX_nop.effect rfl rfl⟩
  | log2w rd rs1 => exact .inl ⟨rfl, _, rfl, (frameScan_setX _ _ _).effect rfl rfl rfl⟩
  | log2h rd rs1 => exact .inl ⟨rfl, _, rfl, (frameScan_setX _ _ _).effect rfl rfl rfl⟩
  | clzw rd rs1 => exact .inl ⟨rfl, _, rfl, (frameScan_setX _ _ _).effect rfl rfl rfl⟩
  | clzh rd rs1 => exact .inl ⟨rfl, _, rfl, (frameScan_setX _ _ _).effect rfl rfl rfl⟩
  | ilv16 rd rs1 rs2 => exact .inl ⟨rfl, _, rfl, (frameX_setX _ _).effect rfl rfl⟩
  | ilv32 rd rs1 rs2 => exact .inl ⟨rfl, _, rfl, (frameX_setX _ _).effect rfl rfl⟩
  | conv16 rd rs1 rs2 => exact .inl ⟨rfl, _, rfl, (frameX_setX _ _).effect rfl rfl⟩
  | conv32 rd rs1 rs2 => exact .inl ⟨rfl, _, rfl, (frameX_setX _ _).effect rfl rfl⟩
  | xli rd imm16 hw => exact .inl ⟨rfl, _, rfl, (frameX_setX _ _).effect rfl rfl⟩
  | xlk rd imm16 hw => exact .inl ⟨rfl, _, rfl, (frameX_setX _ _).effect rfl rfl⟩
  | pfromi rd rs1 => exact .inl ⟨rfl, _, rfl, effect_setP _ rfl rfl⟩
  | pfromb rd rs1 start count =>
    by_cases h : start + count ≤ 4
    · refine .inl ⟨by simp [rangeFault, h], _, ?_, effect_setP (fromBlocks (s.readBits rs1) start count) rfl rfl⟩
      simp [exec, execPfromb, blockRangeOk, h, complete]
    · exact .inr ⟨.blockIndexRange, by simp [rangeFault]; omega, by
        simp [exec, execPfromb, blockRangeOk, h, raise]⟩
  | pgetb rd rs1 k =>
    by_cases h : k < 4
    · refine .inl ⟨by simp [rangeFault, h], _, ?_, (frameX_setX rd (block (s.readBits rs1) k)).effect rfl rfl⟩
      simp [exec, execPgetb, blockIndexOk, h, complete]
    · exact .inr ⟨.blockIndexRange, by simp [rangeFault]; omega, by
        simp [exec, execPgetb, blockIndexOk, h, raise]⟩
  | psetb rd rs1 k =>
    by_cases h : k < 4
    · refine .inl ⟨by simp [rangeFault, h], _, ?_, effect_setP (setBlock (s.readBits rd) k (s.readX rs1)) rfl rfl⟩
      simp [exec, execPsetb, blockIndexOk, h, complete]
    · exact .inr ⟨.blockIndexRange, by simp [rangeFault]; omega, by
        simp [exec, execPsetb, blockIndexOk, h, raise]⟩
  | pbit rd rs1 n =>
    by_cases h : n < 256
    · refine .inl ⟨by simp [rangeFault, h], _, ?_,
        (frameX_setX rd (zext64 (BitVec.ofBool (coefficient (s.readBits rs1) n)))).effect rfl rfl⟩
      simp [exec, execPbit, bitIndexOk, h, complete]
    · exact .inr ⟨.bitIndexRange, by simp [rangeFault]; omega, by
        simp [exec, execPbit, bitIndexOk, h, raise]⟩
  | pdeg rd rs1 => exact .inl ⟨rfl, _, rfl, (frameX_setX _ _).effect rfl rfl⟩
  | psize rd rs1 => exact .inl ⟨rfl, _, rfl, (frameX_setX _ _).effect rfl rfl⟩
  | pnub rd rs1 => exact .inl ⟨rfl, _, rfl, (frameX_setX _ _).effect rfl rfl⟩
  | pxor rd rs1 rs2 => exact .inl ⟨rfl, _, rfl, effect_setP _ rfl rfl⟩
  | pand rd rs1 rs2 => exact .inl ⟨rfl, _, rfl, effect_setP _ rfl rfl⟩
  | por rd rs1 rs2 => exact .inl ⟨rfl, _, rfl, effect_setP _ rfl rfl⟩
  | pslli rd rs1 shamt => exact .inl ⟨rfl, _, rfl, effect_setP_noteOverflow _ _ rfl rfl rfl⟩
  | psrli rd rs1 shamt => exact .inl ⟨rfl, _, rfl, effect_setP _ rfl rfl⟩
  | psll rd rs1 rs2 => exact .inl ⟨rfl, _, rfl, effect_setP_noteOverflow _ _ rfl rfl rfl⟩
  | psrl rd rs1 rs2 => exact .inl ⟨rfl, _, rfl, effect_setP _ rfl rfl⟩
  | pmul rd rs1 rs2 =>
    exact .inl ⟨rfl, _, mulWith_truncate rd rs1 rs2 s, effect_setP_noteOverflow _ _ rfl rfl rfl⟩

/-- `s` with other contents of what no command reads or writes: CTRL, CMDQ, the reset line, and the model's lists. -/
def State.withOutside (s o : State) : State :=
  { s with
    errie := o.errie, cmdq := o.cmdq, inReset := o.inReset,
    inputs := o.inputs, outputs := o.outputs, sched := o.sched }

@[simp] theorem withOutside_cmdq (o : State) : (s.withOutside o).cmdq = o.cmdq := rfl
@[simp] theorem withOutside_outputs (o : State) : (s.withOutside o).outputs = o.outputs := rfl
@[simp] theorem withOutside_inputs (o : State) : (s.withOutside o).inputs = o.inputs := rfl
@[simp] theorem withOutside_err (o : State) : (s.withOutside o).err = s.err := rfl
@[simp] theorem withOutside_ovf (o : State) : (s.withOutside o).ovf = s.ovf := rfl
@[simp] theorem withOutside_z (o : State) : (s.withOutside o).z = s.z := rfl
@[simp] theorem withOutside_cause (o : State) : (s.withOutside o).cause = s.cause := rfl
@[simp] theorem withOutside_readX (o : State) (r : XReg) : (s.withOutside o).readX r = s.readX r := rfl
@[simp] theorem withOutside_readP (o : State) (r : PReg) : (s.withOutside o).readP r = s.readP r := rfl

/-- A command does the same whatever stands outside its reach (R22, R26, R36, R61). -/
theorem exec_withOutside (i : Instr) (s o : State) :
    ∃ t, exec i s = .next t ∧ exec i (s.withOutside o) = .next (t.withOutside o) := by
  cases i with
  | pfromb rd rs1 start count =>
    by_cases h : start + count ≤ 4
    · exact ⟨(s.setP rd (fromBlocks (s.readBits rs1) start count)).retire,
        by simp [exec, execPfromb, blockRangeOk, h, complete], by simp [exec, execPfromb, blockRangeOk, h, complete]; rfl⟩
    · exact ⟨_, by simp [exec, execPfromb, blockRangeOk, h, raise]; rfl, by
        simp [exec, execPfromb, blockRangeOk, h, raise]; rfl⟩
  | pgetb rd rs1 k =>
    by_cases h : k < 4
    · exact ⟨(s.setX rd (block (s.readBits rs1) k)).retire,
        by simp [exec, execPgetb, blockIndexOk, h, complete], by simp [exec, execPgetb, blockIndexOk, h, complete]; rfl⟩
    · exact ⟨_, by simp [exec, execPgetb, blockIndexOk, h, raise]; rfl, by
        simp [exec, execPgetb, blockIndexOk, h, raise]; rfl⟩
  | psetb rd rs1 k =>
    by_cases h : k < 4
    · exact ⟨(s.setP rd (setBlock (s.readBits rd) k (s.readX rs1))).retire,
        by simp [exec, execPsetb, blockIndexOk, h, complete], by simp [exec, execPsetb, blockIndexOk, h, complete]; rfl⟩
    · exact ⟨_, by simp [exec, execPsetb, blockIndexOk, h, raise]; rfl, by
        simp [exec, execPsetb, blockIndexOk, h, raise]; rfl⟩
  | pbit rd rs1 n =>
    by_cases h : n < 256
    · exact ⟨(s.setX rd (zext64 (BitVec.ofBool (coefficient (s.readBits rs1) n)))).retire,
        by simp [exec, execPbit, bitIndexOk, h, complete], by simp [exec, execPbit, bitIndexOk, h, complete]; rfl⟩
    · exact ⟨_, by simp [exec, execPbit, bitIndexOk, h, raise]; rfl, by
        simp [exec, execPbit, bitIndexOk, h, raise]; rfl⟩
  | _ => exact ⟨_, rfl, rfl⟩

end Sys2Proof.Machine
end

