-- ==== Sys2Proof/Laws/PerInstr.lean ====
section
/-! SUPPORT. Per-instruction facts about syntax: every command's word is of the row spec/30_encoding.md R74 gives it. -/

namespace Sys2Proof.Laws.EncodesToRow

/-- The word of a command passes its row's mask and shows its row's opcode (R74, R76). -/
def Statement (i : Instr) : Prop := encode i &&& formatMask (opcodeRow i).fmt = opMatch (opcodeRow i).op

theorem nop : Statement .nop := packN_mask _

theorem log2w (rd rs1 : XReg) : Statement (.log2w rd rs1) := packR2_mask _ _ _

theorem log2h (rd rs1 : XReg) : Statement (.log2h rd rs1) := packR2_mask _ _ _

theorem clzw (rd rs1 : XReg) : Statement (.clzw rd rs1) := packR2_mask _ _ _

theorem clzh (rd rs1 : XReg) : Statement (.clzh rd rs1) := packR2_mask _ _ _

theorem ilv16 (rd rs1 rs2 : XReg) : Statement (.ilv16 rd rs1 rs2) := packR_mask _ _ _ _

theorem ilv32 (rd rs1 rs2 : XReg) : Statement (.ilv32 rd rs1 rs2) := packR_mask _ _ _ _

theorem conv16 (rd rs1 rs2 : XReg) : Statement (.conv16 rd rs1 rs2) := packR_mask _ _ _ _

theorem conv32 (rd rs1 rs2 : XReg) : Statement (.conv32 rd rs1 rs2) := packR_mask _ _ _ _

theorem xli (rd : XReg) (imm16 hw : Nat) : Statement (.xli rd imm16 hw) := packU_mask _ _ _ _

theorem xlk (rd : XReg) (imm16 hw : Nat) : Statement (.xlk rd imm16 hw) := packU_mask _ _ _ _

theorem pfromi (rd : PReg) (rs1 : XReg) : Statement (.pfromi rd rs1) := packR2_mask _ _ _

theorem pfromb (rd rs1 : PReg) (start count : Nat) : Statement (.pfromb rd rs1 start count) := packI_mask _ _ _ _

theorem pgetb (rd : XReg) (rs1 : PReg) (k : Nat) : Statement (.pgetb rd rs1 k) := packI_mask _ _ _ _

theorem psetb (rd : PReg) (rs1 : XReg) (k : Nat) : Statement (.psetb rd rs1 k) := packI_mask _ _ _ _

theorem pbit (rd : XReg) (rs1 : PReg) (i : Nat) : Statement (.pbit rd rs1 i) := packI_mask _ _ _ _

theorem pdeg (rd : XReg) (rs1 : PReg) : Statement (.pdeg rd rs1) := packR2_mask _ _ _

theorem psize (rd : XReg) (rs1 : PReg) : Statement (.psize rd rs1) := packR2_mask _ _ _

theorem pnub (rd : XReg) (rs1 : PReg) : Statement (.pnub rd rs1) := packR2_mask _ _ _

theorem pxor (rd rs1 rs2 : PReg) : Statement (.pxor rd rs1 rs2) := packR_mask _ _ _ _

theorem pand (rd rs1 rs2 : PReg) : Statement (.pand rd rs1 rs2) := packR_mask _ _ _ _

theorem por (rd rs1 rs2 : PReg) : Statement (.por rd rs1 rs2) := packR_mask _ _ _ _

theorem pslli (rd rs1 : PReg) (shamt : Nat) : Statement (.pslli rd rs1 shamt) := packI_mask _ _ _ _

theorem psrli (rd rs1 : PReg) (shamt : Nat) : Statement (.psrli rd rs1 shamt) := packI_mask _ _ _ _

theorem psll (rd rs1 : PReg) (rs2 : XReg) : Statement (.psll rd rs1 rs2) := packR_mask _ _ _ _

theorem psrl (rd rs1 : PReg) (rs2 : XReg) : Statement (.psrl rd rs1 rs2) := packR_mask _ _ _ _

theorem pmul (rd rs1 rs2 : PReg) : Statement (.pmul rd rs1 rs2) := packR_mask _ _ _ _

end Sys2Proof.Laws.EncodesToRow
end

