-- ==== Sys2Proof/Laws/Step.lean ====
section
/-! SUPPORT. What one step can do, said once. -/

namespace Sys2Proof.Machine

variable (s : State)

/-- Using a schedule entry changes nothing but the schedule. -/
theorem takeTurn_eq : ∃ l, s.takeTurn = { s with sched := l } := by
  unfold State.takeTurn
  split
  · exact ⟨_, rfl⟩
  · exact ⟨s.sched, rfl⟩

@[simp] theorem takeTurn_cmdq : s.takeTurn.cmdq = s.cmdq := by
  obtain ⟨l, h⟩ := takeTurn_eq s; rw [h]

@[simp] theorem takeTurn_inputs : s.takeTurn.inputs = s.inputs := by
  obtain ⟨l, h⟩ := takeTurn_eq s; rw [h]

@[simp] theorem takeTurn_err : s.takeTurn.err = s.err := by
  obtain ⟨l, h⟩ := takeTurn_eq s; rw [h]

@[simp] theorem takeTurn_inReset : s.takeTurn.inReset = s.inReset := by
  obtain ⟨l, h⟩ := takeTurn_eq s; rw [h]

/-- The sequencer's turn: a command waits and reset is released. -/
theorem sequencerReady_of_turn (h : s.turn = some .sequencer) : s.sequencerReady = true := by
  unfold State.turn State.contended at h
  by_cases hs : s.sequencerReady = true
  · exact hs
  · by_cases hh : s.hostReady = true <;> simp [hs, hh] at h

/-- The host port's turn: the first input may take effect. -/
theorem hostReady_of_turn (h : s.turn = some .host) : s.hostReady = true := by
  unfold State.turn State.contended at h
  by_cases hh : s.hostReady = true
  · exact hh
  · by_cases hs : s.sequencerReady = true <;> simp [hs, hh] at h

/-- Nobody's turn: neither agent can move. -/
theorem not_ready_of_turn (h : s.turn = none) : s.sequencerReady = false ∧ s.hostReady = false := by
  unfold State.turn State.contended at h
  by_cases hs : s.sequencerReady = true <;> by_cases hh : s.hostReady = true <;> simp_all

/-- What a step does, by whose turn it is: the sequencer runs the head of CMDQ, the first input takes effect, or the
idle core keeps its state (R180, R198). -/
theorem step_cases :
    (∃ w q, s.turn = some .sequencer ∧ s.inReset = false ∧ s.cmdq = w :: q ∧
        step s = runCommand w (s.takeTurn.withQueue q)) ∨
      (∃ i rest, s.turn = some .host ∧ s.hostReady = true ∧ s.inputs = i :: rest ∧
        step s = .next (performInput i { s.takeTurn with inputs := rest })) ∨
      (s.turn = none ∧ s.sequencerReady = false ∧ s.hostReady = false ∧ step s = .next s) := by
  rcases ht : s.turn with _ | (_ | _)
  · exact .inr (.inr ⟨rfl, (not_ready_of_turn s ht).1, (not_ready_of_turn s ht).2, by simp [step, coreStep, ht]⟩)
  · have hr := sequencerReady_of_turn s ht
    simp only [State.sequencerReady, Bool.and_eq_true, Bool.not_eq_true'] at hr
    rcases hq : s.cmdq with _ | ⟨w, q⟩
    · simp [hq] at hr
    · exact .inl ⟨w, q, rfl, hr.1, rfl, by simp [step, coreStep, ht, sequencerStep, hq]⟩
  · have hr := hostReady_of_turn s ht
    rcases hi : s.inputs with _ | ⟨i, rest⟩
    · simp [State.hostReady, hi] at hr
    · exact .inr (.inl ⟨i, rest, rfl, hr, rfl, by simp [step, coreStep, ht, hostStep, hi]⟩)

/-- What the sequencer does with a word: discards it, completes it, or faults it (R180, R186). -/
theorem runCommand_cases (w : Command) :
    (s.err = true ∧ runCommand w s = .next s) ∨
      (s.err = false ∧ ∃ why, decode w = .illegal why ∧ runCommand w s = .next (s.enterFault .illegalCommand w)) ∨
      (s.err = false ∧ ∃ i, decode w = .ok i ∧ runCommand w s = exec i s) := by
  unfold runCommand
  by_cases he : s.err = true
  · exact .inl ⟨he, by simp [he]⟩
  · have he' : s.err = false := by simpa using he
    rcases hd : decode w with i | why
    · exact .inr (.inr ⟨he', i, rfl, by simp [he']⟩)
    · exact .inr (.inl ⟨he', why, rfl, by simp [he', raise]⟩)

/-- A command word does the same whatever stands outside a command's reach. -/
theorem runCommand_withOutside (w : Command) (s o : State) :
    ∃ t, runCommand w s = .next t ∧ runCommand w (s.withOutside o) = .next (t.withOutside o) := by
  by_cases he : s.err = true
  · exact ⟨s, by simp [runCommand, he], by simp [runCommand, State.withOutside, he]⟩
  · rcases hd : decode w with i | why
    · obtain ⟨t, h1, h2⟩ := exec_withOutside i s o
      exact ⟨t, by simp [runCommand, he, hd, h1], by
        rw [← h2]; simp [runCommand, State.withOutside, he, hd]⟩
    · exact ⟨s.enterFault .illegalCommand w, by simp [runCommand, he, hd, raise], by
        simp [runCommand, State.withOutside, he, hd, raise, State.enterFault]⟩

/-- A queue of commands does the same whatever stands outside a command's reach. -/
theorem runQueue_withOutside (o : State) : ∀ (q : List Command) (s : State),
    runQueue q (s.withOutside o) = (runQueue q s).withOutside o
  | [], _ => rfl
  | w :: q, s => by
    obtain ⟨t, h1, h2⟩ := runCommand_withOutside w s o
    simp [runQueue, h1, h2, runQueue_withOutside o q t]

/-- With CMDQ empty nothing is left to settle (R198). -/
theorem settled_of_empty (h : s.cmdq = []) : s.settled = s := by
  cases s; simp_all [State.settled, runQueue, State.withQueue]

/-- The sequencer's step leaves the settled state as it is, but for the schedule entry it may use (R61, R214). -/
theorem settled_of_sequencer {s t : State} (ht : s.turn = some .sequencer) (h : step s = .next t) :
    ∃ l, t.settled = { s.settled with sched := l } := by
  obtain ⟨l, hl⟩ := takeTurn_eq s
  rcases step_cases s with ⟨w, q, -, -, hq, hs⟩ | ⟨i, rest, hh, -⟩ | ⟨hn, -⟩
  · obtain ⟨v, h1, h2⟩ := runCommand_withOutside w (s.withQueue []) { s with cmdq := q, sched := l }
    have hb : s.takeTurn.withQueue q = (s.withQueue []).withOutside { s with cmdq := q, sched := l } := by rw [hl]; rfl
    obtain rfl : v.withOutside { s with cmdq := q, sched := l } = t := by
      rw [hs, hb, h2] at h; exact Host.Outcome.next.inj h
    have hx : s.settled = runQueue q v := by simp [State.settled, hq, runQueue, h1]
    have hself : (runQueue q v).withOutside (s.withQueue []) = runQueue q v := by
      have := runQueue_withOutside (s.withQueue []) (w :: q) (s.withQueue [])
      rw [show (s.withQueue []).withOutside (s.withQueue []) = s.withQueue [] from rfl] at this
      simpa [runQueue, h1] using this.symm
    refine ⟨l, ?_⟩
    rw [hx, ← hself]
    exact runQueue_withOutside { s with cmdq := [], sched := l } q v
  · simp [ht] at hh
  · simp [ht] at hn

end Sys2Proof.Machine
end

