-- ==== Sys2Proof/Tests/Slice0.lean ====
section
/-! SUPPORT. The model's own tests: the WellFormed smoke tests, decoding of one word per command, results from the
spec's vectors (95_test_vectors.md, named V-…), the host window, the assembler, and the witnesses of the statements'
hypotheses. -/

namespace Sys2Proof.Tests

open Sys2Proof.Machine

/-! ### WellFormed: one ill-formed term for each check (30_encoding.md R78) -/

theorem test_imm14_too_wide : ¬ WellFormed (.pgetb 1 2 16384) := by decide

theorem test_imm14_widest : WellFormed (.psrli 1 2 16383) := by decide

theorem test_start_too_wide : ¬ WellFormed (.pfromb 1 2 128 0) := by decide

theorem test_count_too_wide : ¬ WellFormed (.pfromb 1 2 0 128) := by decide

theorem test_imm16_too_wide : ¬ WellFormed (.xli 1 65536 0) := by decide

theorem test_hw_too_wide : ¬ WellFormed (.xlk 1 0 4) := by decide

/-! ### Decoding: a word per command. Hexadecimal words are printed in 95_test_vectors.md; binary words are written out
from R71, R72 and R74 as op, rd, rs1, then rs2 and 0 (R), or 0 (R2), or 0 and imm14 (I). -/

theorem test_decode_nop : decode 0x04000000#32 = .ok .nop := by decide

theorem test_decode_log2w : decode 0x11500000#32 = .ok (.log2w 5 4) := by decide

theorem test_decode_log2h : decode 0b000101_0010_1001_000000000000000000#32 = .ok (.log2h 2 9) := by decide

theorem test_decode_clzw : decode 0x19800000#32 = .ok (.clzw 6 0) := by decide

theorem test_decode_clzh : decode 0b000111_1111_0001_000000000000000000#32 = .ok (.clzh 15 1) := by decide

theorem test_decode_ilv16 : decode 0x20C48000#32 = .ok (.ilv16 3 1 2) := by decide

theorem test_decode_ilv32 : decode 0b001001_0001_0010_1100_00000000000000#32 = .ok (.ilv32 1 2 12) := by decide

theorem test_decode_conv16 : decode 0x29048000#32 = .ok (.conv16 4 1 2) := by decide

theorem test_decode_conv32 : decode 0b001011_0111_1000_0011_00000000000000#32 = .ok (.conv32 7 8 3) := by decide

theorem test_decode_xli : decode 0x3042BEEF#32 = .ok (.xli 1 0xBEEF 2) := by decide

theorem test_decode_xlk : decode 0x34401234#32 = .ok (.xlk 1 0x1234 0) := by decide

theorem test_decode_pfromi : decode 0x40840000#32 = .ok (.pfromi 2 1) := by decide

theorem test_decode_pfromb : decode 0x45440182#32 = .ok (.pfromb 5 1 3 2) := by decide

theorem test_decode_pgetb : decode 0x48840003#32 = .ok (.pgetb 2 1 3) := by decide

theorem test_decode_psetb : decode 0b010011_0001_0011_0000_00000000000011#32 = .ok (.psetb 1 3 3) := by decide

theorem test_decode_pbit : decode 0x50840100#32 = .ok (.pbit 2 1 256) := by decide

theorem test_decode_pdeg : decode 0x550C0000#32 = .ok (.pdeg 4 3) := by decide

theorem test_decode_psize : decode 0b010110_0010_0001_000000000000000000#32 = .ok (.psize 2 1) := by decide

theorem test_decode_pnub : decode 0x5CC80000#32 = .ok (.pnub 3 2) := by decide

theorem test_decode_pxor : decode 0x610C4000#32 = .ok (.pxor 4 3 1) := by decide

theorem test_decode_pand : decode 0b011001_0011_0001_0010_00000000000000#32 = .ok (.pand 3 1 2) := by decide

theorem test_decode_por : decode 0b011010_0011_0001_0010_00000000000000#32 = .ok (.por 3 1 2) := by decide

theorem test_decode_pslli : decode 0x70C4003C#32 = .ok (.pslli 3 1 60) := by decide

theorem test_decode_psrli : decode 0x74C80064#32 = .ok (.psrli 3 2 100) := by decide

theorem test_decode_psll : decode 0b011110_0010_0001_0011_00000000000000#32 = .ok (.psll 2 1 3) := by decide

theorem test_decode_psrl : decode 0b011111_0010_0001_0011_00000000000000#32 = .ok (.psrl 2 1 3) := by decide

theorem test_decode_pmul : decode 0x80C48000#32 = .ok (.pmul 3 1 2) := by decide

/-- V-CT-2 to V-CT-5, V-CT-8. -/
theorem test_decode_illegal :
    [0x04000001#32, 0x00000000#32, 0x6C000000#32, 0x80C48001#32, 0x3044BEEF#32].map decode =
      [.illegal .mustBeZero, .illegal .zeroOpcode, .illegal .unassignedOpcode, .illegal .mustBeZero,
        .illegal .mustBeZero] := by decide

/-! ### Results. `A` is the vectors' test polynomial. -/

/-- x1 and x2 hold `a` and `b`. -/
def withX (a b : Word) : State := (State.reset.setX 1 a).setX 2 b

/-- P1 and P2 hold `a` and `b`. -/
def withP (a b : Coeffs) : State := (State.reset.setP 1 a).setP 2 b

/-- The polynomial A of 95_test_vectors.md. -/
def polyA : Coeffs := ofBlocks 0x8000000000000000#64 0#64 0x00000000DEADBEEF#64 0x8000000000000001#64

/-- What a command leaves in X register `r`. -/
def xAfter (r : XReg) (i : Instr) (s : State) : Option Word :=
  match exec i s with
  | .next t => some (t.readX r)
  | _ => none

/-- The X result of a scan and Z. -/
def scanAfter (r : XReg) (i : Instr) (s : State) : Option (Word × Bool) :=
  match exec i s with
  | .next t => some (t.readX r, t.z)
  | _ => none

/-- What a command leaves in P register `r`: its blocks, its degree, and OVF. -/
def pAfter (r : PReg) (i : Instr) (s : State) : Option (Coeffs × Int × Bool) :=
  match exec i s with
  | .next t => some (t.readBits r, t.readDeg r, t.ovf)
  | _ => none

/-- ERR, CAUSE, ERRCMD and CMDCNT after a command. -/
def errorAfter (i : Instr) (s : State) : Option (Bool × Cause × Command × BitVec 32) :=
  match exec i s with
  | .next t => some (t.err, t.cause, t.errcmd, t.cmdcnt)
  | _ => none

/-- V-CT-1. -/
theorem test_nop_counts : errorAfter .nop State.reset = some (false, .none, 0#32, 1#32) := by decide

/-- V-BS-12, V-BS-1. -/
theorem test_log2w : scanAfter 3 (.log2w 3 1) (withX 0xFFFFFFFF00000001#64 0#64) = some (63#64, false) ∧
    scanAfter 3 (.log2w 3 2) (withX 0#64 0#64) = some (0#64, true) := by decide

/-- V-BS-9, V-BS-8. -/
theorem test_log2h : scanAfter 3 (.log2h 3 1) (withX 0x100000000#64 0#64) = some (0#64, true) ∧
    scanAfter 1 (.log2h 1 1) (withX 0xFFFFFFFF#64 0#64) = some (31#64, false) := by decide

/-- V-BS-1, V-BS-6. -/
theorem test_clzw : scanAfter 3 (.clzw 3 1) (withX 0#64 0#64) = some (64#64, true) ∧
    scanAfter 3 (.clzw 3 1) (withX 0x10000#64 0#64) = some (47#64, false) := by decide

/-- V-BS-10, V-BS-12. -/
theorem test_clzh : scanAfter 3 (.clzh 3 1) (withX 0x8000000000000000#64 0#64) = some (32#64, true) ∧
    scanAfter 3 (.clzh 3 1) (withX 0xFFFFFFFF00000001#64 0#64) = some (31#64, false) := by decide

/-- V-IL-7, V-IL-8. -/
theorem test_ilv16 : xAfter 3 (.ilv16 3 1 2) (withX 0x1234#64 0xABCD#64) = some 0x898EA5B2#64 ∧
    xAfter 3 (.ilv16 3 1 2) (withX 0x10001#64 0#64) = some 1#64 := by decide +kernel

/-- V-IL-13. -/
theorem test_ilv32 : xAfter 3 (.ilv32 3 1 2) (withX 0x12345678#64 0x9ABCDEF0#64) = some 0x838C8FB0B3BCBF40#64 := by
  decide +kernel

/-- V-CONV-6, V-CONV-13. -/
theorem test_conv16 : xAfter 3 (.conv16 3 1 2) (withX 0x1234#64 0x5678#64) = some 0x05C58160#64 ∧
    xAfter 3 (.conv16 3 1 2) (withX 0x10003#64 3#64) = some 5#64 := by decide +kernel

/-- V-CONV-11. -/
theorem test_conv32 : xAfter 3 (.conv32 3 1 2) (withX 0xDEADBEEF#64 0xCAFEBABE#64) = some 0x5FFF0846B6B7038A#64 := by
  decide +kernel

/-- V-CT-6. -/
theorem test_xli : xAfter 1 (.xli 1 0xBEEF 2) (withX 0xFFFF#64 0#64) = some 0x0000BEEF00000000#64 := by decide

/-- V-CT-7. -/
theorem test_xlk : xAfter 1 (.xlk 1 0x1234 0) (withX 0x0000BEEF00000000#64 0#64) = some 0x0000BEEF00001234#64 := by
  decide

/-- The start polynomial of V-BA-1 to V-BA-13, with x1 = 0x1234 and x3 = 0. -/
def blockArrayStart : State :=
  (State.reset.setX 1 0x1234#64).setP 1 (ofBlocks 0x8000000000000000#64 0#64 0xAA#64 0xB#64)

/-- V-BA-1. -/
theorem test_pfromi : pAfter 2 (.pfromi 2 1) blockArrayStart = some (0x1234#256, 12, false) := by decide

/-- V-BA-2, V-BA-3. -/
theorem test_pfromb : pAfter 3 (.pfromb 3 1 1 2) blockArrayStart = some (0xAA#256, 7, false) ∧
    pAfter 4 (.pfromb 4 1 4 0) blockArrayStart = some (0#256, -1, false) := by decide

/-- V-BA-4. -/
theorem test_pfromb_fault :
    errorAfter (.pfromb 5 1 3 2) blockArrayStart = some (true, .blockIndexRange, 0x45440182#32, 0#32) := by decide

/-- V-BA-7. -/
theorem test_pgetb : xAfter 2 (.pgetb 2 1 3) blockArrayStart = some 0x8000000000000000#64 := by decide

/-- V-BA-8. -/
theorem test_pgetb_fault :
    errorAfter (.pgetb 2 1 4) blockArrayStart = some (true, .blockIndexRange, 0x48840004#32, 0#32) := by decide

/-- V-BA-13: the degree falls to that of the next block. -/
theorem test_psetb : pAfter 1 (.psetb 1 3 3) blockArrayStart = some (ofBlocks 0#64 0#64 0xAA#64 0xB#64, 71, false) := by
  decide

/-- V-BA-9, V-BA-10. -/
theorem test_pbit : xAfter 2 (.pbit 2 1 255) blockArrayStart = some 1#64 ∧
    xAfter 2 (.pbit 2 1 2) blockArrayStart = some 0#64 := by decide

/-- V-BA-11. -/
theorem test_pbit_fault :
    errorAfter (.pbit 2 1 256) blockArrayStart = some (true, .bitIndexRange, 0x50840100#32, 0#32) := by decide

/-- V-BA-20, V-BA-12. -/
theorem test_pdeg : xAfter 2 (.pdeg 2 5) blockArrayStart = some 0xFFFFFFFFFFFFFFFF#64 ∧
    xAfter 2 (.pdeg 2 1) blockArrayStart = some 0xFF#64 := by decide

/-- V-BA-12, V-BA-20. -/
theorem test_psize : xAfter 2 (.psize 2 1) blockArrayStart = some 0x100#64 ∧
    xAfter 2 (.psize 2 5) blockArrayStart = some 0#64 := by decide

/-- V-BA-22, V-BA-23. -/
theorem test_pnub : xAfter 3 (.pnub 3 1) (withP (1#256 <<< 63) 0#256) = some 1#64 ∧
    xAfter 3 (.pnub 3 1) (withP (1#256 <<< 64) 0#256) = some 2#64 := by decide

/-- V-BA-41. -/
theorem test_pxor : pAfter 3 (.pxor 3 1 2) (withP 0x21#256 0x22#256) = some (0x3#256, 1, false) := by decide

/-- V-BA-43. -/
theorem test_pand : pAfter 3 (.pand 3 1 2) (withP (0xFFFF#256 <<< 120) (0xFF#256 <<< 124)) =
    some (ofBlocks 0#64 0x0F#64 0xF000000000000000#64 0#64, 131, false) := by decide

/-- V-BA-43. -/
theorem test_por : pAfter 3 (.por 3 1 2) (withP (0xFFFF#256 <<< 120) (0xFF#256 <<< 124)) =
    some (ofBlocks 0#64 0xFF#64 0xFF00000000000000#64 0#64, 135, false) := by decide

/-- V-SH-11, V-SH-8. -/
theorem test_pslli : pAfter 2 (.pslli 2 1 63) (withP polyA 0#256) =
      some (ofBlocks 0#64 0x000000006F56DF77#64 0xC000000000000000#64 0x8000000000000000#64, 158, true) ∧
    pAfter 2 (.pslli 2 1 253) (withP 0xB#256 0#256) = some (ofBlocks 0x6000000000000000#64 0#64 0#64 0#64, 254, true) := by
  decide +kernel

/-- V-SH-30: the amount is not reduced. -/
theorem test_psll : pAfter 2 (.psll 2 1 3) ((withP 1#256 0#256).setX 3 0xFFFFFFFFFFFFFFFF#64) =
    some (0#256, -1, true) := by decide +kernel

/-- V-SH-23. -/
theorem test_psrli : pAfter 2 (.psrli 2 1 65) (withP polyA 0#256) =
    some (ofBlocks 0#64 0x4000000000000000#64 0#64 0x000000006F56DF77#64, 190, false) := by decide +kernel

/-- V-SH-31, V-SH-32. -/
theorem test_psrl : pAfter 2 (.psrl 2 1 3) ((withP polyA 0#256).setX 3 0xFFFFFFFFFFFFFFFF#64) =
      some (0#256, -1, false) ∧
    pAfter 2 (.psrl 2 1 3) ((withP (1#256 <<< 255) 0#256).setX 3 255#64) = some (1#256, 0, false) := by decide +kernel

/-- V-MUL-13: A times A, truncated. -/
theorem test_pmul : pAfter 3 (.pmul 3 1 1) (withP polyA 0#256) =
    some (ofBlocks 0#64 0x5154445145545455#64 0x4000000000000000#64 0x1#64, 190, true) := by decide +kernel

/-- V-MUL-5, V-MUL-6: degree sums 255 and 256. -/
theorem test_pmul_boundary : pAfter 3 (.pmul 3 1 2) (withP (1#256 <<< 200) (1#256 <<< 55)) =
      some (1#256 <<< 255, 255, false) ∧
    pAfter 3 (.pmul 3 1 2) (withP (1#256 <<< 200) (1#256 <<< 56)) = some (0#256, -1, true) := by decide +kernel

/-- V-MUL-15, through the Karatsuba datapath of R155 to R157. -/
theorem test_kmul : kmul 0xDEADBEEFCAFEBABE#256 0x0123456789ABCDEF#256 =
    ofBlocks 0#64 0#64 0x00C42FDE8B6B5592#64 0xF099825FE2AF618A#64 := by decide +kernel

/-! ### Steps -/

/-- The state with `w` as the next command. -/
def next (w : Command) : State := State.reset.withNextCommand w

/-- A state in which the host port has one input to perform and the core is idle. -/
def hostDoes (i : Input) : State := { State.reset with inputs := [i] }

/-- What a step leaves of the error registers. -/
def errorAfterStep (s : State) : Option (Bool × Cause × Command × BitVec 32) :=
  match step s with
  | .next t => some (t.err, t.cause, t.errcmd, t.cmdcnt)
  | _ => none

/-- A step runs the placed command on the state with an empty queue (R180). -/
theorem test_step_runs_command : step (State.reset.withFetchWord 32 0x44C40082) = exec (.pfromb 3 1 1 2) State.reset := by
  rfl

/-- V-CT-5: an illegal word faults with cause 1 and is recorded. -/
theorem test_step_illegal :
    errorAfterStep (next 0x80C48001#32) = some (true, .illegalCommand, 0x80C48001#32, 0#32) := by decide

/-- V-CT-9: while ERR = 1 a command is discarded. -/
theorem test_step_discards : errorAfterStep { next 0x04000000#32 with err := true, cause := .bitIndexRange } =
    some (true, .bitIndexRange, 0#32, 0#32) := by decide

/-- L3-3: the STATUS word with CAUSE 3, Z and ERR reads 0x30A. -/
theorem test_status_word : (match step { hostDoes (.access (.read 0x010 8)) with
      err := true, z := true, cause := .blockIndexRange } with
    | .next t => t.outputs
    | _ => []) = [.data 0x30A#64] := by decide

/-- L3-3: writing 0x100 to CTRL clears the error and leaves Z (R36). -/
theorem test_ctrl_clears_error : (match step { hostDoes (.access (.write 0x018 8 0x100#64)) with
      err := true, z := true, cause := .blockIndexRange, errcmd := 0x49C00004#32 } with
    | .next t => (t.err, t.cause, t.errcmd, t.z, t.outputs)
    | _ => (true, .none, 0#32, false, [])) = (false, .none, 0#32, true, [.written]) := by decide

/-- R52: an access that is not 8 bytes wide gets BUS_ERROR. -/
theorem test_bus_error : (match step (hostDoes (.access (.write 0x100 4 0xFF#64))) with
    | .next t => (t.readX 0, t.outputs)
    | _ => (1#64, [])) = (0#64, [.busError]) := by decide

/-- R57: x^65 in P0 is bit 1 of byte 0x208. -/
theorem test_coefficient_byte : (State.reset.setP 0 (1#256 <<< 65)).windowByte 0x208 = some 0b00000010#8 := by decide

/-! ### The assembler (R78, R79) -/

/-- V-BA-2 and the words of li64 in L3-2, with a comment and a mnemonic in capitals. -/
theorem test_assemble : assemble "PFROMB p3, p1, 1, 2 ; V-BA-2\nli64 x1, 0xDEADBEEFCAFEBABE".toList =
    some [0x44C40082#32, 0x3043DEAD#32, 0x3442BEEF#32, 0x3441CAFE#32, 0x3440BABE#32] := by decide +kernel

/-- An immediate that does not fit its field is refused. -/
theorem test_assemble_refuses : assembleLine "pslli p1, p2, 16384".toList = none := by decide +kernel

/-! ### Witnesses: for each statement with hypotheses, a state and operands that meet them all -/

/-- DecodeOfEncodeIsTheCommand, at the widest immediates. -/
theorem test_witness_wellFormed : WellFormed (.pfromb 15 15 127 127) ∧ WellFormed (.xlk 15 65535 3) ∧
    WellFormed (.pbit 0 0 16383) := by decide

/-- EncodeOfDecodeIsTheWord, DecodedOperandsAreTheWordsFields, WordsDecodeByTheOpcodeTable. -/
theorem test_witness_decodes : decode 0x48843FFF#32 = .ok (.pgetb 2 1 16383) ∧
    (0x48840000#32, 0xFC03C000#32) ∉ opcodeTable ∧ (0x48000000#32, 0xFC03C000#32) ∈ opcodeTable ∧
    0x48843FFF#32 &&& 0xFC03C000#32 = 0x48000000#32 := by decide

/-- IllegalWordsAreRefused, one word per clause and at the ends of the opcode ranges. -/
theorem test_witness_illegal : (0x03FFFFFF#32).toNat / 2 ^ 26 = 0 ∧ (0x08000000#32).toNat / 2 ^ 26 = 0x02 ∧
    (0x6C000000#32).toNat / 2 ^ 26 = 0x1B ∧ (0x84000000#32).toNat / 2 ^ 26 = 0x21 ∧
    (0xFFFFFFFF#32).toNat / 2 ^ 26 = 0x3F ∧
    ((0x80C48001#32).toNat / 2 ^ 26 = (opcodeRow (.pmul 0 0 0)).op ∧
      0x80C48001#32 &&& (formatMask (opcodeRow (.pmul 0 0 0)).fmt &&& 0x03FFFFFF#32) ≠ 0) ∧
    ((∀ row ∈ opcodeTable, 0x80C48001#32 &&& row.2 ≠ row.1) ∧ State.reset.err = false) := by
  have h : opcodeTable.all (fun row => 0x80C48001#32 &&& row.2 != row.1) = true := by decide
  exact ⟨by decide, by decide, by decide, by decide, by decide, by decide,
    fun row hr => by simpa using List.all_eq_true.mp h row hr, rfl⟩

/-- StepRunsTheDecodedCommand, and SequencerStepIsTheCommandStep where the command completes. -/
theorem test_witness_sequencer : (next 0x04000000#32).turn = some .sequencer ∧
    (next 0x04000000#32).cmdq = [0x04000000#32] ∧ (next 0x04000000#32).err = false ∧
    decode 0x04000000#32 = .ok .nop ∧ rangeFault .nop = none ∧ decodeTableWord 32 0x04000000 = some .nop := by decide

/-- SequencerStepIsTheCommandStep and CausesAreRaisedAsListed where the word is illegal or its index out of range. -/
theorem test_witness_sequencer_faults : (next 0x00000000#32).turn = some .sequencer ∧
    decode 0x00000000#32 = .illegal .zeroOpcode ∧ (next 0x48840004#32).turn = some .sequencer ∧
    decode 0x48840004#32 = .ok (.pgetb 2 1 4) ∧ rangeFault (.pgetb 2 1 4) = some .blockIndexRange ∧
    rangeFault (.pgetb 2 1 3) = none ∧ rangeFault (.pbit 2 1 256) = some .bitIndexRange ∧
    rangeFault (.pbit 2 1 255) = none ∧ rangeFault (.pfromb 2 1 3 2) = some .blockIndexRange ∧
    rangeFault (.pfromb 2 1 4 0) = none := by decide

/-- A command waits behind a pending error. -/
def erring : State := { next 0x04000000#32 with err := true, cause := .bitIndexRange }

/-- SequencerStepIsTheCommandStep and OnlyTheHostClearsErr while ERR = 1. -/
theorem test_witness_erring : erring.turn = some .sequencer ∧ erring.cmdq = [0x04000000#32] ∧ erring.err = true := by
  decide

/-- The host writes `d` to CTRL of an idle core with ERR and OVF set. -/
def ctrlWrite (d : Word) : State :=
  { hostDoes (.access (.write 0x018 8 d)) with err := true, cause := .bitIndexRange, ovf := true }

/-- Reset is asserted at an idle core with ERR and OVF set. -/
def resetWhileErring : State := { hostDoes .assertReset with err := true, cause := .bitIndexRange, ovf := true }

/-- OnlyTheHostClearsErr and OvfIsSetExactlyByLostCoefficients: ERR and OVF set and cleared by one step. -/
theorem test_witness_err_changes : (∃ t, step (next 0#32) = .next t ∧ (next 0#32).err = false ∧ t.err = true) ∧
    (∃ t, step (ctrlWrite 0x100#64) = .next t ∧ (ctrlWrite 0x100#64).err = true ∧ t.err = false ∧
      (ctrlWrite 0x100#64).cause ≠ .none ∧ t.cause = .none) ∧
    (∃ t, step (ctrlWrite 0x200#64) = .next t ∧ (ctrlWrite 0x200#64).ovf = true ∧ t.ovf = false) ∧
    (∃ t, step resetWhileErring = .next t ∧ resetWhileErring.ovf = true ∧ t.err = false ∧ t.ovf = false) :=
  ⟨⟨_, rfl, rfl, rfl⟩, ⟨_, rfl, rfl, rfl, by decide, rfl⟩, ⟨_, rfl, rfl, rfl⟩, ⟨_, rfl, rfl, rfl, rfl⟩⟩

/-- RegistersReadAndWrittenAsListed: two states that agree on what LOG2W reads and differ elsewhere. -/
theorem test_witness_noninterference : rangeFault (.log2w 3 1) = none ∧
    (∀ r ∈ readsX (.log2w 3 1), (withX 5 6).readX r = (withX 5 7).readX r) ∧
    (withX 5 6).readX 2 ≠ (withX 5 7).readX 2 ∧
    (∃ t, exec (.log2w 3 1) (withX 5 6) = .next t) ∧ ∃ v, exec (.log2w 3 1) (withX 5 7) = .next v :=
  ⟨rfl, by decide, by decide, ⟨_, rfl⟩, ⟨_, rfl⟩⟩

/-- ZIsWrittenByTheScansOnly, CausesAreRaisedAsListed, IrqIsErrAndErrie: commands with a next state. -/
theorem test_witness_commands_answer : (∃ t, exec (.log2w 3 1) State.reset = .next t) ∧
    (∃ t, exec (.log2h 3 1) State.reset = .next t) ∧ (∃ t, exec (.clzw 3 1) State.reset = .next t) ∧
    (∃ t, exec (.clzh 3 1) State.reset = .next t) ∧
    (writesZ .nop = false ∧ maySetOvf .nop = false ∧ rangeFault .nop = none ∧ ∃ t, exec .nop State.reset = .next t) ∧
    (∃ t, exec (.pslli 2 1 256) (withP 1 1) = .next t) ∧ (∃ t, exec (.psll 2 1 3) (withP 1 1) = .next t) ∧
    ∃ t, exec (.pmul 3 1 2) (withP 1 1) = .next t :=
  ⟨⟨_, rfl⟩, ⟨_, rfl⟩, ⟨_, rfl⟩, ⟨_, rfl⟩, ⟨rfl, rfl, rfl, _, rfl⟩, ⟨_, rfl⟩, ⟨_, rfl⟩, ⟨_, rfl⟩⟩

/-- The invariants hold of the state with one command placed. -/
theorem test_witness_invariants : DegreeInv (next 0x40840000#32) ∧ ErrorInv (next 0x40840000#32) ∧
    QueueInv (next 0x40840000#32) ∧ ResetInv (next 0x40840000#32) ∧ ∃ t, step (next 0x40840000#32) = .next t :=
  ⟨by unfold DegreeInv; decide +kernel, ⟨fun _ => ⟨rfl, rfl⟩, fun h => absurd h (by decide)⟩,
    Nat.succ_le_succ (Nat.zero_le _), fun h => absurd h (by decide), _, rfl⟩

/-- Reset is asserted; the platform will release it. -/
def resetHeld (i : Input) : State := { State.reset.enterReset with inputs := [i] }

/-- ResetValuesHoldUntilRelease: reset held, then released. -/
theorem test_witness_release : ResetInv (resetHeld .releaseReset) ∧ (resetHeld .releaseReset).inReset = true ∧
    (resetHeld .releaseReset).inputs = [.releaseReset] ∧ ∃ t, step (resetHeld .releaseReset) = .next t :=
  ⟨fun _ => ⟨readX_reset, readP_reset, rfl, rfl, rfl, rfl, rfl, rfl, rfl, rfl⟩, rfl, rfl, _, rfl⟩

/-- AssertedResetClearsTheCore. -/
theorem test_witness_assert : resetWhileErring.turn = some .host ∧ resetWhileErring.inputs = [.assertReset] ∧
    (resetHeld (.access (.read 0 8))).inReset = true ∧
    (resetHeld (.access (.read 0 8))).inputs = [.access (.read 0 8)] := by decide

/-- Log2GivesTheHighestSetBit, ClzCountsTheLeadingZeros, ScanResultsAreRelated: inputs 0 and not 0, at both widths. -/
theorem test_witness_scans : ((withX 0 1).readX 1).toNat = 0 ∧ ((withX 0 1).readX 2).toNat ≠ 0 ∧
    ((withX 0x100000000#64 0xFFFFFFFF#64).readX 1).toNat % 2 ^ 32 = 0 ∧
    ((withX 0x100000000#64 0xFFFFFFFF#64).readX 2).toNat % 2 ^ 32 ≠ 0 ∧
    ((withX 0x100000000#64 0xFFFFFFFF#64).readX 2).toNat < 2 ^ 32 := by decide

/-- QueriesReadTheDegree, WindowReadsReturnTheRegisters: degrees right, with degrees -1 and 255 present. -/
theorem test_witness_degrees : DegreeInv (withP polyA 0) ∧ (withP polyA 0).readDeg 1 = 255 ∧
    (withP polyA 0).readDeg 2 = -1 := ⟨by unfold DegreeInv; decide +kernel, by decide +kernel, by decide⟩

/-- ShiftRoundTripInContract at the boundary: deg 0 shifted by 255. -/
theorem test_witness_round_trip : degree ((withP 1 0).readBits 1).toNat + ((255 : Nat) : Int) < 256 ∧
    ∃ t, exec (.pslli 2 1 255) (withP 1 0) = .next t ∧ ∃ u, exec (.psrli 3 2 255) t = .next u :=
  ⟨by decide, _, rfl, _, rfl⟩

/-- MultiplicationProperties and AnyValuePolicyConfinesTheDraw: operands 0, 1, and nonzero with degree sum 255. -/
theorem test_witness_products : (withP 0 1).readBits 1 = 0 ∧ (withP 1 0).readBits 1 = 1 ∧
    (withP (1#256 <<< 200) (1#256 <<< 55)).readBits 1 ≠ 0 ∧ (withP (1#256 <<< 200) (1#256 <<< 55)).readBits 2 ≠ 0 ∧
    degree ((withP (1#256 <<< 200) (1#256 <<< 55)).readBits 1).toNat +
      degree ((withP (1#256 <<< 200) (1#256 <<< 55)).readBits 2).toNat = 255 ∧
    ∃ t, exec (.pmul 3 1 2) (withP 0 1) = .next t :=
  ⟨by decide, by decide, by decide, by decide, by decide, _, rfl⟩

/-- AnyValuePolicyConfinesTheDraw beyond the capacity, at degree sum 256. -/
theorem test_witness_beyond : (withP (1#256 <<< 200) (1#256 <<< 56)).readBits 1 ≠ 0 ∧
    (withP (1#256 <<< 200) (1#256 <<< 56)).readBits 2 ≠ 0 ∧
    256 ≤ degree ((withP (1#256 <<< 200) (1#256 <<< 56)).readBits 1).toNat +
      degree ((withP (1#256 <<< 200) (1#256 <<< 56)).readBits 2).toNat := by decide

/-- ConstantsAreLoadedByHalfwords at the widest operands. -/
theorem test_witness_constants : WellFormed (.xli 15 65535 3) ∧ WellFormed (.xlk 15 65535 3) := by decide

/-- PseudoCommandsDoWhatTheySay, CoefficientsStandInTheirBytes and ClmulAddsDegrees at the ends of their ranges. -/
theorem test_witness_numbers : 65535 < 2 ^ 16 ∧ 255 < 256 ∧ (1 : Nat) ≠ 0 ∧ 2 ^ 255 ≠ 0 := by decide

/-- StatusWordShowsTheFields and CtrlWritesActOnce: CMDQ empty, and action bits 1 and 0. -/
theorem test_witness_status_ctrl : State.reset.cmdq = [] ∧ (0x300#64).getLsbD 8 = true ∧
    (0x300#64).getLsbD 9 = true ∧ (0x001#64).getLsbD 8 = false ∧ (0x001#64).getLsbD 9 = false := by decide

/-- The host submits the command word in `d` to an idle core. -/
def submitting (d : Word) : State := hostDoes (.access (.write 0x008 8 d))

/-- CmdWritesQueueTheWord: room for the word. -/
theorem test_witness_submit : (submitting 0x4000000#64).inReset = false ∧
    (submitting 0x4000000#64).inputs = [.access (.write 0x008 8 0x4000000#64)] ∧
    (submitting 0x4000000#64).turn = some .host := by decide

/-- A core whose CMDQ is full, with a CMD write waiting. -/
def full : State := { submitting 0#64 with cmdq := List.replicate Config.cmdqDepth 0x04000000#32 }

/-- CmdWritesQueueTheWord: a full CMDQ, for every depth. -/
theorem test_witness_full : full.inReset = false ∧ full.inputs = [.access (.write 0x008 8 0#64)] ∧
    Config.cmdqDepth ≤ full.cmdq.length := ⟨rfl, rfl, by simp [full]⟩

/-- CmdWritesQueueTheWord: room, for every depth. -/
theorem test_witness_room : (submitting 0#64).inReset = false ∧ (submitting 0#64).cmdq = [] ∧
    (submitting 0#64).inputs = [.access (.write 0x008 8 0#64)] ∧
    (submitting 0#64).cmdq.length < Config.cmdqDepth := ⟨rfl, rfl, rfl, Nat.succ_pos _⟩

/-- The host reads X0 while a command waits. -/
def waiting : State := { next 0x04000000#32 with inputs := [.access (.read 0x100 8)] }

/-- OtherAccessesWaitForTheQueue: an access that may perform, and one that waits. -/
theorem test_witness_wait : (hostDoes (.access (.read 0x100 8))).turn = some .host ∧
    (hostDoes (.access (.read 0x100 8))).inReset = false ∧ accessOffset (.read 0x100 8) ≠ 0x008 ∧
    accessOffset (.read 0x100 8) ≠ 0x010 ∧ waiting.inReset = false ∧ waiting.cmdq ≠ [] ∧
    waiting.inputs = [.access (.read 0x100 8)] := by decide

/-- A command waits and the host submits another. -/
def contending : State := { next 0x04000000#32 with inputs := [.access (.write 0x008 8 0x04000000#64)] }

/-- The host reads STATUS while the illegal word 0 waits; the schedule lets the host or the sequencer go first. -/
def polling (first : Agent) : State :=
  { next 0#32 with inputs := [.access (.read 0x010 8)], sched := [first] }

/-- R61 and R214, as log 20 reads them: but for BUSY, a draw, that read shows the ERR and CAUSE the fault will leave. -/
theorem test_status_in_program_order : (polling .host).settled.statusBits false = 0x102#64 ∧
    (polling .host).err = false ∧ (errorAfterStep (polling .sequencer)).map (fun e => e.1) = some true := by decide

/-- StepPerformsTheHostsAccess: with CMDQ empty, and with the schedule's head the host and the sequencer. -/
theorem test_witness_host_turn : (hostDoes (.access (.read 0x100 8))).cmdq = [] ∧ (polling .host).cmdq ≠ [] ∧
    (polling .host).inReset = false ∧ (polling .host).inputs = [.access (.read 0x010 8)] ∧
    (polling .host).sched.head? = some .host ∧ (polling .host).turn = some .host ∧
    (polling .sequencer).turn = some .sequencer ∧ (polling .host).accessReady (.read 0x010 8) = true := by decide

/-- OnlyBusyDependsOnTiming. -/
theorem test_witness_timing : (polling .sequencer).turn = some .sequencer ∧
    (∃ t, step (polling .sequencer) = .next t) ∧ accessReg 0x100 8 = some (.x 0) ∧ (polling .host).cmdq ≠ [] :=
  ⟨by decide, ⟨_, rfl⟩, by decide, by decide⟩

/-- CommandsAndSubmissionsCommute. -/
theorem test_witness_commute : contending.inReset = false ∧ contending.cmdq ≠ [] ∧
    contending.inputs = [.access (.write 0x008 8 0x04000000#64)] ∧ (∃ t, sequencerStep contending = .next t) ∧
    ∃ u, hostStep contending = .next u :=
  ⟨by decide, by decide, by decide, ⟨_, rfl⟩, ⟨_, rfl⟩⟩

/-- OutstandingWorkIsFinished: work is left, the invariant holds, and one access is to be answered. -/
theorem test_witness_outstanding : ResetInv contending ∧ outstanding contending = 3 ∧
    answers contending.inReset contending.inputs = 1 :=
  ⟨fun h => absurd h (by decide), by decide, by decide⟩

/-- AssemblerRefusesWhatDoesNotFit. -/
theorem test_witness_assembles : assembleLine "nop".toList = some [.nop] := by decide +kernel

/-- OtherAccessesGetBusError: the ends of the holes, and the last mapped offset. -/
theorem test_witness_offsets : [0x028, 0x030, 0x0F8, 0x100, 0x178, 0x180, 0x1F8, 0x200, 0x478, 0x480].map
    (fun off => (accessReg off 8).isSome) =
      [true, false, false, true, true, false, false, true, true, false] := by decide

end Sys2Proof.Tests
end

section
/-! The word of a decoded command (spec/30_encoding.md R71 to R76): each format's word is put together again from its
fields, so a fault that records the command's word records the word that was taken (log 7). -/

namespace Sys2Proof

variable {w : Command}

/-- An `.ok` of decoding gives the word's row, and that the word passes the row's mask (R76). -/
theorem rowOf_of_decode {i : Instr} (h : decode w = .ok i) :
    ∃ f, rowOf w = some (f, i) ∧ w &&& formatMask f = opMatch (opField w) := by
  unfold decode at h
  split at h
  · cases h
  · next f j hrow =>
    split at h
    · next hmask =>
      cases h
      exact ⟨f, hrow, hmask⟩
    · cases h

/-- A field below the opcode whose mask bits are all 1 is 0 in a word that passes the mask (R72). -/
theorem field_eq_zero_of_mask {op : Nat} {m : Command} (h : w &&& m = opMatch op) (lo len : Nat)
    (hle : lo + len ≤ 26) (hm : m.extractLsb' lo len = BitVec.allOnes len) : w.toNat / 2 ^ lo % 2 ^ len = 0 := by
  have hz : (w &&& m).extractLsb' lo len = 0#len := by
    rw [h, opMatch_eq, BitVec.extractLsb'_append_eq_of_add_le hle]
    simp
  rw [BitVec.extractLsb'_and, hm, BitVec.and_allOnes] at hz
  rw [← field_eq, field, hz]
  rfl

/-- A register field's number. -/
theorem val_ofNat_field (lo : Nat) : (Fin.ofNat 16 (field w lo 4) : Nat) = w.toNat / 2 ^ lo % 16 := by
  simp [field_eq]

theorem packN_of_mask (h : w &&& formatMask .n = opMatch (opField w)) : packN (opField w) = w := by
  have hz := field_eq_zero_of_mask h 0 26 (by decide) (by decide)
  have hw := w.isLt
  apply BitVec.eq_of_toNat_eq
  rw [toNat_packN, opField, field_eq]
  omega

theorem packR_of_mask (h : w &&& formatMask .r = opMatch (opField w)) :
    packR (opField w) (rdField w) (rs1Field w) (rs2Field w) = w := by
  have hz := field_eq_zero_of_mask h 0 14 (by decide) (by decide)
  have hw := w.isLt
  apply BitVec.eq_of_toNat_eq
  rw [toNat_packR, opField, rdField, rs1Field, rs2Field, val_ofNat_field, val_ofNat_field, val_ofNat_field, field_eq]
  omega

theorem packR2_of_mask (h : w &&& formatMask .r2 = opMatch (opField w)) :
    packR2 (opField w) (rdField w) (rs1Field w) = w := by
  have hz := field_eq_zero_of_mask h 0 18 (by decide) (by decide)
  have hw := w.isLt
  apply BitVec.eq_of_toNat_eq
  rw [toNat_packR2, opField, rdField, rs1Field, val_ofNat_field, val_ofNat_field, field_eq]
  omega

/-- Format I, the immediate given as any 14 bits with the number of bits 13:0. -/
theorem packI_of_mask {imm : BitVec 14} (h : w &&& formatMask .i = opMatch (opField w))
    (himm : imm.toNat = w.toNat % 2 ^ 14) : packI (opField w) (rdField w) (rs1Field w) imm = w := by
  have hz := field_eq_zero_of_mask h 14 4 (by decide) (by decide)
  have hw := w.isLt
  apply BitVec.eq_of_toNat_eq
  rw [toNat_packI, himm, opField, rdField, rs1Field, val_ofNat_field, val_ofNat_field, field_eq]
  omega

theorem packU_of_mask (h : w &&& formatMask .u = opMatch (opField w)) :
    packU (opField w) (rdField w) (hwField w) (imm16Field w) = w := by
  have hz := field_eq_zero_of_mask h 18 4 (by decide) (by decide)
  have hw := w.isLt
  apply BitVec.eq_of_toNat_eq
  rw [toNat_packU, opField, rdField, hwField, imm16Field, val_ofNat_field, field_eq, field_eq, field_eq]
  omega

theorem toNat_imm14Bits_imm14Field : (imm14Bits (imm14Field w)).toNat = w.toNat % 2 ^ 14 := by
  simp [imm14Bits, imm14Field, field_eq]

theorem toNat_rangeBits_fields : (rangeBits (startField w) (countField w)).toNat = w.toNat % 2 ^ 14 := by
  rw [toNat_rangeBits, startField, countField, field_eq, field_eq]
  omega

/-- The word of the command that a row's opcode and the word's fields give is the word (R71, R74, R76). -/
theorem encode_of_row {f : Format} {i : Instr} (hrow : rowOf w = some (f, i))
    (hmask : w &&& formatMask f = opMatch (opField w)) : encode i = w := by
  unfold rowOf at hrow
  split at hrow <;> cases hrow <;> rename_i hop <;> rw [encode, ← hop]
  -- The rows by format, in the order of R74: N, R2, R, U, and I with PFROMB's two halves apart.
  case h_1 => exact packN_of_mask hmask
  case h_2 | h_3 | h_4 | h_5 | h_12 | h_17 | h_18 | h_19 => exact packR2_of_mask hmask
  case h_6 | h_7 | h_8 | h_9 | h_20 | h_21 | h_22 | h_25 | h_26 | h_27 => exact packR_of_mask hmask
  case h_10 | h_11 => exact packU_of_mask hmask
  case h_13 => exact packI_of_mask hmask toNat_rangeBits_fields
  case h_14 | h_15 | h_16 | h_23 | h_24 => exact packI_of_mask hmask toNat_imm14Bits_imm14Field

/-- A command that a word decodes to has that word (R76). -/
theorem encode_of_decode {i : Instr} (h : decode w = .ok i) : encode i = w := by
  obtain ⟨f, hrow, hmask⟩ := rowOf_of_decode h
  exact encode_of_row hrow hmask

end Sys2Proof
end

section
/-! What a command, a host access and a step leave of the state (spec/10_state.md), said once for each. -/

namespace Sys2Proof.Machine

variable {s t : State}

/-! ### One command -/

/-- A range fault's cause is a code that is raised (R183). -/
theorem rangeFault_ne_none {i : Instr} {c : Cause} (h : rangeFault i = some c) : c ≠ .none := by
  cases i with
  | pfromb _ _ _ _ | pgetb _ _ _ | psetb _ _ _ | pbit _ _ _ =>
    simp only [rangeFault, Option.ite_none_right_eq_some, Option.some.injEq] at h
    obtain ⟨-, rfl⟩ := h
    decide
  | _ => cases h

/-- What `exec` leaves: the command's effect, or the state after its range fault (R180, R185). -/
theorem exec_next_cases {i : Instr} (h : exec i s = .next t) :
    (rangeFault i = none ∧ CommandEffect i s t) ∨
      ∃ c, rangeFault i = some c ∧ t = s.enterFault c (encode i) := by
  obtain ⟨hf, u, hu, heff⟩ | ⟨c, hc, hu⟩ := exec_cases i s
  · obtain rfl : u = t := Host.Outcome.next.inj (hu.symm.trans h)
    exact .inl ⟨hf, heff⟩
  · exact .inr ⟨c, hc, Host.Outcome.next.inj (h.symm.trans hu)⟩

/-- What the sequencer leaves of a word it took: the same state if the word is discarded, the state after a fault that
records the word, or the effect of the decoded command (R180, R186). -/
theorem runCommand_next_cases {w : Command} (h : runCommand w s = .next t) :
    (s.err = true ∧ t = s) ∨
      (s.err = false ∧ ∃ c, c ≠ .none ∧ t = s.enterFault c w) ∨
      (s.err = false ∧ ∃ i, decode w = .ok i ∧ CommandEffect i s t) := by
  obtain ⟨he, hr⟩ | ⟨he, why, -, hr⟩ | ⟨he, i, hi, hr⟩ := runCommand_cases s w
  · exact .inl ⟨he, Host.Outcome.next.inj (h.symm.trans hr)⟩
  · exact .inr (.inl ⟨he, _, by decide, Host.Outcome.next.inj (h.symm.trans hr)⟩)
  · obtain ⟨-, heff⟩ | ⟨c, hc, ht⟩ := exec_next_cases (hr.symm.trans h)
    · exact .inr (.inr ⟨he, i, hi, heff⟩)
    · exact .inr (.inl ⟨he, c, rangeFault_ne_none hc, encode_of_decode hi ▸ ht⟩)

/-- A word is discarded while ERR = 1 (R186). -/
theorem runCommand_of_err (w : Command) (h : s.err = true) : runCommand w s = .next s := by
  simp [runCommand, h]

/-- An illegal word faults (R76, R180). -/
theorem runCommand_of_illegal {w : Command} {why : Illegal} (h : s.err = false) (hd : decode w = .illegal why) :
    runCommand w s = .next (s.enterFault .illegalCommand w) := by
  simp [runCommand, h, hd, raise]

/-- A command's word runs the command (R180). -/
theorem runCommand_of_ok {w : Command} {i : Instr} (h : s.err = false) (hd : decode w = .ok i) :
    runCommand w s = exec i s := by
  simp [runCommand, h, hd]

/-- A command whose index is out of range faults (R183). -/
theorem exec_of_rangeFault {i : Instr} {c : Cause} (s : State) (h : rangeFault i = some c) :
    exec i s = .next (s.enterFault c (encode i)) := by
  obtain ⟨hf, -⟩ | ⟨d, hd, hexec⟩ := exec_cases i s
  · simp [hf] at h
  · obtain rfl : d = c := Option.some.inj (hd.symm.trans h)
    exact hexec

/-! ### One CTRL write (R36) -/

section WriteCtrl

variable (s : State) (d : Word)

/-- A CTRL write, field by field: ERRIE is bit 0, CLRERR is bit 8 and CLROVF is bit 9. -/
theorem writeCtrl_eq :
    s.writeCtrl d =
      { s with
        errie := d.getLsbD 0, err := s.err && !d.getLsbD 8, cause := if d.getLsbD 8 then .none else s.cause,
        errcmd := if d.getLsbD 8 then 0#32 else s.errcmd, ovf := s.ovf && !d.getLsbD 9 } := by
  unfold State.writeCtrl
  cases d.getLsbD 8 <;> cases d.getLsbD 9 <;>
    simp [State.setErrie, State.clearError, State.clearOverflow]

@[simp] theorem writeCtrl_err : (s.writeCtrl d).err = (s.err && !d.getLsbD 8) := by rw [writeCtrl_eq]

@[simp] theorem writeCtrl_cause : (s.writeCtrl d).cause = if d.getLsbD 8 then .none else s.cause := by
  rw [writeCtrl_eq]

@[simp] theorem writeCtrl_errcmd : (s.writeCtrl d).errcmd = if d.getLsbD 8 then 0#32 else s.errcmd := by
  rw [writeCtrl_eq]

@[simp] theorem writeCtrl_ovf : (s.writeCtrl d).ovf = (s.ovf && !d.getLsbD 9) := by rw [writeCtrl_eq]

@[simp] theorem writeCtrl_errie : (s.writeCtrl d).errie = d.getLsbD 0 := by rw [writeCtrl_eq]

@[simp] theorem writeCtrl_readX (r : XReg) : (s.writeCtrl d).readX r = s.readX r := by rw [writeCtrl_eq]; rfl

@[simp] theorem writeCtrl_readP (r : PReg) : (s.writeCtrl d).readP r = s.readP r := by rw [writeCtrl_eq]; rfl

@[simp] theorem writeCtrl_z : (s.writeCtrl d).z = s.z := by rw [writeCtrl_eq]

@[simp] theorem writeCtrl_cmdcnt : (s.writeCtrl d).cmdcnt = s.cmdcnt := by rw [writeCtrl_eq]

@[simp] theorem writeCtrl_cmdq : (s.writeCtrl d).cmdq = s.cmdq := by rw [writeCtrl_eq]

@[simp] theorem writeCtrl_inReset : (s.writeCtrl d).inReset = s.inReset := by rw [writeCtrl_eq]

@[simp] theorem writeCtrl_inputs : (s.writeCtrl d).inputs = s.inputs := by rw [writeCtrl_eq]

@[simp] theorem writeCtrl_outputs : (s.writeCtrl d).outputs = s.outputs := by rw [writeCtrl_eq]

@[simp] theorem writeCtrl_draws : (s.writeCtrl d).draws = s.draws := by rw [writeCtrl_eq]

end WriteCtrl

/-! ### One host access -/

/-- Only the offset 0x018 is CTRL (R53). -/
theorem offset_of_windowReg_ctrl {off : Nat} (h : windowReg off = some .ctrl) : off = 0x018 := by
  by_contra hne
  simp only [windowReg, hne, if_false] at h
  split_ifs at h <;> cases h

/-- Only an 8-byte access at 0x018 reaches CTRL (R52, R53). -/
theorem accessReg_eq_ctrl {off width : Nat} (h : accessReg off width = some .ctrl) : off = 0x018 ∧ width = 8 := by
  obtain ⟨⟨hw, -⟩, hreg⟩ := Option.ite_none_right_eq_some.mp h
  exact ⟨offset_of_windowReg_ctrl hreg, hw⟩

/-- What a host access does: a response and at most a draw, or the write of one register (R52, R54). -/
theorem performAccess_cases (a : HostAccess) (s : State) :
    (∃ n r, performAccess a s = (s.draw n).respond r) ∨
      ∃ off width d r, a = .write off width d ∧ accessReg off width = some r ∧
        performAccess a s = (s.writeReg r d).respond .written := by
  cases a with
  | read off width =>
    cases h : accessReg off width with
    | none => exact .inl ⟨0, .busError, by simp [performAccess, h, State.draw]⟩
    | some r => exact .inl ⟨_, _, by simp [performAccess, h]; rfl⟩
  | write off width d =>
    cases h : accessReg off width with
    | none => exact .inl ⟨0, .busError, by simp [performAccess, h, State.draw]⟩
    | some r => exact .inr ⟨off, width, d, r, rfl, h, by simp [performAccess, h]⟩

/-- ERR, CAUSE, ERRCMD and OVF are unchanged. -/
structure SameFlags (s t : State) : Prop where
  error : SameError s t
  ovf : t.ovf = s.ovf

theorem SameFlags.refl (s : State) : SameFlags s s := ⟨⟨rfl, rfl, rfl⟩, rfl⟩

/-- Only the write of CTRL reaches the flags (R54). -/
theorem writeReg_sameFlags (s : State) {r : WinReg} (d : Word) (h : r ≠ .ctrl) : SameFlags s (s.writeReg r d) := by
  cases r with
  | ctrl => exact absurd rfl h
  | _ => exact ⟨⟨rfl, rfl, rfl⟩, rfl⟩

/-- A host access writes CTRL, or leaves the flags (R36, R54). -/
theorem performAccess_flags (a : HostAccess) (s : State) :
    (∃ d, a = .write 0x018 8 d ∧ performAccess a s = (s.writeCtrl d).respond .written) ∨
      SameFlags s (performAccess a s) := by
  obtain ⟨n, r, h⟩ | ⟨off, width, d, r, rfl, hr, h⟩ := performAccess_cases a s
  · rw [h]
    exact .inr ⟨⟨rfl, rfl, rfl⟩, rfl⟩
  · rw [h]
    by_cases hc : r = .ctrl
    · subst hc
      obtain ⟨rfl, rfl⟩ := accessReg_eq_ctrl hr
      exact .inl ⟨d, rfl, rfl⟩
    · obtain ⟨⟨he, hcause, hcmd⟩, ho⟩ := writeReg_sameFlags s d hc
      exact .inr ⟨⟨he, hcause, hcmd⟩, ho⟩

/-- An input asserts reset, writes CTRL, or leaves the flags (R36, R54, R210). -/
theorem performInput_flags (i : Input) (s : State) :
    (i = .assertReset ∧ performInput i s = s.enterReset) ∨
      (∃ d, i = .access (.write 0x018 8 d) ∧ performInput i s = (s.writeCtrl d).respond .written) ∨
      SameFlags s (performInput i s) := by
  cases i with
  | assertReset => exact .inl ⟨rfl, rfl⟩
  | releaseReset => exact .inr (.inr ⟨⟨rfl, rfl, rfl⟩, rfl⟩)
  | access a =>
    cases hr : s.inReset with
    | true =>
      rw [show performInput (.access a) s = s by simp [performInput, hr]]
      exact .inr (.inr (.refl s))
    | false =>
      rw [show performInput (.access a) s = performAccess a s by simp [performInput, hr]]
      obtain ⟨d, rfl, h⟩ | h := performAccess_flags a s
      · exact .inr (.inl ⟨d, rfl, h⟩)
      · exact .inr (.inr h)

/-! ### One step -/

@[simp] theorem takeTurn_ovf (s : State) : s.takeTurn.ovf = s.ovf := by
  obtain ⟨l, h⟩ := takeTurn_eq s; rw [h]

@[simp] theorem takeTurn_cause (s : State) : s.takeTurn.cause = s.cause := by
  obtain ⟨l, h⟩ := takeTurn_eq s; rw [h]

@[simp] theorem takeTurn_errcmd (s : State) : s.takeTurn.errcmd = s.errcmd := by
  obtain ⟨l, h⟩ := takeTurn_eq s; rw [h]

@[simp] theorem takeTurn_readP (s : State) (r : PReg) : s.takeTurn.readP r = s.readP r := by
  obtain ⟨l, h⟩ := takeTurn_eq s; rw [h]; rfl

/-- The sequencer's turn runs the head of CMDQ (R180). -/
theorem step_of_sequencer {w : Command} {q : List Command} (ht : s.turn = some .sequencer) (hq : s.cmdq = w :: q) :
    step s = runCommand w (s.takeTurn.withQueue q) := by
  simp [step, coreStep, ht, sequencerStep, hq]

/-- What a step leaves, by whose turn it is (R180, R198). -/
theorem step_next_cases (h : step s = .next t) :
    (∃ w q, s.turn = some .sequencer ∧ s.cmdq = w :: q ∧ runCommand w (s.takeTurn.withQueue q) = .next t) ∨
      (∃ i rest, s.turn = some .host ∧ s.inputs = i :: rest ∧
        t = performInput i { s.takeTurn with inputs := rest }) ∨
      t = s := by
  obtain ⟨w, q, ht, -, hq, hs⟩ | ⟨i, rest, ht, -, hi, hs⟩ | ⟨-, -, -, hs⟩ := step_cases s
  · exact .inl ⟨w, q, ht, hq, hs.symm.trans h⟩
  · exact .inr (.inl ⟨i, rest, ht, hi, Host.Outcome.next.inj (h.symm.trans hs)⟩)
  · exact .inr (.inr (Host.Outcome.next.inj (h.symm.trans hs)))

/-- What a step leaves of ERR, CAUSE and OVF: the sequencer runs a word, the host asserts reset or writes CTRL, or they
stay. -/
theorem step_flags (h : step s = .next t) :
    (∃ w q, s.turn = some .sequencer ∧ s.cmdq = w :: q ∧ runCommand w (s.takeTurn.withQueue q) = .next t) ∨
      (s.turn = some .host ∧ (∃ rest, s.inputs = .assertReset :: rest) ∧ AtReset t) ∨
      (s.turn = some .host ∧ ∃ d rest, s.inputs = .access (.write 0x018 8 d) :: rest ∧
        t.err = (s.err && !d.getLsbD 8) ∧ t.cause = (if d.getLsbD 8 then .none else s.cause) ∧
        t.ovf = (s.ovf && !d.getLsbD 9)) ∨
      SameFlags s t := by
  obtain hseq | ⟨i, rest, ht, hi, rfl⟩ | rfl := step_next_cases h
  · exact .inl hseq
  · obtain ⟨rfl, hp⟩ | ⟨d, rfl, hp⟩ | ⟨⟨he, hc, hw⟩, ho⟩ := performInput_flags i { s.takeTurn with inputs := rest }
    · rw [hp]
      exact .inr (.inl ⟨ht, ⟨rest, hi⟩, enterReset_atReset _⟩)
    · rw [hp]
      exact .inr (.inr (.inl ⟨ht, d, rest, hi, by simp, by simp, by simp⟩))
    · exact .inr (.inr (.inr ⟨⟨he.trans (takeTurn_err s), hc.trans (takeTurn_cause s), hw.trans (takeTurn_errcmd s)⟩,
        ho.trans (takeTurn_ovf s)⟩))
  · exact .inr (.inr (.inr (.refl t)))

end Sys2Proof.Machine
end

section
/-! The degree invariant (R25): every command, host access and step keeps it. -/

namespace Sys2Proof.Machine

variable {s t : State}

/-- The degree invariant speaks of the P registers alone. -/
theorem SamePBut.degreeInv (h : SamePBut none s t) (hs : DegreeInv s) : DegreeInv t := by
  intro r
  have hr : t.readP r = s.readP r := h r (Option.some_ne_none r)
  simpa [State.readDeg, State.readBits, hr] using hs r

/-- A command writes its destination with the degree and keeps every other P register. -/
theorem CommandEffect.degreeInv {i : Instr} (h : CommandEffect i s t) (hs : DegreeInv s) : DegreeInv t := by
  intro r
  by_cases hd : destP i = some r
  · exact h.degree r hd
  · have hr : t.readP r = s.readP r := h.p r (Ne.symm hd)
    simpa [State.readDeg, State.readBits, hr] using hs r

/-- Discarding, faulting and executing a word keep the invariant. -/
theorem runCommand_degreeInv {w : Command} (h : runCommand w s = .next t) (hs : DegreeInv s) : DegreeInv t := by
  obtain ⟨-, rfl⟩ | ⟨-, c, -, rfl⟩ | ⟨-, i, -, heff⟩ := runCommand_next_cases h
  · exact hs
  · exact hs
  · exact heff.degreeInv hs

/-- Every reset degree is that of the zero polynomial (R42). -/
theorem AtReset.degreeInv (h : AtReset s) : DegreeInv s := by
  intro r
  simp [State.readDeg, State.readBits, h.p r, Poly.zero, degree_zero]

/-- A host write of a block recomputes the degree (R54); no other register write reaches a P register. -/
theorem writeReg_degreeInv (r : WinReg) (d : Word) (hs : DegreeInv s) : DegreeInv (s.writeReg r d) := by
  cases r with
  | blk n k => exact setP_degreeInv n _ hs
  | ctrl => exact SamePBut.degreeInv (fun r _ => writeCtrl_readP s d r) hs
  | _ => exact hs

/-- A host access keeps the invariant. -/
theorem performAccess_degreeInv (a : HostAccess) (hs : DegreeInv s) : DegreeInv (performAccess a s) := by
  obtain ⟨n, r, h⟩ | ⟨-, -, d, r, -, -, h⟩ := performAccess_cases a s
  · rw [h]
    exact hs
  · rw [h]
    exact SamePBut.degreeInv (fun _ _ => rfl) (writeReg_degreeInv r d hs)

/-- An input keeps the invariant. -/
theorem performInput_degreeInv (i : Input) (hs : DegreeInv s) : DegreeInv (performInput i s) := by
  cases i with
  | assertReset => exact (enterReset_atReset s).degreeInv
  | releaseReset => exact hs
  | access a =>
    rw [performInput]
    split
    · exact hs
    · exact performAccess_degreeInv a hs

/-- Settles O16: the sequencer, the host port and the idle core each keep the invariant. -/
theorem degreeInvariantIsKept : Obligations.DegreeInvariantIsKept := by
  intro s t hs h
  have htaken : ∀ l q, DegreeInv { s.takeTurn with inputs := l, cmdq := q } := fun l q =>
    SamePBut.degreeInv (fun r _ => takeTurn_readP s r) hs
  obtain ⟨w, q, -, -, hrun⟩ | ⟨i, rest, -, -, rfl⟩ | rfl := step_next_cases h
  · exact runCommand_degreeInv hrun (htaken _ q)
  · exact performInput_degreeInv i (htaken rest _)
  · exact hs

end Sys2Proof.Machine
end

section
/-! ERR and CAUSE (R31): set by a fault of the sequencer's command, cleared by the host or by reset. -/

namespace Sys2Proof.Machine

variable {s t : State}

/-- ERR rises by the fault of the command at the head of CMDQ (R31, R184). -/
theorem step_raises_err (hs : s.err = false) (ht : t.err = true) (h : step s = .next t) :
    s.turn = some .sequencer ∧ t.cause ≠ .none ∧
      ∃ w q, s.cmdq = w :: q ∧ FaultEntered t.cause w (s.takeTurn.withQueue q) t := by
  obtain ⟨w, q, hturn, hq, hrun⟩ | ⟨-, -, hreset⟩ | ⟨-, d, rest, -, herr, -⟩ | hsame := step_flags h
  · obtain ⟨he, -⟩ | ⟨-, c, hc, rfl⟩ | ⟨-, i, -, heff⟩ := runCommand_next_cases hrun
    · simp [hs] at he
    · exact ⟨hturn, hc, w, q, hq, faultEntered_enterFault c w⟩
    · simp [heff.completed.error.err, hs] at ht
  · simp [hreset.err] at ht
  · simp [herr, hs] at ht
  · simp [hsame.error.err, hs] at ht

/-- A word run by the sequencer clears neither ERR nor CAUSE. -/
theorem runCommand_keeps_error {w : Command} (h : runCommand w s = .next t) :
    (s.err = true → t.err = true) ∧ (s.cause ≠ .none → t.cause ≠ .none) := by
  obtain ⟨-, rfl⟩ | ⟨-, c, hc, rfl⟩ | ⟨-, i, -, heff⟩ := runCommand_next_cases h
  · exact ⟨id, id⟩
  · exact ⟨fun _ => rfl, fun _ => hc⟩
  · obtain ⟨he, hcause, -⟩ := heff.completed.error
    exact ⟨he.trans, fun hne => hcause ▸ hne⟩

/-- ERR or CAUSE is cleared by reset or by a host write of 1 to CLRERR, which zeroes both (R31, R36). -/
theorem step_clears_error (hclr : (s.err = true ∧ t.err = false) ∨ (s.cause ≠ .none ∧ t.cause = .none))
    (h : step s = .next t) :
    s.turn = some .host ∧ t.err = false ∧ t.cause = .none ∧
      ((∃ rest, s.inputs = .assertReset :: rest) ∨
        ∃ d rest, s.inputs = .access (.write 0x018 8 d) :: rest ∧ d.getLsbD 8 = true) := by
  obtain ⟨w, q, -, -, hrun⟩ | ⟨hturn, hin, hreset⟩ | ⟨hturn, d, rest, hin, herr, hcause, -⟩ | hsame := step_flags h
  · obtain ⟨hkeepErr, hkeepCause⟩ := runCommand_keeps_error hrun
    obtain ⟨hs, ht⟩ | ⟨hs, ht⟩ := hclr
    · simp [hkeepErr (by simpa using hs)] at ht
    · exact absurd ht (hkeepCause (by simpa using hs))
  · exact ⟨hturn, hreset.err, hreset.cause, .inl hin⟩
  · have hd : d.getLsbD 8 = true := by
      by_contra hd
      rw [herr, hcause, Bool.eq_false_of_not_eq_true hd] at hclr
      obtain ⟨hs, ht⟩ | ⟨hs, ht⟩ := hclr
      · simp [hs] at ht
      · exact hs ht
    exact ⟨hturn, by simp [herr, hd], by simp [hcause, hd], .inr ⟨d, rest, hin, hd⟩⟩
  · obtain ⟨⟨he, hc, -⟩, -⟩ := hsame
    obtain ⟨hs, ht⟩ | ⟨hs, ht⟩ := hclr
    · simp [he, hs] at ht
    · exact absurd (hc.symm.trans ht) hs

/-- Settles O11: what raises ERR, what clears it, and that a pending error discards commands. -/
theorem onlyTheHostClearsErr : Obligations.OnlyTheHostClearsErr := by
  refine ⟨fun s t hs ht h => step_raises_err hs ht h, fun s w q hs hturn hq => ?_, fun s t hclr h =>
    step_clears_error hclr h, fun s d hd => by simp [hd], fun s => ⟨rfl, rfl⟩, fun s w q hs hturn hq => ?_⟩
  · have hfree : (s.takeTurn.withQueue q).err = false := by simpa using hs
    rw [step_of_sequencer hturn hq]
    refine ⟨fun why hd => ⟨_, runCommand_of_illegal hfree hd, rfl, rfl⟩, fun i c hd hf => ?_⟩
    exact ⟨_, (runCommand_of_ok hfree hd).trans (exec_of_rangeFault _ hf), rfl, rfl⟩
  · rw [step_of_sequencer hturn hq]
    exact runCommand_of_err w (by simpa using hs)

end Sys2Proof.Machine
end

section
/-! CTRL (R36) and the reset values (R42), as the host sees them. -/

namespace Sys2Proof.Machine

/-- The CTRL word shows ERRIE in bit 0 and nothing else (R36). -/
theorem getLsbD_ctrlWord (s : State) {j : Nat} (hj : j < 64) :
    s.ctrlWord.getLsbD j = (decide (j = 0) && s.errie) := by
  simp [State.ctrlWord, hj, BitVec.getLsbD_ofBool]

/-- A CTRL write with CLRERR 0 leaves ERR, CAUSE and ERRCMD (R36). -/
theorem writeCtrl_sameError (s : State) {d : Word} (h : d.getLsbD 8 = false) : SameError s (s.writeCtrl d) where
  err := by rw [writeCtrl_err, h, Bool.not_false, Bool.and_true]
  cause := by rw [writeCtrl_cause, h]; rfl
  errcmd := by rw [writeCtrl_errcmd, h]; rfl

/-- Settles O51: the access at 0x018 is the CTRL write, whose fields are the `writeCtrl` lemmas. -/
theorem ctrlWritesActOnce : Obligations.CtrlWritesActOnce := by
  intro s d
  refine ⟨s.writeCtrl d, rfl, writeCtrl_errie s d, fun h => by simp [h], writeCtrl_sameError s, fun h => by simp [h],
    fun h => by rw [writeCtrl_ovf, h, Bool.not_false, Bool.and_true], fun r _ => writeCtrl_readX s d r,
    fun r _ => writeCtrl_readP s d r, writeCtrl_z s d, writeCtrl_cmdcnt s d, writeCtrl_cmdq s d, writeCtrl_inReset s d,
    writeCtrl_inputs s d, writeCtrl_outputs s d, writeCtrl_draws s d, fun j hj => ?_⟩
  rw [getLsbD_ctrlWord _ hj, writeCtrl_errie]

/-- The registers after reset are the reset registers (R42). -/
theorem reset_atReset : AtReset State.reset where
  x := readX_reset
  p := readP_reset
  err := rfl
  ovf := rfl
  z := rfl
  cause := rfl
  errie := rfl
  errcmd := rfl
  cmdcnt := rfl
  cmdq := rfl

/-- The blocks of the zero polynomial are 0 (R42). -/
theorem block_zero (k : Nat) : block 0#256 k = 0#64 := BitVec.extractLsb'_zero

/-- With every flag 0 and CMDQ empty, STATUS reads 0 (R29, R42). -/
theorem AtReset.statusWord {s : State} (h : AtReset s) : s.statusWord = 0#64 := by
  rw [State.statusWord, settled_of_empty s h.cmdq]
  simp only [State.statusBits, State.busy, h.cause, h.z, h.ovf, h.err, h.cmdq, List.isEmpty_nil, if_true]
  decide

/-- Settles O21: the reset registers, read through the window. -/
theorem resetValuesAreZero : Obligations.ResetValuesAreZero := by
  refine ⟨reset_atReset, readX_reset, fun n k => ?_, fun n => ?_, reset_atReset.statusWord, rfl, rfl, rfl, rfl, rfl⟩
  · rw [State.readReg, State.readBits, readP_reset]
    exact block_zero k
  · rw [State.readReg, State.readDeg, readP_reset]
    rfl

end Sys2Proof.Machine
end

section
/-! Degrees of exact results: a left shift adds its amount (R145), the product's degrees add (spec/00_scope.md R12), and a
degree of 256 or more is a coefficient at an index of 256 or more (R32). -/

namespace Sys2Proof.Machine

/-- A value has a coefficient at index `n` or above exactly if its degree is at least `n` (R10). -/
theorem le_degree_iff_exists_testBit (n v : Nat) : (n : Int) ≤ degree v ↔ ∃ k, n ≤ k ∧ v.testBit k = true := by
  by_cases hv : v = 0
  · subst hv
    have hneg : ¬ (n : Int) ≤ -1 := by omega
    simp [degree_zero, hneg]
  · rw [degree_of_ne hv, Int.ofNat_le]
    exact ⟨fun h => ⟨_, h, Nat.testBit_log2 hv⟩, fun ⟨k, hk, hbit⟩ =>
      hk.trans ((Nat.le_log2 hv).2 (Nat.ge_two_pow_of_testBit hbit))⟩

/-- A left shift of a nonzero value adds its amount to the degree (R145). -/
theorem degree_shiftLeft {v : Nat} (hv : v ≠ 0) (n : Nat) : degree (v <<< n) = degree v + n := by
  have hlo := Nat.mul_le_mul_right (2 ^ n) (Nat.log2_self_le hv)
  have hhi := Nat.mul_lt_mul_of_pos_right (Nat.lt_log2_self (n := v)) (Nat.two_pow_pos n)
  rw [← Nat.pow_add] at hlo hhi
  rw [degree_of_ne hv, Nat.shiftLeft_eq]
  exact degree_eq_of_bounds hlo (by rwa [Nat.add_right_comm] at hhi)

/-- The first `n` rows of a product stay below the copy of `b` shifted by `n` (R12). -/
theorem clmul_rows_lt (a b n : Nat) : clmul.rows a b n < 2 ^ (n + Nat.log2 b) := by
  induction n with
  | zero => simp [clmul.rows]
  | succ n ih =>
    have hpow : 2 ^ (n + Nat.log2 b) ≤ 2 ^ (n + 1 + Nat.log2 b) := Nat.pow_le_pow_right (by decide) (by omega)
    have hrow : b <<< n < 2 ^ (n + 1 + Nat.log2 b) := by
      have := Nat.mul_lt_mul_of_pos_right (Nat.lt_log2_self (n := b)) (Nat.two_pow_pos n)
      rw [← Nat.pow_add] at this
      rw [Nat.shiftLeft_eq]
      exact this.trans_le (Nat.pow_le_pow_right (by decide) (by omega))
    rw [clmul.rows]
    split
    · exact Nat.xor_lt_two_pow (ih.trans_le hpow) hrow
    · simpa using ih.trans_le hpow

/-- The degrees of nonzero operands add: the copy of `b` at the highest bit of `a` sets a bit that no row below it reaches
(R12). -/
theorem degree_clmul {a b : Nat} (ha : a ≠ 0) (hb : b ≠ 0) : degree (clmul a b) = degree a + degree b := by
  have hrows : clmul a b = clmul.rows a b (Nat.log2 a + 1) := by rw [clmul, bitSize, if_neg ha]
  have htop : (clmul a b).testBit (Nat.log2 a + Nat.log2 b) = true := by
    rw [hrows, clmul.rows, Nat.testBit_log2 ha, if_pos rfl, Nat.testBit_xor,
      Nat.testBit_lt_two_pow (clmul_rows_lt a b _), Nat.testBit_shiftLeft]
    simp [Nat.testBit_log2 hb]
  have hhi : clmul a b < 2 ^ (Nat.log2 a + Nat.log2 b + 1) := by
    have := clmul_rows_lt a b (Nat.log2 a + 1)
    rwa [← hrows, Nat.add_right_comm] at this
  rw [degree_eq_of_bounds (Nat.ge_two_pow_of_testBit htop) hhi, degree_of_ne ha, degree_of_ne hb]
  exact Int.natCast_add _ _

/-- A nonzero word is a nonzero number. -/
theorem toNat_ne_zero {w : Nat} {a : BitVec w} : a.toNat ≠ 0 ↔ a ≠ 0 := by
  simp [BitVec.toNat_eq]

/-- OVF's condition for a left shift is a coefficient of the exact result at 256 or above (R32, R145). -/
theorem shiftOverflows_iff (a : Coeffs) (n : Nat) :
    shiftOverflows a n = true ↔ ∃ k, 256 ≤ k ∧ (a.toNat <<< n).testBit k = true := by
  rw [← le_degree_iff_exists_testBit]
  by_cases ha : a = 0#256
  · subst ha
    simp [shiftOverflows, degree_zero]
  · rw [degree_shiftLeft (toNat_ne_zero.2 ha)]
    simp [shiftOverflows, ha]

/-- OVF's condition for a product is a coefficient of the exact product at 256 or above (R32, R161). -/
theorem productOverflows_iff (a b : Coeffs) :
    productOverflows a b = true ↔ ∃ k, 256 ≤ k ∧ (clmul a.toNat b.toNat).testBit k = true := by
  rw [← le_degree_iff_exists_testBit]
  by_cases ha : a = 0#256
  · subst ha
    simp [productOverflows, clmul_zero_left, degree_zero]
  · by_cases hb : b = 0#256
    · subst hb
      simp [productOverflows, clmul_zero_right, degree_zero]
    · rw [degree_clmul (toNat_ne_zero.2 ha) (toNat_ne_zero.2 hb)]
      simp [productOverflows, ha, hb]

end Sys2Proof.Machine
end

section
/-! OVF (R32): set by lost coefficients, kept by every other command, cleared by the host or by reset. -/

namespace Sys2Proof.Machine

variable {s t : State}

/-- A left shift sets OVF if a coefficient is lost, and keeps it set otherwise (R145). -/
theorem shiftLeft_ovf {rd rs1 : PReg} {n : Nat} (h : shiftLeft rd rs1 n s = .next t) :
    t.ovf = (s.ovf || shiftOverflows (s.readBits rs1) n) := by
  obtain rfl := Host.Outcome.next.inj h
  rfl

/-- PMUL sets OVF if the exact product is beyond the capacity, and keeps it set otherwise (R161). -/
theorem execPmul_ovf {rd rs1 rs2 : PReg} (h : execPmul rd rs1 rs2 s = .next t) :
    t.ovf = (s.ovf || productOverflows (s.readBits rs1) (s.readBits rs2)) := by
  obtain rfl := Host.Outcome.next.inj h
  rfl

/-- A command that may not set OVF leaves it (R32). -/
theorem exec_keeps_ovf {i : Instr} (hi : maySetOvf i = false) (h : exec i s = .next t) : t.ovf = s.ovf := by
  obtain ⟨-, heff⟩ | ⟨c, -, rfl⟩ := exec_next_cases h
  · exact heff.ovf hi
  · rfl

/-- OVF is sticky: no word run by the sequencer clears it (R32). -/
theorem runCommand_ovf_sticky {w : Command} (hs : s.ovf = true) (h : runCommand w s = .next t) : t.ovf = true := by
  obtain ⟨-, rfl⟩ | ⟨-, c, -, rfl⟩ | ⟨-, i, -, heff⟩ := runCommand_next_cases h
  · exact hs
  · exact hs
  · exact heff.sticky hs

/-- OVF is cleared by reset or by a host write of 1 to CLROVF (R32, R36). -/
theorem step_clears_ovf (hs : s.ovf = true) (ht : t.ovf = false) (h : step s = .next t) :
    s.turn = some .host ∧
      ((∃ rest, s.inputs = .assertReset :: rest) ∨
        ∃ d rest, s.inputs = .access (.write 0x018 8 d) :: rest ∧ d.getLsbD 9 = true) := by
  obtain ⟨w, q, -, -, hrun⟩ | ⟨hturn, hin, -⟩ | ⟨hturn, d, rest, hin, -, -, ho⟩ | hsame := step_flags h
  · have := runCommand_ovf_sticky (by simpa using hs) hrun
    simp [this] at ht
  · exact ⟨hturn, .inl hin⟩
  · rw [hs, ht, Bool.true_and] at ho
    exact ⟨hturn, .inr ⟨d, rest, hin, (Bool.not_eq_false' _).mp ho.symm⟩⟩
  · simp [hsame.ovf, hs] at ht

/-- Settles O15: the two overflow conditions are lost coefficients, and OVF is sticky but for the host and reset. -/
theorem ovfIsSetExactlyByLostCoefficients : Obligations.OvfIsSetExactlyByLostCoefficients := by
  refine ⟨fun rd rs1 n s t h => ?_, fun rd rs1 rs2 s t h => ?_, fun rd rs1 rs2 s t h => ?_,
    fun i s t hi h => exec_keeps_ovf hi h, fun s d hd => by simp [hd], fun s => rfl,
    fun s t hs ht h => step_clears_ovf hs ht h⟩
  · rw [shiftLeft_ovf h, Bool.or_eq_true, shiftOverflows_iff]
  · rw [shiftLeft_ovf h, Bool.or_eq_true, shiftOverflows_iff]
    rfl
  · rw [execPmul_ovf h, Bool.or_eq_true, productOverflows_iff]

end Sys2Proof.Machine
end

section
/-! What a command writes to its destination, as a value of the registers it reads (R22, R26). -/

namespace Sys2Proof.Machine

variable {s t u : State}

/-- The word a completing command writes to its X destination; 0 for a command without one (R22, R75). -/
def resultX (s : State) : Instr → Word
  | .log2w _ a => natWord (floorLog2 (s.readX a))
  | .log2h _ a => natWord (floorLog2 (s.readX32 a))
  | .clzw _ a => natWord (leadingZeros (s.readX a))
  | .clzh _ a => natWord (leadingZeros (s.readX32 a))
  | .ilv16 _ a b => zext64 (interleave (s.readX16 a) (s.readX16 b))
  | .ilv32 _ a b => zext64 (interleave (s.readX32 a) (s.readX32 b))
  | .conv16 _ a b => zext64 (conv (s.readX16 a) (s.readX16 b))
  | .conv32 _ a b => zext64 (conv (s.readX32 a) (s.readX32 b))
  | .xli _ imm16 hw => placeHalf imm16 hw
  | .xlk rd imm16 hw => keepHalf (s.readX rd) imm16 hw
  | .pgetb _ a k => block (s.readBits a) k
  | .pbit _ a n => zext64 (BitVec.ofBool (coefficient (s.readBits a) n))
  | .pdeg _ a => degreeWord (s.readDeg a)
  | .psize _ a => degreeWord (s.readDeg a + 1)
  | .pnub _ a => degreeWord (usedBlocks (s.readDeg a))
  | _ => 0#64

/-- The value a completing command writes to its P destination; 0 for a command without one (R26, R75). -/
def resultP (s : State) : Instr → Coeffs
  | .pfromi _ a => (s.readX a).setWidth 256
  | .pfromb _ a start count => fromBlocks (s.readBits a) start count
  | .psetb rd a k => setBlock (s.readBits rd) k (s.readX a)
  | .pxor _ a b => s.readBits a ^^^ s.readBits b
  | .pand _ a b => s.readBits a &&& s.readBits b
  | .por _ a b => s.readBits a ||| s.readBits b
  | .pslli _ a n => shl (s.readBits a) n
  | .psrli _ a n => shr (s.readBits a) n
  | .psll _ a b => shl (s.readBits a) (s.readAmount b)
  | .psrl _ a b => shr (s.readBits a) (s.readAmount b)
  | .pmul _ a b => truncProduct (s.readBits a) (s.readBits b)
  | _ => 0#256

/-- A command that completes leaves `resultX` in its X destination. -/
theorem exec_readX_dest {i : Instr} {d : XReg} (hf : rangeFault i = none) (hd : destX i = some d)
    (h : exec i s = .next t) : t.readX d = resultX s i := by
  cases i with
  | pgetb rd rs1 k =>
    have hk : k < 4 := by simpa [rangeFault] using hf
    obtain rfl : rd = d := Option.some.inj hd
    obtain rfl := Host.Outcome.next.inj ((if_pos (decide_eq_true hk)).symm.trans h)
    exact readX_setX_same _ _ _
  | pbit rd rs1 n =>
    have hn : n < 256 := by simpa [rangeFault] using hf
    obtain rfl : rd = d := Option.some.inj hd
    obtain rfl := Host.Outcome.next.inj ((if_pos (decide_eq_true hn)).symm.trans h)
    exact readX_setX_same _ _ _
  | _ =>
    cases hd <;>
    · obtain rfl := Host.Outcome.next.inj h
      exact readX_setX_same _ _ _

/-- A command that completes leaves `resultP`, with its degree, in its P destination. -/
theorem exec_readP_dest {i : Instr} {d : PReg} (hf : rangeFault i = none) (hd : destP i = some d)
    (h : exec i s = .next t) : t.readP d = Poly.ofBits (resultP s i) := by
  cases i with
  | pfromb rd rs1 start count =>
    have hr : start + count ≤ 4 := by simpa [rangeFault] using hf
    obtain rfl : rd = d := Option.some.inj hd
    obtain rfl := Host.Outcome.next.inj ((if_pos (decide_eq_true hr)).symm.trans h)
    exact readP_setP_same _ _ _
  | psetb rd rs1 k =>
    have hk : k < 4 := by simpa [rangeFault] using hf
    obtain rfl : rd = d := Option.some.inj hd
    obtain rfl := Host.Outcome.next.inj ((if_pos (decide_eq_true hk)).symm.trans h)
    exact readP_setP_same _ _ _
  | _ =>
    cases hd <;>
    · obtain rfl := Host.Outcome.next.inj h
      exact readP_setP_same _ _ _

/-- `u` and `s` agree on the registers a command reads (R22, R26, R75). -/
structure AgreeOnReads (i : Instr) (s u : State) : Prop where
  x : ∀ r ∈ readsX i, u.readX r = s.readX r
  p : ∀ r ∈ readsP i, u.readP r = s.readP r

/-- The X result depends on the registers read alone: one or two X registers, or one P register. -/
theorem resultX_congr {i : Instr} (h : AgreeOnReads i s u) : resultX u i = resultX s i := by
  cases i with
  | log2w _ a | log2h _ a | clzw _ a | clzh _ a | xlk a _ _ =>
    have ha : u.readX a = s.readX a := h.x a (List.mem_singleton_self a)
    simp only [resultX, State.readX32, ha]
  | ilv16 _ a b | ilv32 _ a b | conv16 _ a b | conv32 _ a b =>
    have ha : u.readX a = s.readX a := h.x a List.mem_cons_self
    have hb : u.readX b = s.readX b := h.x b (List.mem_pair.2 (.inr rfl))
    simp only [resultX, State.readX16, State.readX32, ha, hb]
  | pgetb _ a _ | pbit _ a _ | pdeg _ a | psize _ a | pnub _ a =>
    have ha : u.readP a = s.readP a := h.p a (List.mem_singleton_self a)
    simp only [resultX, State.readBits, State.readDeg, ha]
  | _ => rfl

/-- The P result depends on the registers read alone: X or P registers, the destination itself for PSETB. -/
theorem resultP_congr {i : Instr} (h : AgreeOnReads i s u) : resultP u i = resultP s i := by
  cases i with
  | pfromi _ a =>
    have ha : u.readX a = s.readX a := h.x a (List.mem_singleton_self a)
    simp only [resultP, ha]
  | psetb a b _ | psll _ a b | psrl _ a b =>
    have ha : u.readP a = s.readP a := h.p a (List.mem_singleton_self a)
    have hb : u.readX b = s.readX b := h.x b (List.mem_singleton_self b)
    simp only [resultP, State.readBits, State.readAmount, ha, hb]
  | pfromb _ a _ _ | pslli _ a _ | psrli _ a _ =>
    have ha : u.readP a = s.readP a := h.p a (List.mem_singleton_self a)
    simp only [resultP, State.readBits, ha]
  | pxor _ a b | pand _ a b | por _ a b | pmul _ a b =>
    have ha : u.readP a = s.readP a := h.p a List.mem_cons_self
    have hb : u.readP b = s.readP b := h.p b (List.mem_pair.2 (.inr rfl))
    simp only [resultP, State.readBits, ha, hb]
  | _ => rfl

/-- A command writes no register but its destination, also when it faults (R22, R26, R185). -/
theorem exec_frame {i : Instr} (h : exec i s = .next t) : SameXBut (destX i) s t ∧ SamePBut (destP i) s t := by
  obtain ⟨-, heff⟩ | ⟨c, -, rfl⟩ := exec_next_cases h
  · exact ⟨heff.x, heff.p⟩
  · exact ⟨fun _ _ => rfl, fun _ _ => rfl⟩

/-- Settles O13: the frame, and that the two results are functions of the registers read. -/
theorem registersReadAndWrittenAsListed : Obligations.RegistersReadAndWrittenAsListed := by
  refine ⟨fun i s t h => exec_frame h, fun i s u t v hf hx hp hs hu => ⟨fun d hd => ?_, fun d hd => ?_⟩⟩
  · rw [exec_readX_dest hf hd hs, exec_readX_dest hf hd hu, resultX_congr ⟨hx, hp⟩]
  · rw [exec_readP_dest hf hd hs, exec_readP_dest hf hd hu, resultP_congr ⟨hx, hp⟩]

end Sys2Proof.Machine
end

section
/-! The map of the host window, and the responses accesses get (spec/20_memory.md R52, R53). -/

namespace Sys2Proof.Machine

/-- Among the multiples of 8, the offsets the map leaves out: its two holes and what lies beyond its end (R53). -/
theorem windowReg_eq_none_iff {off : Nat} (h : off % 8 = 0) :
    windowReg off = none ↔
      (0x030 ≤ off ∧ off < 0x100) ∨ (0x180 ≤ off ∧ off < 0x200) ∨ 0x480 ≤ off := by
  unfold windowReg cmdOffset statusOffset
  split_ifs <;> simp only [true_iff, false_iff] <;> omega

/-- The accesses that reach no register (R52). -/
theorem accessReg_eq_none_iff {off width : Nat} :
    accessReg off width = none ↔
      width ≠ 8 ∨ off % 8 ≠ 0 ∨ (0x030 ≤ off ∧ off < 0x100) ∨ (0x180 ≤ off ∧ off < 0x200) ∨ 0x480 ≤ off := by
  by_cases h : width = 8 ∧ off % 8 = 0
  · simp [accessReg, h, windowReg_eq_none_iff]
  · simp only [accessReg, if_neg h, true_iff]
    omega

/-- No write of a register touches the responses given so far. -/
@[simp] theorem writeReg_outputs (s : State) (r : WinReg) (d : Word) : (s.writeReg r d).outputs = s.outputs := by
  cases r with
  | ctrl => exact writeCtrl_outputs s d
  | _ => rfl

section Access

variable {off width : Nat} (s : State)

theorem performAccess_read_of_none (h : accessReg off width = none) :
    performAccess (.read off width) s = s.respond .busError := by
  simp [performAccess, h]

theorem performAccess_write_of_none (d : Word) (h : accessReg off width = none) :
    performAccess (.write off width d) s = s.respond .busError := by
  simp [performAccess, h]

theorem performAccess_read_of_some {r : WinReg} (h : accessReg off width = some r) :
    performAccess (.read off width) s = (s.draw (s.readDraws r)).respond (.data (s.readReg r)) := by
  simp [performAccess, h]

theorem performAccess_write_of_some {r : WinReg} (d : Word) (h : accessReg off width = some r) :
    performAccess (.write off width d) s = (s.writeReg r d).respond .written := by
  simp [performAccess, h]

end Access

/-- Settles O48: an access gets BUS_ERROR exactly if it reaches no register, and its response otherwise. -/
theorem otherAccessesGetBusError : Obligations.OtherAccessesGetBusError := by
  intro off width d s
  rw [← accessReg_eq_none_iff]
  refine ⟨fun h => ⟨performAccess_read_of_none s h, performAccess_write_of_none s d h⟩, fun h => ?_⟩
  obtain ⟨r, hr⟩ := Option.ne_none_iff_exists'.mp h
  rw [performAccess_read_of_some s hr, performAccess_write_of_some s d hr]
  exact ⟨⟨s.readReg r, by simp⟩, by simp⟩

end Sys2Proof.Machine
end

section
/-! The command port: a CMD write, its wait at a full CMDQ, and the order in which commands leave
(spec/20_memory.md R58). -/

namespace Sys2Proof.Machine

variable {s t : State}

/-! ### Turns -/

/-- A command waits and the host port cannot move: the sequencer moves. -/
theorem turn_of_host_waiting (hs : s.sequencerReady = true) (hh : s.hostReady = false) :
    s.turn = some .sequencer := by
  simp [State.turn, State.contended, hs, hh]

/-- With reset released and a command in CMDQ, the sequencer can move. -/
theorem sequencerReady_of_cmdq (hr : s.inReset = false) (hq : s.cmdq ≠ []) : s.sequencerReady = true := by
  simp [State.sequencerReady, hr, hq]

/-- With reset released, an access at the head of the inputs may take effect when it is ready. -/
theorem hostReady_of_access {a : HostAccess} {rest : List Input} (hr : s.inReset = false)
    (hi : s.inputs = .access a :: rest) : s.hostReady = s.accessReady a := by
  simp [State.hostReady, hi, hr]

/-- The host port's turn: the first input takes effect. -/
theorem step_of_host {i : Input} {rest : List Input} (ht : s.turn = some .host) (hi : s.inputs = i :: rest) :
    step s = .next (performInput i { s.takeTurn with inputs := rest }) := by
  simp [step, coreStep, ht, hostStep, hi]

/-! ### One CMD write -/

/-- A CMD write is ready exactly while CMDQ has room. -/
theorem accessReady_write_cmd (s : State) (d : Word) :
    s.accessReady (.write 0x008 8 d) = decide (s.cmdq.length < Config.cmdqDepth) := rfl

/-- Outside reset a CMD write puts data[31:0] at the tail of CMDQ. -/
theorem performInput_write_cmd (d : Word) (hr : s.inReset = false) :
    performInput (.access (.write 0x008 8 d)) s = (s.enqueue (d.setWidth 32)).respond .written := by
  simp [performInput, hr, performAccess_write_of_some s d (show accessReg 0x008 8 = some .cmd by decide),
    State.writeReg]

/-! ### One command -/

/-- A word that is taken has a next state, and nothing outside a command's reach changes (R180, R186). -/
theorem runCommand_sameOutside (w : Command) (s : State) : ∃ t, runCommand w s = .next t ∧ SameOutside s t := by
  obtain ⟨t, h, -⟩ := runCommand_withOutside w s s
  refine ⟨t, h, ?_⟩
  obtain ⟨-, rfl⟩ | ⟨-, c, -, rfl⟩ | ⟨-, i, -, heff⟩ := runCommand_next_cases h
  · exact ⟨rfl, rfl, rfl, rfl, rfl, rfl⟩
  · exact ⟨rfl, rfl, rfl, rfl, rfl, rfl⟩
  · exact heff.completed.outside

/-- Settles O54: the write's own step, its wait at a full CMDQ, its readiness when there is room, and the head of CMDQ
leaving. -/
theorem cmdWritesQueueTheWord : Obligations.CmdWritesQueueTheWord := by
  refine ⟨fun s d rest hr hi ht => ?_, fun s d rest hr hi hfull => ?_, fun s d rest hr hi hroom => ?_,
    fun s w q ht hq => ?_⟩
  · refine ⟨_, (step_of_host ht hi).trans (congrArg _ (performInput_write_cmd d (by simpa using hr))), ?_⟩
    obtain ⟨l, hl⟩ := takeTurn_eq s
    rw [hl, ← BitVec.ofNat_toNat]
    exact ⟨rfl, rfl, rfl, fun _ _ => rfl, fun _ _ => rfl, ⟨rfl, rfl, rfl⟩, rfl, rfl, rfl, rfl, hr, rfl⟩
  · have hne : s.cmdq ≠ [] := List.ne_nil_of_length_pos (Nat.lt_of_lt_of_le (Nat.succ_pos _) hfull)
    refine turn_of_host_waiting (sequencerReady_of_cmdq hr hne) ?_
    rw [hostReady_of_access hr hi, accessReady_write_cmd]
    exact decide_eq_false (Nat.not_lt.mpr hfull)
  · rw [hostReady_of_access hr hi, accessReady_write_cmd]
    exact decide_eq_true hroom
  · obtain ⟨t, h, hout⟩ := runCommand_sameOutside w (s.takeTurn.withQueue q)
    exact ⟨t, (step_of_sequencer ht hq).trans h, by simpa using hout.cmdq, by simpa using hout.inputs⟩

end Sys2Proof.Machine
end

section
/-! The rows of the opcode map (spec/30_encoding.md R74): a word's opcode fixes its row, a word decodes exactly when
it fits a row, and the words that fit none are illegal (R77). -/

namespace Sys2Proof

open Machine

variable {w : Command} {i : Instr} {f : Format}

/-! ### The opcode of a word -/

/-- The opcode as a number (R71). -/
theorem opField_eq (w : Command) : opField w = w.toNat / 2 ^ 26 := by
  have hw := w.isLt
  rw [opField, field_eq]
  omega

/-- Every mask holds the opcode bits (R72). -/
theorem extractLsb'_formatMask_opcode (f : Format) : (formatMask f).extractLsb' 26 6 = BitVec.allOnes 6 := by
  cases f <;> rfl

/-- The opcode of a word that shows an opcode under a format's mask (R74). -/
theorem opField_of_mask {op : Nat} (h : w &&& formatMask f = opMatch op) : opField w = op % 64 := by
  have hop : (w &&& formatMask f).extractLsb' 26 6 = BitVec.ofNat 6 op := by
    rw [h, opMatch_eq]
    exact BitVec.extractLsb'_append_eq_left
  rw [BitVec.extractLsb'_and, extractLsb'_formatMask_opcode, BitVec.and_allOnes] at hop
  rw [opField, field, hop, BitVec.toNat_ofNat]

/-- Below the opcode a match is 0 (R74). -/
theorem opMatch_and_low (op : Nat) : opMatch op &&& 0x03FFFFFF#32 = 0 := by
  rw [opMatch_eq]
  show ((_ ++ _ : BitVec (6 + 26)) &&& (0#6 ++ BitVec.allOnes 26 : BitVec (6 + 26))) = _
  rw [BitVec.and_append, BitVec.and_zero, BitVec.zero_and]
  rfl

/-! ### Rows -/

/-- The word passes the mask of the row and shows its opcode (R74). -/
def FitsRow (w : Command) (r : OpcodeRow) : Prop := w &&& formatMask r.fmt = opMatch r.op

/-- The row's (match, mask) pair, as the table prints it (R74). -/
def OpcodeRow.pair (r : OpcodeRow) : Command × Command := (opMatch r.op, formatMask r.fmt)

/-- One command of each row, in the order of R74. -/
def rowCommands : List Instr :=
  [.nop, .log2w 0 0, .log2h 0 0, .clzw 0 0, .clzh 0 0, .ilv16 0 0 0, .ilv32 0 0 0, .conv16 0 0 0, .conv32 0 0 0,
    .xli 0 0 0, .xlk 0 0 0, .pfromi 0 0, .pfromb 0 0 0 0, .pgetb 0 0 0, .psetb 0 0 0, .pbit 0 0 0, .pdeg 0 0,
    .psize 0 0, .pnub 0 0, .pxor 0 0 0, .pand 0 0 0, .por 0 0 0, .pslli 0 0 0, .psrli 0 0 0, .psll 0 0 0,
    .psrl 0 0 0, .pmul 0 0 0]

/-- The printed table is the pairs of the commands' rows (R74). -/
theorem opcodeTable_eq : opcodeTable = rowCommands.map fun i => (opcodeRow i).pair := by decide

/-- Every command's row is one of the 27. -/
theorem opcodeRow_mem (i : Instr) : opcodeRow i ∈ rowCommands.map opcodeRow := by
  cases i <;> simp [opcodeRow, rowCommands]

/-- The table's rows are the rows of the commands (R74). -/
theorem mem_opcodeTable {row : Command × Command} : row ∈ opcodeTable ↔ ∃ i, row = (opcodeRow i).pair := by
  rw [opcodeTable_eq]
  constructor
  · intro h
    obtain ⟨i, -, rfl⟩ := List.mem_map.mp h
    exact ⟨i, rfl⟩
  · rintro ⟨i, rfl⟩
    obtain ⟨j, hj, hrow⟩ := List.mem_map.mp (opcodeRow_mem i)
    exact List.mem_map.mpr ⟨j, hj, by rw [hrow]⟩

/-- 0x00, the gaps of the map and everything above 0x20 are no row's opcode (R74, R77). -/
theorem opcodeRow_op_assigned (i : Instr) :
    (opcodeRow i).op ∉ [0x00, 0x02, 0x03, 0x0E, 0x0F, 0x1B] ∧ (opcodeRow i).op < 0x21 := by
  cases i <;> simp [opcodeRow]

/-- The row found for a word is the row of the command it gives. -/
theorem opcodeRow_of_rowOf (h : rowOf w = some (f, i)) : opcodeRow i = ⟨opField w, f⟩ := by
  unfold rowOf at h
  split at h <;> cases h <;> rename_i hop <;> rw [hop] <;> rfl

/-- A word with a row's opcode is given that row. -/
theorem rowOf_of_op (i : Instr) (h : opField w = (opcodeRow i).op) :
    ∃ j, rowOf w = some ((opcodeRow i).fmt, j) ∧ opcodeRow j = opcodeRow i := by
  have hrow : ∃ j, rowOf w = some ((opcodeRow i).fmt, j) := by
    cases i <;> rw [rowOf, h] <;> exact ⟨_, rfl⟩
  obtain ⟨j, hj⟩ := hrow
  exact ⟨j, hj, by rw [opcodeRow_of_rowOf hj, h]⟩

/-- A word whose opcode no row has is given no row. -/
theorem rowOf_eq_none (h : ∀ i, opField w ≠ (opcodeRow i).op) : rowOf w = none := by
  by_contra hne
  obtain ⟨⟨f, i⟩, hrow⟩ := Option.ne_none_iff_exists'.mp hne
  exact h i (by rw [opcodeRow_of_rowOf hrow])

/-! ### Decoding by rows -/

/-- A decoded word fits the row of its command (R74, R76). -/
theorem fitsRow_of_decode (h : decode w = .ok i) : FitsRow w (opcodeRow i) := by
  obtain ⟨f, hrow, hmask⟩ := rowOf_of_decode h
  rw [FitsRow, opcodeRow_of_rowOf hrow]
  exact hmask

/-- A word that fits a row decodes to a command of that row (R74, R76). -/
theorem decode_of_fitsRow (h : FitsRow w (opcodeRow i)) : ∃ j, decode w = .ok j ∧ opcodeRow j = opcodeRow i := by
  have hop : opField w = (opcodeRow i).op := by
    rw [opField_of_mask h, Nat.mod_eq_of_lt ((opcodeRow_op_assigned i).2.trans (by decide))]
  obtain ⟨j, hj, hrow⟩ := rowOf_of_op i hop
  refine ⟨j, ?_, hrow⟩
  simp only [decode, hj]
  exact if_pos (hop ▸ h)

/-- A word decodes exactly when it fits a row of the table (R74). -/
theorem exists_decode_iff : (∃ i, decode w = .ok i) ↔ ∃ row ∈ opcodeTable, w &&& row.2 = row.1 := by
  constructor
  · rintro ⟨i, h⟩
    exact ⟨_, mem_opcodeTable.mpr ⟨i, rfl⟩, fitsRow_of_decode h⟩
  · rintro ⟨row, hmem, hfit⟩
    obtain ⟨i, rfl⟩ := mem_opcodeTable.mp hmem
    obtain ⟨j, hj, -⟩ := decode_of_fitsRow hfit
    exact ⟨j, hj⟩

/-- No word fits two rows: the row that fits is the row of the decoded command (R74). -/
theorem opcodeRow_eq_of_fitsRow {j : Instr} (hi : FitsRow w (opcodeRow i)) (hj : FitsRow w (opcodeRow j)) :
    opcodeRow i = opcodeRow j := by
  obtain ⟨k, hk, hki⟩ := decode_of_fitsRow hi
  obtain ⟨l, hl, hlj⟩ := decode_of_fitsRow hj
  obtain rfl : k = l := Decoded.ok.inj (hk.symm.trans hl)
  rw [← hki, hlj]

/-- Settles O3: decoding succeeds on the words that fit a row, which is then the command's and the only one. -/
theorem wordsDecodeByTheOpcodeTable : Obligations.WordsDecodeByTheOpcodeTable := by
  refine ⟨fun w => exists_decode_iff, fun w i h => ⟨fitsRow_of_decode h, mem_opcodeTable.mpr ⟨i, rfl⟩⟩,
    fun w r1 h1 r2 h2 fit1 fit2 => ?_⟩
  obtain ⟨i, rfl⟩ := mem_opcodeTable.mp h1
  obtain ⟨j, rfl⟩ := mem_opcodeTable.mp h2
  rw [opcodeRow_eq_of_fitsRow fit1 fit2]

/-! ### Illegal words -/

/-- A word with no row is illegal, by its opcode (R77). -/
theorem decode_of_rowOf_none (h : rowOf w = none) :
    decode w = .illegal (if opField w = 0 then .zeroOpcode else .unassignedOpcode) := by
  simp [decode, h]

/-- A 1 in a must-be-zero bit of the row of its opcode makes a word illegal (R77). -/
theorem decode_of_mustBeZero (hop : opField w = (opcodeRow i).op)
    (hbits : w &&& (formatMask (opcodeRow i).fmt &&& 0x03FFFFFF#32) ≠ 0) : decode w = .illegal .mustBeZero := by
  obtain ⟨j, hj, -⟩ := rowOf_of_op i hop
  simp only [decode, hj]
  refine if_neg fun hmask => hbits ?_
  rw [← BitVec.and_assoc, hmask, opMatch_and_low]

/-- A word that fits no row does not decode (R74, R77). -/
theorem decode_illegal_of_no_row (h : ∀ row ∈ opcodeTable, w &&& row.2 ≠ row.1) :
    ∃ why, decode w = .illegal why := by
  cases hd : decode w with
  | ok i =>
    obtain ⟨row, hmem, hfit⟩ := exists_decode_iff.mp ⟨i, hd⟩
    exact absurd hfit (h row hmem)
  | illegal why => exact ⟨why, rfl⟩

/-- No row has opcode 0x00 (R77). -/
theorem decode_zeroOpcode (h : opField w = 0) : decode w = .illegal .zeroOpcode := by
  rw [decode_of_rowOf_none, if_pos h]
  refine rowOf_eq_none fun i hi => (opcodeRow_op_assigned i).1 ?_
  simp [← hi, h]

/-- No row has an opcode in a gap of the map or above 0x20 (R77). -/
theorem decode_unassignedOpcode (h : opField w ∈ [0x02, 0x03, 0x0E, 0x0F, 0x1B] ∨ 0x21 ≤ opField w) :
    decode w = .illegal .unassignedOpcode := by
  rw [decode_of_rowOf_none, if_neg]
  · intro h0
    simp [h0] at h
  · refine rowOf_eq_none fun i hi => ?_
    obtain ⟨hne, hlt⟩ := opcodeRow_op_assigned i
    rw [hi] at h
    obtain hgap | habove := h
    · exact hne (List.mem_cons_of_mem _ hgap)
    · exact absurd hlt (Nat.not_lt.mpr habove)

/-- Settles O5: the opcodes no row has, the must-be-zero bits, and the fault of a word that fits no row. -/
theorem illegalWordsAreRefused : Obligations.IllegalWordsAreRefused := by
  refine ⟨fun w h => decode_zeroOpcode ((opField_eq w).trans h), fun w h => decode_unassignedOpcode ?_,
    fun w i h hbits => decode_of_mustBeZero ((opField_eq w).trans h) hbits, fun w s hno hs => ?_⟩
  · rwa [opField_eq]
  · obtain ⟨why, hd⟩ := decode_illegal_of_no_row hno
    exact ⟨_, runCommand_of_illegal hs hd, faultEntered_enterFault _ w⟩

end Sys2Proof
end

section
/-! The number a command's word is, its parts at the positions of spec/30_encoding.md R71. -/

namespace Sys2Proof

open Machine

variable {w : Command} {i : Instr} {f : Format}

/-! ### The fields' bounds (R73) -/

theorem fitsImm14_iff {n : Nat} : fitsImm14 n = true ↔ n < 2 ^ 14 := decide_eq_true_iff.trans Nat.lt_succ_iff.symm

theorem fitsImm7_iff {n : Nat} : fitsImm7 n = true ↔ n < 2 ^ 7 := decide_eq_true_iff.trans Nat.lt_succ_iff.symm

theorem fitsImm16_iff {n : Nat} : fitsImm16 n = true ↔ n < 2 ^ 16 := decide_eq_true_iff.trans Nat.lt_succ_iff.symm

theorem fitsHw_iff {n : Nat} : fitsHw n = true ↔ n < 2 ^ 2 := decide_eq_true_iff.trans Nat.lt_succ_iff.symm

theorem field_lt (w : Command) (lo len : Nat) : field w lo len < 2 ^ len := (w.extractLsb' lo len).isLt

/-- The immediates that decoding reads fit their fields (R73). -/
theorem wellFormed_of_rowOf (h : rowOf w = some (f, i)) : WellFormed i := by
  unfold rowOf at h
  split at h <;> cases h
  -- XLI and XLK, then PFROMB, then the rows with imm14.
  case h_10 | h_11 =>
    exact (Bool.and_eq_true _ _).mpr ⟨fitsImm16_iff.mpr (field_lt ..), fitsHw_iff.mpr (field_lt ..)⟩
  case h_13 => exact (Bool.and_eq_true _ _).mpr ⟨fitsImm7_iff.mpr (field_lt ..), fitsImm7_iff.mpr (field_lt ..)⟩
  case h_14 | h_15 | h_16 | h_23 | h_24 => exact fitsImm14_iff.mpr (field_lt ..)
  all_goals rfl

/-- A register number fits its field (R73). -/
theorem rdNumber_lt (i : Instr) : rdNumber i < 16 := by
  unfold rdNumber
  split
  · exact Fin.isLt _
  · exact Fin.isLt _
  · decide

/-- A register number fits its field (R73). -/
theorem rs1Number_lt (i : Instr) : rs1Number i < 16 := by
  cases i with
  | nop | xli _ _ _ | xlk _ _ _ => exact Nat.zero_lt_succ _
  | _ => exact Fin.isLt _

/-- The parts below rs1 fit bits 17:0 (R71, R78). -/
theorem lowNumber_lt (h : WellFormed i) : lowNumber i < 2 ^ 18 := by
  cases i with
  | xli _ _ _ | xlk _ _ _ =>
    simp only [WellFormed, wellFormed, Bool.and_eq_true, fitsImm16_iff, fitsHw_iff] at h
    simp only [lowNumber]
    omega
  | pfromb _ _ _ _ =>
    simp only [WellFormed, wellFormed, Bool.and_eq_true, fitsImm7_iff] at h
    simp only [lowNumber]
    omega
  | pgetb _ _ _ | psetb _ _ _ | pbit _ _ _ | pslli _ _ _ | psrli _ _ _ =>
    exact (fitsImm14_iff.mp h).trans (by decide)
  | _ =>
    simp only [lowNumber]
    omega

/-! ### The word -/

/-- The word of a command, its parts at their positions (R71). -/
theorem toNat_encode (h : WellFormed i) :
    (encode i).toNat = (opcodeRow i).op * 2 ^ 26 + rdNumber i * 2 ^ 22 + rs1Number i * 2 ^ 18 + lowNumber i := by
  cases i with
  | nop => rfl
  | log2w rd a | log2h rd a | clzw rd a | clzh rd a | pfromi rd a | pdeg rd a | psize rd a | pnub rd a =>
    exact (toNat_packR2 _ rd a).trans (Nat.add_zero _).symm
  | ilv16 rd a b | ilv32 rd a b | conv16 rd a b | conv32 rd a b | pxor rd a b | pand rd a b | por rd a b
  | psll rd a b | psrl rd a b | pmul rd a b => exact toNat_packR _ rd a b
  | xli rd imm16 hw | xlk rd imm16 hw =>
    simp only [WellFormed, wellFormed, Bool.and_eq_true, fitsImm16_iff, fitsHw_iff] at h
    simp only [encode, toNat_packU, opcodeRow, rdNumber, destX, rs1Number, lowNumber]
    omega
  | pfromb rd a start count =>
    simp only [WellFormed, wellFormed, Bool.and_eq_true, fitsImm7_iff] at h
    simp only [encode, toNat_packI, toNat_rangeBits, opcodeRow, rdNumber, destX, destP, rs1Number, lowNumber]
    omega
  | pgetb rd a n | psetb rd a n | pbit rd a n | pslli rd a n | psrli rd a n =>
    simp only [WellFormed, wellFormed, fitsImm14_iff] at h
    simp only [encode, toNat_packI, imm14Bits, BitVec.toNat_ofNat, opcodeRow, rdNumber, destX, destP, rs1Number,
      lowNumber]
    omega

/-- Settles O4: the word is its command's word, whose parts have bounds that keep them apart. -/
theorem decodedOperandsAreTheWordsFields : Obligations.DecodedOperandsAreTheWordsFields := by
  intro w i h
  obtain ⟨f, hrow, -⟩ := rowOf_of_decode h
  have hwf := wellFormed_of_rowOf hrow
  have hw := toNat_encode hwf
  rw [encode_of_decode h] at hw
  have hrd := rdNumber_lt i
  have hrs1 := rs1Number_lt i
  have hlow := lowNumber_lt hwf
  refine ⟨hwf, ?_, ?_, ?_, ?_⟩ <;> omega

end Sys2Proof
end

section
/-! Halfwords of a 64-bit constant (spec/46_scalar_and_control.md R171, R172), and the pseudo-commands built from them
(30_encoding.md R79). -/

namespace Sys2Proof.Machine

variable {s : State}

/-- The halfword at its place, bit by bit (R171). -/
theorem getLsbD_placeHalf (imm16 hw : Nat) {j : Nat} (hj : j < 64) :
    (placeHalf imm16 hw).getLsbD j = (decide (16 * hw ≤ j ∧ j < 16 * hw + 16) && imm16.testBit (j - 16 * hw)) := by
  have hlt : j < 16 * hw + 16 ↔ j < 16 * hw ∨ j - 16 * hw < 16 := by omega
  by_cases hlo : 16 * hw ≤ j
  · simp [placeHalf, hj, hlo, hlt, BitVec.getLsbD_ofNat, Nat.not_lt.mpr hlo]
  · simp [placeHalf, hj, hlo, Nat.not_le.mp hlo]

/-- A word with one halfword replaced, bit by bit (R172). -/
theorem getLsbD_keepHalf (v : Word) (imm16 hw : Nat) {j : Nat} (hj : j < 64) :
    (keepHalf v imm16 hw).getLsbD j =
      if 16 * hw ≤ j ∧ j < 16 * hw + 16 then imm16.testBit (j - 16 * hw) else v.getLsbD j := by
  have hmask : (0xFFFF#64 <<< (16 * hw)).getLsbD j = decide (16 * hw ≤ j ∧ j < 16 * hw + 16) := by
    have hff : (0xFFFF).testBit (j - 16 * hw) = decide (j - 16 * hw < 16) := Nat.testBit_two_pow_sub_one 16 _
    rw [show 0xFFFF#64 <<< (16 * hw) = placeHalf 0xFFFF hw from rfl, getLsbD_placeHalf _ _ hj, hff,
      ← Bool.decide_and]
    exact decide_eq_decide.mpr (by omega)
  rw [keepHalf, BitVec.getLsbD_or, BitVec.getLsbD_and, BitVec.getLsbD_not, hmask, getLsbD_placeHalf _ _ hj]
  split <;> simp [*]

/-- The bits of a halfword are the word's bits. -/
theorem testBit_halfword (v : Word) {lo j : Nat} (h : lo ≤ j ∧ j < lo + 16) :
    (v.extractLsb' lo 16).toNat.testBit (j - lo) = v.getLsbD j := by
  have hj : j - lo < 16 := by omega
  rw [BitVec.testBit_toNat, BitVec.getLsbD_extractLsb', Nat.add_sub_cancel' h.1, decide_eq_true hj, Bool.true_and]

/-- A 64-bit word is put together by its four halfwords, the highest placed and the others replaced (R79). -/
theorem keepHalf_halfwords (v : Word) :
    keepHalf (keepHalf (keepHalf (placeHalf (v.extractLsb' 48 16).toNat 3) (v.extractLsb' 32 16).toNat 2)
      (v.extractLsb' 16 16).toNat 1) (v.extractLsb' 0 16).toNat 0 = v := by
  apply BitVec.eq_of_getLsbD_eq
  intro j hj
  simp only [getLsbD_keepHalf _ _ _ hj, getLsbD_placeHalf _ _ hj, Nat.reduceMul]
  split_ifs with h0 h1 h2
  · exact testBit_halfword v h0
  · exact testBit_halfword v h1
  · exact testBit_halfword v h2
  · have h3 : 48 ≤ j ∧ j < 48 + 16 := by omega
    rw [decide_eq_true h3, Bool.true_and, testBit_halfword v h3]

/-- The small constant of LI: halfword 0 and nothing above it (R79). -/
theorem toNat_placeHalf_zero {n : Nat} (h : n < 2 ^ 16) : (placeHalf n 0).toNat = n := by
  simp only [placeHalf, Nat.mul_zero, BitVec.shiftLeft_zero, BitVec.toNat_setWidth, BitVec.toNat_ofNat]
  omega

/-! ### The expansions -/

/-- A halfword as a number (R79). -/
theorem toNat_extractLsb'_halfword (v : Word) (lo : Nat) :
    (v.extractLsb' lo 16).toNat = v.toNat / 2 ^ lo % 2 ^ 16 := by
  rw [BitVec.extractLsb'_toNat, Nat.shiftRight_eq_div_pow]

/-- A completed write of a P register leaves the value and its degree, however the value is computed (R25). -/
theorem holdsPoly_retire_setP {r : PReg} {u v : Coeffs} (h : u = v) : HoldsPoly (s.setP r u).retire r v :=
  h ▸ setP_holds r u

/-- LI64's halfwords as numbers (R79). -/
theorem expandPseudo_li64 (xd : XReg) (v : Word) :
    expandPseudo (.li64 xd v) = [.xli xd (v.toNat / 2 ^ 48 % 2 ^ 16) 3, .xlk xd (v.toNat / 2 ^ 32 % 2 ^ 16) 2,
      .xlk xd (v.toNat / 2 ^ 16 % 2 ^ 16) 1, .xlk xd (v.toNat % 2 ^ 16) 0] := by
  simp only [expandPseudo, toNat_extractLsb'_halfword, Nat.pow_zero, Nat.div_one]

/-- The four commands of LI64 leave the word in `xd`, change no other register, and are counted four times (R79). -/
theorem runCommands_li64 (xd : XReg) (v : Word) (s : State) :
    ∃ t, runCommands (expandPseudo (.li64 xd v)) s = .next t ∧
      t.readX xd = v ∧ SameXBut (some xd) s t ∧ SamePBut none s t ∧ t.cmdcnt = s.cmdcnt + 4#32 := by
  refine ⟨_, rfl, ?_, fun r hr => ?_, fun _ _ => rfl, ?_⟩
  · simp only [retire_readX, readX_setX_same, keepHalf_halfwords]
  · have hne : r ≠ xd := fun e => hr (congrArg some e)
    simp only [retire_readX, readX_setX_ne _ _ _ _ hne]
  · simp only [retire_cmdcnt, setX_cmdcnt, BitVec.add_assoc]
    rfl

/-- Settles O47: each expansion, and the values its run leaves. -/
theorem pseudoCommandsDoWhatTheySay : Obligations.PseudoCommandsDoWhatTheySay := by
  refine ⟨fun pd pa pb s => ⟨rfl, rfl, _, rfl, holdsPoly_retire_setP rfl⟩,
    fun pd ps s => ⟨rfl, _, rfl, ?_, rfl⟩, fun pd s => ⟨rfl, _, rfl, ?_⟩,
    fun xd n s hn => ⟨rfl, _, rfl, ?_, rfl⟩,
    fun xd v s => ⟨expandPseudo_li64 xd v, runCommands_li64 xd v s⟩⟩
  · exact holdsPoly_retire_setP BitVec.or_self
  · have hclr : HoldsPoly (s.setP pd (s.readBits pd ^^^ s.readBits pd)).retire pd 0 :=
      holdsPoly_retire_setP BitVec.xor_self
    exact ⟨hclr, hclr.2, rfl⟩
  · exact (congrArg BitVec.toNat (readX_setX_same s xd _)).trans (toNat_placeHalf_zero hn)

end Sys2Proof.Machine
end

section
/-! The bit scans (spec/40_bitscan.md R90 to R94), each rule once for a word of any width up to 64. -/

namespace Sys2Proof.Machine

variable {s t : State} {w : Nat}

/-- A W-bit scan ignores the bits above its input (R92, R94). -/
theorem toNat_readX32 (s : State) (r : XReg) : (s.readX32 r).toNat = (s.readX r).toNat % 2 ^ 32 :=
  BitVec.toNat_setWidth 32 (s.readX r)

/-! ### Z -/

/-- A scan leaves in Z whether its input is 0 (R90). -/
theorem scanResult_z {rd : XReg} {r : Nat} {v : BitVec w} (h : scanResult rd r (v == 0) s = .next t) :
    t.z = true ↔ v.toNat = 0 := by
  obtain rfl := Host.Outcome.next.inj h
  simp [BitVec.toNat_eq]

/-- A command that is no scan leaves Z, also when it faults (R90, R184). -/
theorem exec_keeps_z {i : Instr} (hi : writesZ i = false) (h : exec i s = .next t) : t.z = s.z := by
  obtain ⟨-, heff⟩ | ⟨c, -, rfl⟩ := exec_next_cases h
  · exact heff.z hi
  · rfl

/-- Settles O14: a scan of either kind says in Z whether the word, or its low half, is 0. -/
theorem zIsWrittenByTheScansOnly : Obligations.ZIsWrittenByTheScansOnly := by
  refine ⟨fun rd rs1 s t => ⟨?_, ?_⟩, fun i s t hi h => exec_keeps_z hi h⟩
  · rintro (h | h) <;> exact scanResult_z h
  · rw [← toNat_readX32]
    rintro (h | h) <;> exact scanResult_z h

/-! ### The result -/

/-- A scan completes: its result is in the destination, and nothing else but Z changed (R90). -/
theorem scanResult_completes (rd : XReg) (r : Nat) (v : BitVec w) (s : State) :
    ∃ t, scanResult rd r (v == 0) s = .next t ∧ FrameScan rd s t ∧ (t.z = true ↔ v.toNat = 0) ∧
      t.readX rd = natWord r :=
  ⟨_, rfl, frameScan_setX rd _ _, scanResult_z rfl, readX_setX_same s rd _⟩

/-- The index of a word's bit fits the destination. -/
theorem toNat_natWord_floorLog2 (hw : 0 < w) (hw' : w ≤ 64) (v : BitVec w) :
    (natWord (floorLog2 v)).toNat = floorLog2 v := by
  have hlt := floorLog2_lt hw v
  exact Nat.mod_eq_of_lt (by omega)

/-- The highest set bit of a W-bit word, 0 for 0 (R91, R92). -/
theorem scanResult_floorLog2 (hw : 0 < w) (hw' : w ≤ 64) (rd : XReg) (v : BitVec w) (s : State) :
    ∃ t, scanResult rd (floorLog2 v) (v == 0) s = .next t ∧ FrameScan rd s t ∧
      (t.z = true ↔ v.toNat = 0) ∧
      (v.toNat = 0 → t.readX rd = 0#64) ∧
      (v.toNat ≠ 0 → 2 ^ (t.readX rd).toNat ≤ v.toNat ∧ v.toNat < 2 ^ ((t.readX rd).toNat + 1)) := by
  obtain ⟨t, hexec, hframe, hz, hx⟩ := scanResult_completes rd (floorLog2 v) v s
  refine ⟨t, hexec, hframe, hz, fun h0 => ?_, fun h0 => ?_⟩
  · obtain rfl : v = 0 := BitVec.eq_of_toNat_eq h0
    rw [hx, floorLog2_zero]
    rfl
  · rw [hx, toNat_natWord_floorLog2 hw hw']
    exact floorLog2_bounds (toNat_ne_zero.1 h0)

/-- Settles O23: LOG2W is the scan of the 64-bit word, LOG2H that of its low half. -/
theorem log2GivesTheHighestSetBit : Obligations.Log2GivesTheHighestSetBit := by
  refine ⟨fun rd rs1 s => ⟨Laws.EncodesToRow.log2w rd rs1, ?_⟩,
    fun rd rs1 s => ⟨Laws.EncodesToRow.log2h rd rs1, ?_⟩⟩
  · exact scanResult_floorLog2 (by decide) (by decide) rd (s.readX rs1) s
  · rw [← toNat_readX32]
    exact scanResult_floorLog2 (by decide) (by decide) rd (s.readX32 rs1) s

theorem leadingZeros_zero : leadingZeros (0 : BitVec w) = w := if_pos rfl

/-- Above the highest set bit `r` of a W-bit word stand W - 1 - r zeros (R93, R94). -/
theorem leadingZeros_of_ne {v : BitVec w} (h : v ≠ 0) : leadingZeros v = w - 1 - floorLog2 v := if_neg h

/-- The leading zeros of a W-bit word, W for 0 (R93, R94). -/
theorem scanResult_leadingZeros (hw : 0 < w) (rd : XReg) (v : BitVec w) (s : State) :
    ∃ t, scanResult rd (leadingZeros v) (v == 0) s = .next t ∧ FrameScan rd s t ∧
      (t.z = true ↔ v.toNat = 0) ∧
      (v.toNat = 0 → t.readX rd = BitVec.ofNat 64 w) ∧
      (v.toNat ≠ 0 → ∃ r, t.readX rd = BitVec.ofNat 64 (w - 1 - r) ∧ r ≤ w - 1 ∧
        2 ^ r ≤ v.toNat ∧ v.toNat < 2 ^ (r + 1)) := by
  obtain ⟨t, hexec, hframe, hz, hx⟩ := scanResult_completes rd (leadingZeros v) v s
  refine ⟨t, hexec, hframe, hz, fun h0 => ?_, fun h0 => ?_⟩
  · obtain rfl : v = 0 := BitVec.eq_of_toNat_eq h0
    rw [hx, leadingZeros_zero, natWord]
  · have hv := toNat_ne_zero.1 h0
    rw [hx, leadingZeros_of_ne hv]
    exact ⟨floorLog2 v, rfl, Nat.le_sub_one_of_lt (floorLog2_lt hw v), floorLog2_bounds hv⟩

/-- Settles O24: CLZW counts in the 64-bit word, CLZH in its low half. -/
theorem clzCountsTheLeadingZeros : Obligations.ClzCountsTheLeadingZeros := by
  refine ⟨fun rd rs1 s => ⟨Laws.EncodesToRow.clzw rd rs1, ?_⟩,
    fun rd rs1 s => ⟨Laws.EncodesToRow.clzh rd rs1, ?_⟩⟩
  · exact scanResult_leadingZeros (by decide) rd (s.readX rs1) s
  · rw [← toNat_readX32]
    exact scanResult_leadingZeros (by decide) rd (s.readX32 rs1) s

end Sys2Proof.Machine
end

section
/-! The interleave commands (spec/41_interleave.md R100 to R102), each rule once for words of any width up to 32. -/

namespace Sys2Proof.Machine

variable {w i : Nat}

/-- An even bit of the result is a bit of `a` (R100). -/
theorem getLsbD_zext64_interleave_even (hw : w ≤ 32) (a b : BitVec w) (hi : i < w) :
    (zext64 (interleave a b)).getLsbD (2 * i) = a.getLsbD i := by
  have hfit : 2 * i < 64 := by omega
  rw [zext64, BitVec.getLsbD_setWidth, getLsbD_interleave a b _ (by omega)]
  simp [hfit]

/-- An odd bit of the result is a bit of `b` (R100). -/
theorem getLsbD_zext64_interleave_odd (hw : w ≤ 32) (a b : BitVec w) (hi : i < w) :
    (zext64 (interleave a b)).getLsbD (2 * i + 1) = b.getLsbD i := by
  have hfit : 2 * i + 1 < 64 := by omega
  have hodd : (2 * i + 1) % 2 ≠ 0 := by omega
  have hhalf : (2 * i + 1) / 2 = i := by omega
  rw [zext64, BitVec.getLsbD_setWidth, getLsbD_interleave a b _ (by omega), if_neg hodd, hhalf]
  simp [hfit]

/-- Zero extension leaves a word's number below the bound of its own width. -/
theorem toNat_zext64_lt (v : BitVec w) : (zext64 v).toNat < 2 ^ w := by
  rw [zext64, BitVec.toNat_setWidth]
  exact (Nat.mod_le _ _).trans_lt v.isLt

/-- Interleaving the low W bits of two words merges the words' bits, and nothing stands above them (R101, R102). -/
theorem interleave_low_merges (hw : w ≤ 32) {v x y : Word}
    (hv : v = zext64 (interleave (x.setWidth w) (y.setWidth w))) :
    (∀ i, i < w → v.getLsbD (2 * i) = x.getLsbD i ∧ v.getLsbD (2 * i + 1) = y.getLsbD i) ∧
      v.toNat < 2 ^ (2 * w) := by
  subst hv
  refine ⟨fun i hi => ?_, toNat_zext64_lt _⟩
  rw [getLsbD_zext64_interleave_even hw _ _ hi, getLsbD_zext64_interleave_odd hw _ _ hi]
  simp [hi]

/-- Settles O26: both commands write the interleaved low parts of their sources and nothing else. -/
theorem interleaveMergesTheBits : Obligations.InterleaveMergesTheBits := by
  refine ⟨fun rd rs1 rs2 s => ⟨Laws.EncodesToRow.ilv16 rd rs1 rs2, _, rfl, frameX_setX rd _, ?_⟩,
    fun rd rs1 rs2 s => ⟨Laws.EncodesToRow.ilv32 rd rs1 rs2, _, rfl, frameX_setX rd _, ?_⟩⟩
  · exact interleave_low_merges (w := 16) (by decide) (readX_setX_same s rd _)
  · exact (interleave_low_merges (w := 32) (by decide) (readX_setX_same s rd _)).1

end Sys2Proof.Machine
end

section
/-! The word convolution is the carry-less product (spec/42_convolution.md R105 to R108). Bit `n` of the product is the
XOR of the pairs a_i·b_(n-i). One turn of either convolution loop adds the two outer neighbours of the pairs taken so far,
which lie symmetric about n/2; the reference product takes the pairs from i = 0 upward. -/

namespace Sys2Proof.Machine

variable {a b n w : Nat}

/-! ### The pairs of one product bit -/

/-- The pair of bit `i` of `a` and bit `n - i` of `b`, which adds to bit `n` of the product (R12, R106). -/
def pairBit (a b n i : Nat) : Bool := decide (i ≤ n) && (a.testBit i && b.testBit (n - i))

/-- The XOR of the pairs of product bit `n` with i below `m`. -/
def pairsBelow (a b n : Nat) : Nat → Bool
  | 0 => false
  | m + 1 => pairsBelow a b n m ^^ pairBit a b n m

/-- The XOR of the pairs of product bit `n` with n + 1 - hi ≤ i < hi, the window symmetric about n/2 (for n < 2·hi). -/
def pairsWindow (a b n hi : Nat) : Bool := pairsBelow a b n hi ^^ pairsBelow a b n (n + 1 - hi)

/-- A pair read from the other factor's side (R12). -/
theorem pairBit_comm {i : Nat} (h : i ≤ n) : pairBit a b n (n - i) = pairBit b a n i := by
  simp [pairBit, h, Nat.sub_sub_self h, Bool.and_comm]

/-- A pair above bit n of the product, or with an index outside a factor, adds nothing. -/
theorem pairBit_eq_false {i : Nat} (ha : a < 2 ^ w) (hb : b < 2 ^ w) (h : n < i ∨ w ≤ i ∨ w ≤ n - i) :
    pairBit a b n i = false := by
  obtain h | h | h := h
  · simp [pairBit, Nat.not_le.2 h]
  · simp [pairBit, Nat.testBit_lt_two_pow (ha.trans_le (Nat.pow_le_pow_right (by decide) h))]
  · simp [pairBit, Nat.testBit_lt_two_pow (hb.trans_le (Nat.pow_le_pow_right (by decide) h))]

/-- Pairs that add nothing may be left out at the top. -/
theorem pairsBelow_eq_of_false {l m : Nat} (hlm : l ≤ m) (h : ∀ i, l ≤ i → i < m → pairBit a b n i = false) :
    pairsBelow a b n m = pairsBelow a b n l := by
  induction m, hlm using Nat.le_induction with
  | base => rfl
  | succ m hlm ih =>
    rw [pairsBelow, h m hlm (Nat.lt_succ_self m), Bool.xor_false]
    exact ih fun i hl hm => h i hl (hm.trans (Nat.lt_succ_self m))

/-- The reference product's rows take the pairs from i = 0 upward (R12). -/
theorem testBit_clmul_rows (a b n m : Nat) : (clmul.rows a b m).testBit n = pairsBelow a b n m := by
  induction m with
  | zero => simp [clmul.rows, pairsBelow]
  | succ m ih =>
    rw [clmul.rows, Nat.testBit_xor, ih, pairsBelow, pairBit]
    cases a.testBit m <;> simp [Nat.testBit_shiftLeft]

/-- The window grows by one pair on either side. -/
theorem pairsWindow_succ (a b n hi : Nat) :
    pairsWindow a b n (hi + 1) = (pairsWindow a b n hi ^^ (pairBit a b n hi ^^ pairBit b a n hi)) := by
  by_cases h : hi ≤ n
  · have hlo : n + 1 - hi = (n - hi) + 1 := by omega
    rw [pairsWindow, pairsWindow, hlo, Nat.add_sub_add_right, pairsBelow, pairsBelow, pairBit_comm h]
    cases pairBit b a n hi <;> simp [Bool.xor_comm]
  · have hlo : n + 1 - hi = 0 ∧ n - hi = 0 := by omega
    simp [pairsWindow, pairsBelow, pairBit, h, hlo]

/-- A window that reaches the factors' width, or past bit n, holds every pair. -/
theorem pairsWindow_eq_testBit_clmul {hi : Nat} (ha : a < 2 ^ w) (hb : b < 2 ^ w) (h : w ≤ hi ∨ n < hi) :
    pairsWindow a b n hi = (clmul a b).testBit n := by
  have hlow : pairsBelow a b n (n + 1 - hi) = false :=
    pairsBelow_eq_of_false (Nat.zero_le _) fun i _ hi' => pairBit_eq_false ha hb (by omega)
  rw [pairsWindow, hlow, Bool.xor_false, clmul_eq_rows a b ha, testBit_clmul_rows]
  obtain hle | hle := Nat.le_total w hi
  · exact pairsBelow_eq_of_false hle fun i hw _ => pairBit_eq_false ha hb (.inr (.inl hw))
  · exact (pairsBelow_eq_of_false hle fun i hi' hw => pairBit_eq_false ha hb (by omega)).symm

/-! ### The datapath -/

/-- A term of shift distance 2·sh + p puts two pairs of product bit 2k + p into bit k of its accumulator; p is 0 in the
even loop and 1 in the odd one (R105, R106). -/
theorem getLsbD_convTerm (a b : BitVec w) (sh p : Nat) {k : Nat} (hk : k < w) :
    (convTerm a b (2 * sh + p) sh).getLsbD k =
      (pairBit a.toNat b.toNat (2 * k + p) (k + sh + p) ^^ pairBit b.toNat a.toNat (2 * k + p) (k + sh + p)) := by
  by_cases h : sh ≤ k
  · have hlow : 2 * k + p - (k + sh + p) = k - sh := by omega
    have hhigh : 2 * sh + p + (k - sh) = k + sh + p := by omega
    have hle : k + sh + p ≤ 2 * k + p := by omega
    simp [convTerm, pairBit, hk, Nat.not_lt.2 h, hlow, hhigh, hle, BitVec.testBit_toNat, Bool.and_comm,
      -BitVec.getLsbD_eq_getElem]
  · have hle : ¬ k + sh + p ≤ 2 * k + p := by omega
    simp [convTerm, pairBit, hle, Nat.not_le.1 h]

/-- Bit k of the even accumulator after `m` turns: a window of the pairs of product bit 2k (R105). -/
theorem getLsbD_convEven (a b : BitVec w) (m : Nat) {k : Nat} (hk : k < w) :
    (convEven a b m).getLsbD k = pairsWindow a.toNat b.toNat (2 * k) (k + m + 1) := by
  induction m with
  | zero =>
    have hmid : 2 * k + 1 - (k + 1) = k ∧ 2 * k - k = k ∧ k ≤ 2 * k := by omega
    have hpair : pairBit a.toNat b.toNat (2 * k) k = (convEven a b 0).getLsbD k := by
      simp [convEven, pairBit, hmid, BitVec.testBit_toNat]
    rw [← hpair, pairsWindow, Nat.add_zero, hmid.1, pairsBelow, Bool.xor_right_comm, Bool.xor_self, Bool.false_xor]
  | succ m ih =>
    rw [convEven, BitVec.getLsbD_xor, ih]
    exact (congrArg _ (getLsbD_convTerm a b (m + 1) 0 hk)).trans (pairsWindow_succ _ _ (2 * k) (k + m + 1)).symm

/-- Bit k of the odd accumulator after `m` turns: a window of the pairs of product bit 2k + 1 (R105). -/
theorem getLsbD_convOdd (a b : BitVec w) (m : Nat) {k : Nat} (hk : k < w) :
    (convOdd a b m).getLsbD k = pairsWindow a.toNat b.toNat (2 * k + 1) (k + m + 1) := by
  induction m with
  | zero =>
    have hmid : 2 * k + 1 + 1 - (k + 1) = k + 1 := by omega
    simp [convOdd, pairsWindow, hmid]
  | succ m ih =>
    rw [convOdd, BitVec.getLsbD_xor, ih, getLsbD_convTerm a b m 1 hk]
    exact (pairsWindow_succ _ _ (2 * k + 1) (k + m + 1)).symm

/-- A product of two W-bit factors has no bit 2W - 1 or above (R106). -/
theorem clmul_lt (ha : a < 2 ^ w) (hb : b < 2 ^ w) : clmul a b < 2 ^ (2 * w - 1) := by
  by_cases h : b = 0
  · rw [h, clmul_zero_right]
    exact Nat.two_pow_pos _
  · have hlog := (Nat.log2_lt h).2 hb
    rw [clmul_eq_rows a b ha]
    exact (clmul_rows_lt a b w).trans_le (Nat.pow_le_pow_right (by decide) (by omega))

/-- The word convolution of an even width is the carry-less product: at the loops' ends each window holds all pairs
(R106). -/
theorem toNat_conv (hw : w % 2 = 0) (a b : BitVec w) : (conv a b).toNat = clmul a.toNat b.toNat := by
  apply Nat.eq_of_testBit_eq
  intro n
  rw [BitVec.testBit_toNat]
  by_cases hn : n < 2 * w
  · have hk : n / 2 < w := by omega
    rw [conv, getLsbD_interleave _ _ n hn, getLsbD_convEven a b _ hk, getLsbD_convOdd a b _ hk]
    split
    · rw [show 2 * (n / 2) = n by omega]
      exact pairsWindow_eq_testBit_clmul a.isLt b.isLt (by omega)
    · rw [show 2 * (n / 2) + 1 = n by omega]
      exact pairsWindow_eq_testBit_clmul a.isLt b.isLt (by omega)
  · have hle : 2 * w - 1 ≤ n := by omega
    rw [BitVec.getLsbD_of_ge _ _ (Nat.not_lt.1 hn),
      Nat.testBit_lt_two_pow ((clmul_lt a.isLt b.isLt).trans_le (Nat.pow_le_pow_right (by decide) hle))]

/-! ### The commands -/

/-- Convolving the low W bits of two words multiplies them, and the product's highest bit is 2W - 2 (R107, R108). -/
theorem conv_low_multiplies (hw : w % 2 = 0) (hw' : w ≤ 32) {v x y : Word}
    (hv : v = zext64 (conv (x.setWidth w) (y.setWidth w))) :
    v.toNat = clmul (x.toNat % 2 ^ w) (y.toNat % 2 ^ w) ∧ v.toNat < 2 ^ (2 * w - 1) := by
  have hfit : 2 * w ≤ 64 := by omega
  have hprod : v.toNat = clmul (x.toNat % 2 ^ w) (y.toNat % 2 ^ w) := by
    rw [hv, zext64, BitVec.toNat_setWidth_of_le hfit, toNat_conv hw, BitVec.toNat_setWidth, BitVec.toNat_setWidth]
  exact ⟨hprod, hprod ▸ clmul_lt (Nat.mod_lt _ (Nat.two_pow_pos w)) (Nat.mod_lt _ (Nat.two_pow_pos w))⟩

/-- Settles O28: both commands write the product of the low parts of their sources and nothing else. -/
theorem convolutionCommandsMultiply : Obligations.ConvolutionCommandsMultiply := by
  refine ⟨fun rd rs1 rs2 s => ⟨Laws.EncodesToRow.conv16 rd rs1 rs2, _, rfl, frameX_setX rd _, ?_⟩,
    fun rd rs1 rs2 s => ⟨Laws.EncodesToRow.conv32 rd rs1 rs2, _, rfl, frameX_setX rd _, ?_⟩⟩
  · exact conv_low_multiplies (w := 16) (by decide) (by decide) (readX_setX_same s rd _)
  · exact conv_low_multiplies (w := 32) (by decide) (by decide) (readX_setX_same s rd _)

end Sys2Proof.Machine
end

section
/-! The block-array commands (spec/43_block_array.md R115 to R127): what a command with a P or an X destination leaves,
said once for each kind, and what its value is, block by block, bit by bit, or as a number. -/

namespace Sys2Proof.Machine

/-! ### The commands -/

section Completes

variable {i : Instr}

/-- A command with a P destination and no flag completes with its value, and the value's degree, there (R25, R26). -/
theorem exec_completes_writesP {d : PReg} (s : State) (hf : rangeFault i = none) (hp : destP i = some d)
    (hx : destX i = none) (hz : writesZ i = false) (ho : maySetOvf i = false) :
    ∃ t, exec i s = .next t ∧ FrameP d s t ∧ HoldsPoly t d (resultP s i) := by
  obtain ⟨-, t, hexec, heff⟩ | ⟨c, hc, -⟩ := exec_cases i s
  · have hread : t.readP d = Poly.ofBits (resultP s i) := exec_readP_dest hf hp hexec
    refine ⟨t, hexec, ⟨hx ▸ heff.x, hp ▸ heff.p, heff.ovf ho, heff.z hz, heff.completed⟩, ?_⟩
    simp [HoldsPoly, State.readBits, State.readDeg, hread, computeDegree_eq]
  · simp [hf] at hc

/-- A command with an X destination and no flag completes with its word there (R22). -/
theorem exec_completes_writesX {d : XReg} (s : State) (hf : rangeFault i = none) (hx : destX i = some d)
    (hp : destP i = none) (hz : writesZ i = false) (ho : maySetOvf i = false) :
    ∃ t, exec i s = .next t ∧ FrameX (some d) s t ∧ t.readX d = resultX s i := by
  obtain ⟨-, t, hexec, heff⟩ | ⟨c, hc, -⟩ := exec_cases i s
  · exact ⟨t, hexec, ⟨hx ▸ heff.x, hp ▸ heff.p, heff.ovf ho, heff.z hz, heff.completed⟩,
      exec_readX_dest hf hx hexec⟩
  · simp [hf] at hc

/-- A command whose index is out of range enters its fault and records its word (R183, R184). -/
theorem exec_faultEntered {c : Cause} (s : State) (hf : rangeFault i = some c) :
    ∃ t, exec i s = .next t ∧ FaultEntered c (encode i) s t :=
  ⟨_, exec_of_rangeFault s hf, faultEntered_enterFault c _⟩

end Completes

/-! ### Constructors, accessors and PSETB -/

/-- Settles O30: PFROMI zero-extends the word, PFROMB copies the range block by block. -/
theorem constructorsPlaceTheirBlocks : Obligations.ConstructorsPlaceTheirBlocks := by
  refine ⟨fun rd rs1 s => ⟨Laws.EncodesToRow.pfromi rd rs1, ?_⟩,
    fun rd rs1 start count s => ⟨Laws.EncodesToRow.pfromb rd rs1 start count, fun h => ?_, fun h => ?_⟩⟩
  · obtain ⟨t, hexec, hframe, hbits, hdeg⟩ := exec_completes_writesP (i := .pfromi rd rs1) s rfl rfl rfl rfl rfl
    have hval : (resultP s (.pfromi rd rs1)).toNat = (s.readX rs1).toNat := BitVec.toNat_setWidth_of_le (by decide)
    exact ⟨t, hexec, hframe, hbits ▸ hval, hval ▸ hdeg⟩
  · obtain ⟨t, hexec, hframe, hbits, hdeg⟩ :=
      exec_completes_writesP (i := .pfromb rd rs1 start count) s (if_neg (Nat.not_lt.2 h)) rfl rfl rfl rfl
    rw [← hbits] at hdeg
    refine ⟨t, hexec, hframe, fun k hk => ?_, hdeg⟩
    rw [hbits]
    exact block_fromBlocks (s.readBits rs1) start (by omega) hk
  · exact exec_faultEntered s (if_pos h)

/-- A single bit, zero-extended (R119). -/
theorem zext64_ofBool (b : Bool) : zext64 (BitVec.ofBool b) = if b then 1#64 else 0#64 := by
  cases b <;> rfl

/-- Settles O31: PGETB's word is the block as a number, PBIT's the coefficient's bit. -/
theorem accessorsReadBlocksAndCoefficients : Obligations.AccessorsReadBlocksAndCoefficients := by
  refine ⟨fun rd rs1 k s => ⟨Laws.EncodesToRow.pgetb rd rs1 k, fun h => ?_, fun h => ?_⟩,
    fun rd rs1 n s => ⟨Laws.EncodesToRow.pbit rd rs1 n, fun h => ?_, fun h => ?_⟩⟩
  · obtain ⟨t, hexec, hframe, hval⟩ :=
      exec_completes_writesX (i := .pgetb rd rs1 k) s (if_neg (Nat.not_le.2 h)) rfl rfl rfl rfl
    exact ⟨t, hexec, hframe, hval ▸ toNat_block (s.readBits rs1) k⟩
  · exact exec_faultEntered s (if_pos h)
  · obtain ⟨t, hexec, hframe, hval⟩ :=
      exec_completes_writesX (i := .pbit rd rs1 n) s (if_neg (Nat.not_le.2 h)) rfl rfl rfl rfl
    refine ⟨t, hexec, hframe, ?_⟩
    rw [hval, resultX, zext64_ofBool, coefficient_eq, BitVec.testBit_toNat]
  · exact exec_faultEntered s (if_pos h)

/-- A value with block `k` replaced, block by block (R118). -/
theorem block_setBlock (v : Coeffs) {k m : Nat} (hm : m < 4) (b : Word) :
    block (setBlock v k b) m = if m = k then b else block v m := by
  split
  · next h => exact h ▸ block_setBlock_same v hm b
  · next h => exact block_setBlock_ne v hm b h

/-- Settles O32: PSETB writes the old value with one block replaced. -/
theorem psetbReplacesOneBlock : Obligations.PsetbReplacesOneBlock := by
  refine fun rd rs1 k s => ⟨Laws.EncodesToRow.psetb rd rs1 k, fun h => ?_, fun h => ?_⟩
  · obtain ⟨t, hexec, hframe, hbits, hdeg⟩ :=
      exec_completes_writesP (i := .psetb rd rs1 k) s (if_neg (Nat.not_le.2 h)) rfl rfl rfl rfl
    rw [← hbits] at hdeg
    refine ⟨t, hexec, hframe, fun m hm => ?_, hdeg⟩
    rw [hbits]
    exact block_setBlock (s.readBits rd) hm (s.readX rs1)
  · exact exec_faultEntered s (if_pos h)

/-! ### Queries -/

/-- Right cached degrees lie in -1..255 (R24). -/
theorem DegreeInv.range {s : State} (h : DegreeInv s) (r : PReg) : -1 ≤ s.readDeg r ∧ s.readDeg r ≤ 255 :=
  h r ▸ degree_range (s.readBits r)

/-- Sign extension keeps a degree as a signed number (R120). -/
theorem toInt_degreeWord {d : Int} (h : -1 ≤ d ∧ d ≤ 255) : (degreeWord d).toInt = d :=
  BitVec.toInt_ofInt_eq_self (by decide) (by omega) (by omega)

/-- A size or block count is kept as an unsigned number (R121, R122). -/
theorem toNat_degreeWord {d : Int} (h : 0 ≤ d ∧ d ≤ 256) : ((degreeWord d).toNat : Int) = d := by
  rw [degreeWord, BitVec.toNat_ofInt]
  omega

/-- A degree in range uses at most the four blocks (R122). -/
theorem usedBlocks_range {d : Int} (h : -1 ≤ d ∧ d ≤ 255) : 0 ≤ usedBlocks d ∧ usedBlocks d ≤ 4 := by
  unfold usedBlocks
  split <;> omega

/-- A value lies within its used blocks (R122). -/
theorem lt_two_pow_usedBlocks {v n : Nat} (h : (n : Int) = usedBlocks (degree v)) : v < 2 ^ (64 * n) := by
  have hsize : bitSize v ≤ 64 * n := by
    have heq := bitSize_eq v
    unfold usedBlocks at h
    split at h <;> omega
  exact (lt_two_pow_bitSize v).trans_le (Nat.pow_le_pow_right (by decide) hsize)

/-- Settles O33: each query's word is a number in range, the degree being in -1..255. -/
theorem queriesReadTheDegree : Obligations.QueriesReadTheDegree := by
  refine ⟨fun rd rs1 s => ⟨Laws.EncodesToRow.pdeg rd rs1, ?_⟩,
    fun rd rs1 s => ⟨Laws.EncodesToRow.psize rd rs1, ?_⟩, fun rd rs1 s => ⟨Laws.EncodesToRow.pnub rd rs1, ?_⟩⟩
  · obtain ⟨t, hexec, hframe, hval⟩ := exec_completes_writesX (i := .pdeg rd rs1) s rfl rfl rfl rfl rfl
    exact ⟨t, hexec, hframe, fun hinv => ⟨hval ▸ toInt_degreeWord (hinv.range rs1), hinv rs1⟩⟩
  · obtain ⟨t, hexec, hframe, hval⟩ := exec_completes_writesX (i := .psize rd rs1) s rfl rfl rfl rfl rfl
    refine ⟨t, hexec, hframe, fun hinv => ?_⟩
    have hrange := hinv.range rs1
    rw [hval]
    exact toNat_degreeWord (by omega)
  · obtain ⟨t, hexec, hframe, hval⟩ := exec_completes_writesX (i := .pnub rd rs1) s rfl rfl rfl rfl rfl
    refine ⟨t, hexec, hframe, fun hinv => ?_⟩
    have hnub := usedBlocks_range (hinv.range rs1)
    have hnum : ((t.readX rd).toNat : Int) = usedBlocks (s.readDeg rs1) := by
      rw [hval]
      exact toNat_degreeWord (by omega)
    exact ⟨hnum, lt_two_pow_usedBlocks (hinv rs1 ▸ hnum)⟩

/-! ### Bitwise commands -/

/-- The OR has a coefficient at `n` or above exactly if one of its operands has, so its degree is the larger (R125). -/
theorem degree_or (a b : Nat) : degree (a ||| b) = max (degree a) (degree b) := by
  have hle : ∀ n : Nat, (n : Int) ≤ degree (a ||| b) ↔ (n : Int) ≤ degree a ∨ (n : Int) ≤ degree b := by
    intro n
    simp only [le_degree_iff_exists_testBit, Nat.testBit_or, Bool.or_eq_true, and_or_left, exists_or]
  have hor := hle (degree (a ||| b)).toNat
  have ha := hle (degree a).toNat
  have hb := hle (degree b).toNat
  have := neg_one_le_degree (a ||| b)
  have := neg_one_le_degree a
  have := neg_one_le_degree b
  omega

/-- Settles O34: each command writes its combination with its degree; for POR that is the larger of the two. -/
theorem bitwiseCommandsCombineCoefficients : Obligations.BitwiseCommandsCombineCoefficients := by
  refine ⟨fun rd rs1 rs2 s => ⟨Laws.EncodesToRow.pxor rd rs1 rs2, ?_⟩,
    fun rd rs1 rs2 s => ⟨Laws.EncodesToRow.pand rd rs1 rs2, ?_⟩,
    fun rd rs1 rs2 s => ⟨Laws.EncodesToRow.por rd rs1 rs2, ?_⟩⟩
  · exact exec_completes_writesP (i := .pxor rd rs1 rs2) s rfl rfl rfl rfl rfl
  · exact exec_completes_writesP (i := .pand rd rs1 rs2) s rfl rfl rfl rfl rfl
  · obtain ⟨t, hexec, hframe, hholds⟩ := exec_completes_writesP (i := .por rd rs1 rs2) s rfl rfl rfl rfl rfl
    refine ⟨t, hexec, hframe, hholds, ?_⟩
    rw [hholds.2, resultP, BitVec.toNat_or, degree_or]

end Sys2Proof.Machine
end

section
/-! The shifts (spec/44_shift.md R140 to R149): what a shift command leaves, once per direction, the right-shift datapath
bit by bit, and the degree of a right shift. -/

namespace Sys2Proof.Machine

/-! ### The left-shift commands -/

/-- OVF's condition for a left shift, as R145 words it. -/
theorem shiftOverflows_iff_degree (a : Coeffs) (n : Nat) :
    shiftOverflows a n = true ↔ a ≠ 0 ∧ 256 ≤ degree a.toNat + (n : Int) := by
  simp [shiftOverflows]

/-- A left shift completes with the datapath's result, its degree, and OVF's condition (R143, R145). -/
theorem shiftLeft_completes (rd rs1 : PReg) (n : Nat) (s : State) :
    ∃ t, shiftLeft rd rs1 n s = .next t ∧ FramePOvf rd s t ∧ HoldsPoly t rd (shl (s.readBits rs1) n) ∧
      (t.ovf = true ↔ s.ovf = true ∨
        (s.readBits rs1 ≠ 0 ∧ 256 ≤ degree (s.readBits rs1).toNat + (n : Int))) := by
  refine ⟨_, rfl, framePOvf_setP rd _ _, setP_holds rd _, ?_⟩
  rw [retire_ovf, noteOverflow_ovf, setP_ovf, Bool.or_eq_true, shiftOverflows_iff_degree]

/-- Settles O35: both commands are a left shift by their amount. -/
theorem leftShiftsTruncateAndFlag : Obligations.LeftShiftsTruncateAndFlag :=
  ⟨fun rd rs1 n s => ⟨Laws.EncodesToRow.pslli rd rs1 n, shiftLeft_completes rd rs1 n s⟩,
    fun rd rs1 rs2 s => ⟨Laws.EncodesToRow.psll rd rs1 rs2, shiftLeft_completes rd rs1 (s.readAmount rs2) s⟩⟩

/-! ### The right-shift datapath -/

/-- A destination block's bit `j` is bit `r + j` of the pair of source blocks (R142). -/
theorem getLsbD_shrBlock {r j : Nat} (lo hi : Word) (hr : r < 64) (hj : j < 64) :
    (shrBlock r lo hi).getLsbD j = if r + j < 64 then lo.getLsbD (r + j) else hi.getLsbD (r + j - 64) := by
  unfold shrBlock
  split
  · next h0 => simp [h0, hj]
  · rw [BitVec.getLsbD_or, BitVec.getLsbD_ushiftRight, BitVec.getLsbD_shiftLeft]
    split
    · next h =>
      have hlow : j < 64 - r := by omega
      simp [hlow]
    · next h =>
      have hlow : ¬ j < 64 - r := by omega
      have hidx : j - (64 - r) = r + j - 64 := by omega
      simp [hj, hlow, hidx, BitVec.getLsbD_of_ge lo _ (Nat.not_lt.1 h), -BitVec.getLsbD_eq_getElem]

/-- The datapath's source block is the value's block, blocks above the fourth being 0 (R140, R142). -/
theorem shr_blockAbove (a : Coeffs) (k : Nat) : shr.blockAbove a k = block a k := by
  unfold shr.blockAbove
  split
  · rfl
  · next h => exact (block_of_ge a (by omega)).symm

/-- Bit `j` of destination block `k` is the source's bit `i` places up (R142). -/
theorem getLsbD_shr_dst (a : Coeffs) (i k : Nat) {j : Nat} (hj : j < 64) :
    (shr.dst a i k).getLsbD j = a.getLsbD (i + (64 * k + j)) := by
  rw [shr.dst, shr_blockAbove, shr_blockAbove, getLsbD_shrBlock _ _ (Nat.mod_lt _ (by decide)) hj,
    getLsbD_block, getLsbD_block]
  split
  · next h =>
    have hidx : 64 * (k + i / 64) + (i % 64 + j) = i + (64 * k + j) := by omega
    rw [hidx, decide_eq_true h, Bool.true_and]
  · have hin : i % 64 + j - 64 < 64 := by omega
    have hidx : 64 * (k + i / 64 + 1) + (i % 64 + j - 64) = i + (64 * k + j) := by omega
    rw [hidx, decide_eq_true hin, Bool.true_and]

/-- The right-shift datapath is the right shift of the 256-bit value (R142). -/
theorem shr_eq_ushiftRight (a : Coeffs) (i : Nat) : shr a i = a >>> i := by
  apply BitVec.eq_of_getLsbD_eq
  intro n hn
  have hdst : ∀ k, 64 * k ≤ n → n < 64 * k + 64 → (shr.dst a i k).getLsbD (n - 64 * k) = a.getLsbD (i + n) := by
    intro k hlo hhi
    rw [getLsbD_shr_dst a i k (by omega), Nat.add_sub_cancel' hlo]
  rw [BitVec.getLsbD_ushiftRight, shr, getLsbD_ofBlocks]
  split_ifs
  · exact hdst 0 (by omega) (by omega)
  · exact hdst 1 (by omega) (by omega)
  · exact hdst 2 (by omega) (by omega)
  · exact hdst 3 (by omega) (by omega)

/-! ### The degree of a right shift -/

/-- A right shift has a coefficient at `m` or above exactly if its operand has one at `m + n` or above. -/
theorem le_degree_shiftRight (m v n : Nat) : (m : Int) ≤ degree (v >>> n) ↔ (m : Int) + n ≤ degree v := by
  rw [← Int.natCast_add, le_degree_iff_exists_testBit, le_degree_iff_exists_testBit]
  simp only [Nat.testBit_shiftRight]
  exact ⟨fun ⟨k, hk, hbit⟩ => ⟨n + k, by omega, hbit⟩,
    fun ⟨k, hk, hbit⟩ => ⟨k - n, by omega, by rwa [Nat.add_sub_cancel' (by omega)]⟩⟩

/-- A right shift lowers the degree by its amount, or leaves 0 (R149). -/
theorem degree_shiftRight (v n : Nat) :
    degree (v >>> n) = if (n : Int) ≤ degree v then degree v - n else -1 := by
  have hlow := neg_one_le_degree (v >>> n)
  split
  · next h =>
    have hle := le_degree_shiftRight (degree v - n).toNat v n
    have hge := le_degree_shiftRight (degree (v >>> n)).toNat v n
    omega
  · next h =>
    have hzero := le_degree_shiftRight 0 v n
    omega

/-! ### The right-shift commands -/

/-- A right shift completes with the datapath's result and its degree, and sets no flag (R147, R149). -/
theorem shiftRight_completes (rd rs1 : PReg) (n : Nat) (s : State) :
    ∃ t, shiftRight rd rs1 n s = .next t ∧ FrameP rd s t ∧ HoldsPoly t rd (shr (s.readBits rs1) n) ∧
      t.readDeg rd =
        if (n : Int) ≤ degree (s.readBits rs1).toNat then degree (s.readBits rs1).toNat - n else -1 := by
  have hholds : HoldsPoly (s.setP rd (shr (s.readBits rs1) n)).retire rd _ := setP_holds rd _
  refine ⟨_, rfl, frameP_setP rd _, hholds, ?_⟩
  rw [hholds.2, shr_eq_ushiftRight, BitVec.toNat_ushiftRight, degree_shiftRight]

/-- Settles O36: both commands are a right shift by their amount. -/
theorem rightShiftsDropLowCoefficients : Obligations.RightShiftsDropLowCoefficients :=
  ⟨fun rd rs1 n s => ⟨Laws.EncodesToRow.psrli rd rs1 n, shiftRight_completes rd rs1 n s⟩,
    fun rd rs1 rs2 s => ⟨Laws.EncodesToRow.psrl rd rs1 rs2, shiftRight_completes rd rs1 (s.readAmount rs2) s⟩⟩

end Sys2Proof.Machine
end

section
/-! The multiplication (spec/45_multiply.md R159 to R161): the truncated product as a number, OVF's condition as R161 words
it, and what PMUL leaves. -/

namespace Sys2Proof.Machine

/-- The truncated product as a number: the reference product's low 256 coefficients (R159). -/
@[simp] theorem toNat_truncProduct (a b : Coeffs) :
    (truncProduct a b).toNat = clmul a.toNat b.toNat % 2 ^ 256 := BitVec.toNat_ofNat _ _

/-- OVF's condition for a product, as R161 words it. -/
theorem productOverflows_iff_degree (a b : Coeffs) :
    productOverflows a b = true ↔ a ≠ 0 ∧ b ≠ 0 ∧ 256 ≤ degree a.toNat + degree b.toNat := by
  simp [productOverflows, and_assoc]

/-- PMUL completes with the truncated product, its degree, and OVF noted (R160, R161). -/
theorem pmul_completes (rd rs1 rs2 : PReg) (s : State) :
    ∃ t, exec (.pmul rd rs1 rs2) s = .next t ∧ FramePOvf rd s t ∧
      HoldsPoly t rd (truncProduct (s.readBits rs1) (s.readBits rs2)) ∧
      t.ovf = (s.ovf || productOverflows (s.readBits rs1) (s.readBits rs2)) :=
  ⟨_, mulWith_truncate rd rs1 rs2 s, framePOvf_setP rd _ _, setP_holds rd _, rfl⟩

/-- Settles O42: what PMUL leaves, its value read as a number and OVF's condition read by degrees. -/
theorem pmulWritesTheTruncatedProduct : Obligations.PmulWritesTheTruncatedProduct := by
  intro rd rs1 rs2 s
  obtain ⟨t, hexec, hframe, ⟨hbits, hdeg⟩, hovf⟩ := pmul_completes rd rs1 rs2 s
  refine ⟨Laws.EncodesToRow.pmul rd rs1 rs2, t, hexec, hframe, ?_, ?_, ?_⟩
  · rw [hbits, toNat_truncProduct]
  · rw [hdeg, hbits]
  · rw [hovf, Bool.or_eq_true, productOverflows_iff_degree]

end Sys2Proof.Machine
end

section
/-! NOP, XLI and XLK (spec/46_scalar_and_control.md R170 to R172): the placed halfword as a number, and what the three
commands leave. -/

namespace Sys2Proof.Machine

/-- What the assembler's check says of XLI's immediates: each fits its field (R73, R78). -/
theorem wellFormed_xli_iff {rd : XReg} {imm16 hw : Nat} :
    WellFormed (.xli rd imm16 hw) ↔ imm16 < 2 ^ 16 ∧ hw < 2 ^ 2 := by
  simp only [WellFormed, wellFormed, Bool.and_eq_true, fitsImm16_iff, fitsHw_iff]

/-- The placed halfword as a number: within the four halfwords of a register no bit of it is lost (R171). -/
theorem toNat_placeHalf {imm16 hw : Nat} (himm : imm16 < 2 ^ 16) (hhw : hw < 2 ^ 2) :
    (placeHalf imm16 hw).toNat = imm16 * 2 ^ (16 * hw) := by
  have hbound : imm16 * 2 ^ (16 * hw) < 2 ^ 64 := calc
    imm16 * 2 ^ (16 * hw) < 2 ^ 16 * 2 ^ (16 * hw) := Nat.mul_lt_mul_of_pos_right himm (Nat.two_pow_pos _)
    _ = 2 ^ (16 + 16 * hw) := (Nat.pow_add ..).symm
    _ ≤ 2 ^ 64 := Nat.pow_le_pow_right Nat.two_pos (by omega)
  have himm64 : imm16 < 2 ^ 64 := himm.trans (by decide)
  rw [placeHalf, BitVec.toNat_shiftLeft, BitVec.toNat_setWidth, BitVec.toNat_ofNat, Nat.mod_eq_of_lt himm,
    Nat.mod_eq_of_lt himm64, Nat.shiftLeft_eq, Nat.mod_eq_of_lt hbound]

/-- XLI completes with the halfword at its place and 0 elsewhere (R171). -/
theorem xli_completes (rd : XReg) (imm16 hw : Nat) (s : State) :
    ∃ t, exec (.xli rd imm16 hw) s = .next t ∧ FrameX (some rd) s t ∧ t.readX rd = placeHalf imm16 hw :=
  ⟨_, rfl, frameX_setX rd _, readX_setX_same s rd _⟩

/-- XLK completes with the halfword replaced in the old word (R172). -/
theorem xlk_completes (rd : XReg) (imm16 hw : Nat) (s : State) :
    ∃ t, exec (.xlk rd imm16 hw) s = .next t ∧ FrameX (some rd) s t ∧
      t.readX rd = keepHalf (s.readX rd) imm16 hw :=
  ⟨_, rfl, frameX_setX rd _, readX_setX_same s rd _⟩

/-- Settles O46: what each command leaves, XLI's word read as a number and XLK's bit by bit. -/
theorem constantsAreLoadedByHalfwords : Obligations.ConstantsAreLoadedByHalfwords := by
  refine ⟨⟨rfl, Laws.EncodesToRow.nop, fun s => ⟨_, rfl, frameX_nop⟩⟩, fun rd imm16 hw s hwf => ?_,
    fun rd imm16 hw s _ => ?_⟩
  · obtain ⟨himm, hhw⟩ := wellFormed_xli_iff.1 hwf
    obtain ⟨t, hexec, hframe, hx⟩ := xli_completes rd imm16 hw s
    exact ⟨Laws.EncodesToRow.xli rd imm16 hw, t, hexec, hframe, by rw [hx, toNat_placeHalf himm hhw]⟩
  · obtain ⟨t, hexec, hframe, hx⟩ := xlk_completes rd imm16 hw s
    exact ⟨Laws.EncodesToRow.xlk rd imm16 hw, t, hexec, hframe, fun j hj => by
      rw [hx, getLsbD_keepHalf _ _ _ hj]⟩

end Sys2Proof.Machine
end

section
/-! One word taken from CMDQ (spec/60_exceptions.md R180, R184, R186), the causes of faults (R183), and the interrupt output
(R190). -/

namespace Sys2Proof.Machine

variable {s t : State} {i : Instr}

/-- A command whose index is in range completes and is counted, and raises nothing (R35, R180, R183). -/
theorem exec_completed (hf : rangeFault i = none) (h : exec i s = .next t) : Completed s t := by
  obtain ⟨-, heff⟩ | ⟨c, hc, -⟩ := exec_next_cases h
  · exact heff.completed
  · simp [hf] at hc

/-- A command that decoded and faults records the word it was decoded from (R183, R184). -/
theorem runCommand_of_rangeFault {w : Command} {c : Cause} (h : s.err = false) (hd : decode w = .ok i)
    (hf : rangeFault i = some c) : runCommand w s = .next (s.enterFault c w) := by
  rw [runCommand_of_ok h hd, exec_of_rangeFault s hf, encode_of_decode hd]

/-- Settles O9: the next state is that of the taken word, which is discarded, illegal, out of range, or completes. -/
theorem sequencerStepIsTheCommandStep : Obligations.SequencerStepIsTheCommandStep := by
  intro s w q hturn hq
  obtain ⟨t, hrun, -⟩ := runCommand_sameOutside w (s.takeTurn.withQueue q)
  have next_eq {u : State} (hu : runCommand w (s.takeTurn.withQueue q) = .next u) : t = u :=
    Host.Outcome.next.inj (hrun.symm.trans hu)
  have herr : (s.takeTurn.withQueue q).err = s.err := takeTurn_err s
  refine ⟨t, (step_of_sequencer hturn hq).trans hrun, fun he => ?_, fun he why hd => ?_, fun he i c hd hf => ?_,
    fun he i hd hf => ?_⟩
  · exact next_eq (runCommand_of_err w (herr.trans he))
  · rw [next_eq (runCommand_of_illegal (herr.trans he) hd)]
    exact faultEntered_enterFault _ w
  · rw [next_eq (runCommand_of_rangeFault (herr.trans he) hd hf)]
    exact faultEntered_enterFault c w
  · have hexec := (runCommand_of_ok (herr.trans he) hd).symm.trans hrun
    exact ⟨hexec, exec_completed hf hexec⟩

/-- The codes 4 to 15 are reserved (R183). -/
theorem causeCode_lt (c : Cause) : (causeCode c).toNat < 4 := by
  cases c <;> decide

/-- Settles O10: each row of R183 is a range fault or an illegal word, and a command in range completes. -/
theorem causesAreRaisedAsListed : Obligations.CausesAreRaisedAsListed := by
  refine ⟨⟨rfl, rfl, rfl, rfl, fun s => causeCode_lt s.cause⟩, fun w why s he hd => ?_, fun rd rs1 n s hn => ?_,
    fun rd rs1 k s hk => ?_, fun rd rs1 k s hk => ?_, fun rd rs1 start count s hsum => ?_, fun i s t hf h => ?_⟩
  · exact ⟨_, runCommand_of_illegal he hd, faultEntered_enterFault _ w⟩
  · exact exec_faultEntered s (if_pos hn)
  · exact exec_faultEntered s (if_pos hk)
  · exact exec_faultEntered s (if_pos hk)
  · exact exec_faultEntered s (if_pos hsum)
  · exact (exec_completed hf h).error

/-- The interrupt output is high exactly while an error is pending and ERRIE is 1 (R190). -/
theorem irq_iff (s : State) : s.irq = true ↔ s.err = true ∧ s.errie = true := Bool.and_eq_true_iff

/-- Fault entry raises the interrupt if it is enabled (R184, R190). -/
theorem irq_enterFault (s : State) (c : Cause) (w : Command) : (s.enterFault c w).irq = s.errie :=
  Bool.true_and s.errie

/-- A CTRL write leaves the interrupt high if ERR was 1, CLRERR is 0 and the new ERRIE is 1 (R36, R190). -/
theorem irq_writeCtrl (s : State) (d : Word) :
    (s.writeCtrl d).irq = (s.err && !d.getLsbD 8 && d.getLsbD 0) := by
  rw [State.irq, writeCtrl_err, writeCtrl_errie]

/-- Completion leaves the interrupt output as it was (R190). -/
theorem Completed.irq (h : Completed s t) : t.irq = s.irq := by
  rw [State.irq, State.irq, h.error.err, h.outside.errie]

/-- Settles O53: what fault entry, a CTRL write and completion leave of the interrupt output. -/
theorem irqIsErrAndErrie : Obligations.IrqIsErrAndErrie :=
  ⟨irq_iff, irq_enterFault, irq_writeCtrl, fun _ _ _ hf h => (exec_completed hf h).irq⟩

end Sys2Proof.Machine
end

section
/-! Decoding a command's word gives the command back (spec/30_encoding.md R71 to R76): the word's fields are the
command's numbers, and each row reads its operands from them. With it the printed words, and the assembler's check
(R78). -/

namespace Sys2Proof

open Machine

variable {w : Command} {i : Instr}

/-! ### The fields of a command's word -/

theorem opField_encode (h : WellFormed i) : opField (encode i) = (opcodeRow i).op := by
  have hrd := rdNumber_lt i
  have hrs1 := rs1Number_lt i
  have hlow := lowNumber_lt h
  rw [opField_eq, toNat_encode h]
  omega

theorem val_rdField_encode (h : WellFormed i) : (rdField (encode i) : Nat) = rdNumber i := by
  have hrd := rdNumber_lt i
  have hrs1 := rs1Number_lt i
  have hlow := lowNumber_lt h
  rw [rdField, val_ofNat_field, toNat_encode h]
  omega

theorem val_rs1Field_encode (h : WellFormed i) : (rs1Field (encode i) : Nat) = rs1Number i := by
  have hrs1 := rs1Number_lt i
  have hlow := lowNumber_lt h
  rw [rs1Field, val_ofNat_field, toNat_encode h]
  omega

/-- A field within bits 17:0 is the same bits of the parts below rs1 (R71). -/
theorem field_encode_low (h : WellFormed i) {lo len : Nat} (hle : lo + len ≤ 18) :
    field (encode i) lo len = lowNumber i / 2 ^ lo % 2 ^ len := by
  have hlow := lowNumber_lt h
  have hmod : (encode i).toNat % 2 ^ 18 = lowNumber i := by
    rw [toNat_encode h]
    omega
  have hpow : 2 ^ 18 = 2 ^ lo * 2 ^ (18 - lo) := by rw [← Nat.pow_add, Nat.add_sub_cancel' (by omega)]
  rw [field_eq, ← hmod, hpow, Nat.mod_mul_right_div_self,
    Nat.mod_mod_of_dvd _ (Nat.pow_dvd_pow 2 (Nat.le_sub_of_add_le' hle))]

theorem val_rs2Field_encode (h : WellFormed i) : (rs2Field (encode i) : Nat) = lowNumber i / 2 ^ 14 % 2 ^ 4 := by
  rw [rs2Field, Fin.val_ofNat, field_encode_low h (by decide)]
  exact Nat.mod_mod _ _

theorem imm14Field_encode (h : WellFormed i) : imm14Field (encode i) = lowNumber i % 2 ^ 14 :=
  (field_encode_low h (by decide)).trans (by rw [Nat.pow_zero, Nat.div_one])

theorem countField_encode (h : WellFormed i) : countField (encode i) = lowNumber i % 2 ^ 7 :=
  (field_encode_low h (by decide)).trans (by rw [Nat.pow_zero, Nat.div_one])

theorem imm16Field_encode (h : WellFormed i) : imm16Field (encode i) = lowNumber i % 2 ^ 16 :=
  (field_encode_low h (by decide)).trans (by rw [Nat.pow_zero, Nat.div_one])

/-! ### The round trip -/

/-- The row found for a command's word gives the command: its opcode picks the row, and the row reads the operands back
from their fields (R74). -/
theorem rowOf_encode (h : WellFormed i) : rowOf (encode i) = some ((opcodeRow i).fmt, i) := by
  have hop := opField_encode h
  have hrd := val_rdField_encode h
  have hrs1 := val_rs1Field_encode h
  have hrs2 := val_rs2Field_encode h
  have himm14 := imm14Field_encode h
  cases i with
  | nop => rw [rowOf, hop]; rfl
  | log2w rd a | log2h rd a | clzw rd a | clzh rd a | pfromi rd a | pdeg rd a | psize rd a | pnub rd a =>
    rw [rowOf, hop]
    simp only [opcodeRow]
    rw [Fin.ext hrd, Fin.ext hrs1]
  | ilv16 rd a b | ilv32 rd a b | conv16 rd a b | conv32 rd a b | pxor rd a b | pand rd a b | por rd a b
  | psll rd a b | psrl rd a b | pmul rd a b =>
    have hb := hrs2.trans (show b * 2 ^ 14 / 2 ^ 14 % 2 ^ 4 = (b : Nat) by omega)
    rw [rowOf, hop]
    simp only [opcodeRow]
    rw [Fin.ext hrd, Fin.ext hrs1, Fin.ext hb]
  | xli rd imm16 hw | xlk rd imm16 hw =>
    have himm := imm16Field_encode h
    have hhw : hwField (encode _) = _ := field_encode_low h (by decide)
    simp only [WellFormed, wellFormed, Bool.and_eq_true, fitsImm16_iff, fitsHw_iff] at h
    rw [lowNumber, show (hw * 2 ^ 16 + imm16) % 2 ^ 16 = imm16 by omega] at himm
    rw [lowNumber, show (hw * 2 ^ 16 + imm16) / 2 ^ 16 % 2 ^ 2 = hw by omega] at hhw
    rw [rowOf, hop]
    simp only [opcodeRow]
    rw [Fin.ext hrd, himm, hhw]
  | pfromb rd a start count =>
    have hcount := countField_encode h
    have hstart : startField (encode _) = _ := field_encode_low h (by decide)
    simp only [WellFormed, wellFormed, Bool.and_eq_true, fitsImm7_iff] at h
    rw [lowNumber, show (start * 2 ^ 7 + count) % 2 ^ 7 = count by omega] at hcount
    rw [lowNumber, show (start * 2 ^ 7 + count) / 2 ^ 7 % 2 ^ 7 = start by omega] at hstart
    rw [rowOf, hop]
    simp only [opcodeRow]
    rw [Fin.ext hrd, Fin.ext hrs1, hstart, hcount]
  | pgetb rd a n | psetb rd a n | pbit rd a n | pslli rd a n | psrli rd a n =>
    rw [lowNumber, Nat.mod_eq_of_lt (fitsImm14_iff.1 h)] at himm14
    rw [rowOf, hop]
    simp only [opcodeRow]
    rw [Fin.ext hrd, Fin.ext hrs1, himm14]

/-- A command's word fits the command's row (R74). -/
theorem fitsRow_encode (i : Instr) : FitsRow (encode i) (opcodeRow i) := by
  cases i with
  | nop => exact packN_mask _
  | log2w _ _ | log2h _ _ | clzw _ _ | clzh _ _ | pfromi _ _ | pdeg _ _ | psize _ _ | pnub _ _ =>
    exact packR2_mask _ _ _
  | ilv16 _ _ _ | ilv32 _ _ _ | conv16 _ _ _ | conv32 _ _ _ | pxor _ _ _ | pand _ _ _ | por _ _ _
  | psll _ _ _ | psrl _ _ _ | pmul _ _ _ => exact packR_mask _ _ _ _
  | xli _ _ _ | xlk _ _ _ => exact packU_mask _ _ _ _
  | pfromb _ _ _ _ | pgetb _ _ _ | psetb _ _ _ | pbit _ _ _ | pslli _ _ _ | psrli _ _ _ =>
    exact packI_mask _ _ _ _

/-- Settles O1: the word gives its command's row, with the command's operands, and passes the row's mask. -/
theorem decodeOfEncodeIsTheCommand : Obligations.DecodeOfEncodeIsTheCommand := by
  intro i h
  simp only [decode, rowOf_encode h]
  exact if_pos (opField_encode h ▸ fitsRow_encode i)

/-- Settles O2: the fields a row reads fit, and they make up the whole word. -/
theorem encodeOfDecodeIsTheWord : Obligations.EncodeOfDecodeIsTheWord := by
  intro w i h
  obtain ⟨f, hrow, -⟩ := rowOf_of_decode h
  exact ⟨wellFormed_of_rowOf hrow, encode_of_decode h⟩

/-- Settles O6: each printed word is the word of its command, but for the last, which has a 1 in a must-be-zero bit. -/
theorem printedWordsDecode : Obligations.PrintedWordsDecode := by
  have hok : ∀ (w : Command) (i : Instr), WellFormed i → encode i = w → decode w = .ok i := fun w i hwf h =>
    h ▸ decodeOfEncodeIsTheCommand i hwf
  exact ⟨hok _ _ rfl rfl, hok _ _ rfl rfl, hok _ _ rfl rfl, hok _ _ rfl rfl, hok _ _ rfl rfl, hok _ _ rfl rfl,
    hok _ _ rfl rfl, hok _ _ rfl rfl, decode_of_mustBeZero (i := .pmul 3 1 2) rfl (by decide)⟩

/-! ### The assembler -/

/-- What a line assembles to has passed the assembler's check (R78). -/
theorem all_wellFormed_of_assembleLine {line : List Char} {is : List Instr} (h : assembleLine line = some is) :
    is.all wellFormed = true := by
  simp only [assembleLine] at h
  split at h
  · cases h
    rfl
  · simp only [Option.bind_eq_some_iff, Option.ite_none_right_eq_some, Option.some.injEq] at h
    obtain ⟨ops, -, js, -, hall, rfl⟩ := h
    exact hall

/-- Settles O7: every command of the line passed the check. -/
theorem assemblerRefusesWhatDoesNotFit : Obligations.AssemblerRefusesWhatDoesNotFit :=
  fun _ _ h i hi => List.all_eq_true.1 (all_wellFormed_of_assembleLine h) i hi

end Sys2Proof
end

section
/-! Steps (spec/60_exceptions.md R180): a step always has a next state, the sequencer's runs the decoded command, and
every step keeps the invariants of the error registers, of CMDQ's depth and of reset (10_state.md R31, R37, R40, R210). -/

namespace Sys2Proof.Machine

variable {s t : State}

/-! ### The next state -/

/-- A word that is taken leaves what stands outside a command's reach. -/
theorem sameOutside_of_runCommand {w : Command} (h : runCommand w s = .next t) : SameOutside s t := by
  obtain ⟨u, hu, hout⟩ := runCommand_sameOutside w s
  exact Host.Outcome.next.inj (hu.symm.trans h) ▸ hout

/-- Settles O12: a command completes or faults, and each of the three kinds of step leaves a state. -/
theorem nothingStopsTheMachine : Obligations.NothingStopsTheMachine := by
  refine ⟨fun i s => ?_, fun s => ?_⟩
  · obtain ⟨-, t, h, -⟩ | ⟨c, -, h⟩ := exec_cases i s
    · exact ⟨t, h⟩
    · exact ⟨_, h⟩
  · obtain ⟨w, q, -, -, -, h⟩ | ⟨i, rest, -, -, -, h⟩ | ⟨-, -, -, h⟩ := step_cases s
    · obtain ⟨t, hrun, -⟩ := runCommand_sameOutside w (s.takeTurn.withQueue q)
      exact ⟨t, h.trans hrun⟩
    · exact ⟨_, h⟩
    · exact ⟨_, h⟩

/-- With reset released, a command waiting and the schedule exhausted, the sequencer moves (log 2). -/
theorem turn_of_sched_nil (hr : s.inReset = false) (hq : s.cmdq ≠ []) (hs : s.sched = []) :
    s.turn = some .sequencer := by
  simp [State.turn, sequencerReady_of_cmdq hr hq, hs]

/-- The decoder reads a 32-bit word of the table's numbering as the word itself. -/
theorem decode_of_decodeTableWord {n w : Nat} {i : Instr} (h : decodeTableWord n w = some i) :
    decode (tableWord n w) = .ok i := by
  unfold decodeTableWord at h
  split at h
  · next hd => rw [hd, Option.some.inj h]
  · cases h

/-- The sequencer's turn with no error pending executes the command at the head of CMDQ (R180). -/
theorem step_of_decoded {w : Command} {q : List Command} {i : Instr} (ht : s.turn = some .sequencer)
    (hq : s.cmdq = w :: q) (he : s.err = false) (hd : decode w = .ok i) :
    step s = exec i (s.takeTurn.withQueue q) :=
  (step_of_sequencer ht hq).trans (runCommand_of_ok (by simpa using he) hd)

/-- Settles O8: the sequencer's turn, and the turn that a placed word is given. -/
theorem stepRunsTheDecodedCommand : Obligations.StepRunsTheDecodedCommand := by
  refine ⟨fun s w q i ht hq he hd => step_of_decoded ht hq he hd, fun s w i h => ?_⟩
  obtain ⟨l, hl⟩ := takeTurn_eq (s.withFetchWord 32 w)
  have ht : (s.withFetchWord 32 w).turn = some .sequencer := turn_of_sched_nil rfl (List.cons_ne_nil _ _) rfl
  refine ⟨_, step_of_decoded ht rfl rfl (decode_of_decodeTableWord h), ?_⟩
  rw [hl]
  exact ⟨fun _ _ => rfl, fun _ _ => rfl, rfl, rfl, rfl, rfl, rfl⟩

/-! ### The error registers -/

/-- The invariant speaks of ERR, CAUSE and ERRCMD alone. -/
theorem SameError.errorInv (h : SameError s t) (hs : ErrorInv s) : ErrorInv t := by
  simpa only [ErrorInv, h.err, h.cause, h.errcmd] using hs

/-- Fault entry with a raised cause sets ERR and CAUSE together (R184). -/
theorem errorInv_enterFault (s : State) {c : Cause} (w : Command) (hc : c ≠ .none) : ErrorInv (s.enterFault c w) :=
  ⟨fun h => absurd h.symm Bool.false_ne_true, fun _ => hc⟩

theorem AtReset.errorInv (h : AtReset s) : ErrorInv s :=
  ⟨fun _ => ⟨h.cause, h.errcmd⟩, fun he => absurd (h.err.symm.trans he) Bool.false_ne_true⟩

/-- A CTRL write zeroes the three registers together, or leaves them (R36). -/
theorem writeCtrl_errorInv (d : Word) (hs : ErrorInv s) : ErrorInv (s.writeCtrl d) := by
  cases h : d.getLsbD 8 with
  | false => exact (writeCtrl_sameError s h).errorInv hs
  | true =>
    have herr : (s.writeCtrl d).err = false := by rw [writeCtrl_err, h, Bool.not_true, Bool.and_false]
    exact ⟨fun _ => by simp [h], fun he => absurd (herr.symm.trans he) Bool.false_ne_true⟩

/-- Discarding, faulting and executing a word keep the invariant (R180, R186). -/
theorem runCommand_errorInv {w : Command} (h : runCommand w s = .next t) (hs : ErrorInv s) : ErrorInv t := by
  obtain ⟨-, rfl⟩ | ⟨-, c, hc, rfl⟩ | ⟨-, i, -, heff⟩ := runCommand_next_cases h
  · exact hs
  · exact errorInv_enterFault s w hc
  · exact heff.completed.error.errorInv hs

/-- An input keeps the invariant: reset, a CTRL write, or no change of the error registers. -/
theorem performInput_errorInv (i : Input) (hs : ErrorInv s) : ErrorInv (performInput i s) := by
  obtain ⟨-, h⟩ | ⟨d, -, h⟩ | h := performInput_flags i s
  · rw [h]
    exact (enterReset_atReset s).errorInv
  · rw [h]
    exact writeCtrl_errorInv d hs
  · exact h.error.errorInv hs

/-- Settles O17: the sequencer, the host port and the idle core each keep the invariant. -/
theorem errorRegistersStayConsistent : Obligations.ErrorRegistersStayConsistent := by
  intro s t hs h
  have htaken : ∀ l q, ErrorInv { s.takeTurn with inputs := l, cmdq := q } := fun l q =>
    SameError.errorInv ⟨takeTurn_err s, takeTurn_cause s, takeTurn_errcmd s⟩ hs
  obtain ⟨w, q, -, -, hrun⟩ | ⟨i, rest, -, -, rfl⟩ | rfl := step_next_cases h
  · exact runCommand_errorInv hrun (htaken _ q)
  · exact performInput_errorInv i (htaken rest _)
  · exact hs

/-! ### The depth of CMDQ -/

/-- No write of a register but CMD reaches CMDQ (R54, R58). -/
theorem writeReg_cmdq (s : State) {r : WinReg} (d : Word) (h : r ≠ .cmd) : (s.writeReg r d).cmdq = s.cmdq := by
  cases r with
  | cmd => exact absurd rfl h
  | ctrl => exact writeCtrl_cmdq s d
  | _ => rfl

/-- A host access leaves CMDQ, or is a submission, which adds one word at the tail (R58). -/
theorem performAccess_cmdq (a : HostAccess) (s : State) :
    (performAccess a s).cmdq = s.cmdq ∨ submits a = true ∧ ∃ w, (performAccess a s).cmdq = s.cmdq ++ [w] := by
  obtain ⟨n, r, h⟩ | ⟨off, width, d, r, rfl, hr, h⟩ := performAccess_cases a s
  · rw [h]
    exact .inl rfl
  · rw [h]
    by_cases hc : r = .cmd
    · subst hc
      exact .inr ⟨decide_eq_true hr, _, rfl⟩
    · exact .inl (writeReg_cmdq s d hc)

/-- A submission is ready exactly while CMDQ has room (R58). -/
theorem accessReady_of_submits (s : State) {a : HostAccess} (h : submits a = true) :
    s.accessReady a = decide (s.cmdq.length < Config.cmdqDepth) := if_pos h

/-- An access made while reset is asserted has no effect (R210; log 11). -/
theorem performInput_access_of_inReset (a : HostAccess) (h : s.inReset = true) : performInput (.access a) s = s :=
  if_pos h

/-- Outside reset an access performs (R52). -/
theorem performInput_access (a : HostAccess) (h : s.inReset = false) :
    performInput (.access a) s = performAccess a s := if_neg (Bool.eq_false_iff.1 h)

/-- A ready access keeps CMDQ within its depth: a submission is ready only while there is room (R40, R58). -/
theorem performAccess_queueInv {a : HostAccess} (hready : s.accessReady a = true) (hs : QueueInv s) :
    QueueInv (performAccess a s) := by
  obtain h | ⟨hsub, w, h⟩ := performAccess_cmdq a s
  · rwa [QueueInv, h]
  · rw [accessReady_of_submits s hsub] at hready
    rw [QueueInv, h, List.length_append]
    exact of_decide_eq_true hready

/-- Settles O18: the sequencer shortens CMDQ, and an input that adds a word was ready. -/
theorem queueNeverExceedsItsDepth : Obligations.QueueNeverExceedsItsDepth := by
  intro s t hs h
  have htaken : ∀ l, QueueInv { s.takeTurn with inputs := l } := fun l => by simpa [QueueInv] using hs
  obtain ⟨w, q, -, hq, hrun⟩ | ⟨i, rest, ht, hi, rfl⟩ | rfl := step_next_cases h
  · have hout := sameOutside_of_runCommand hrun
    rw [QueueInv, hout.cmdq, withQueue_cmdq]
    rw [QueueInv, hq, List.length_cons] at hs
    omega
  · cases i with
    | assertReset => exact Nat.zero_le _
    | releaseReset => exact htaken rest
    | access a =>
      cases hr : s.inReset with
      | true =>
        rw [performInput_access_of_inReset a (by simpa using hr)]
        exact htaken rest
      | false =>
        rw [performInput_access a (by simpa using hr)]
        have hready := (hostReady_of_access hr hi).symm.trans (hostReady_of_turn s ht)
        exact performAccess_queueInv (by simpa [State.accessReady] using hready) (htaken rest)
  · exact hs

/-! ### Reset -/

/-- While reset is asserted the first input, whatever it is, takes effect (R210). -/
theorem turn_of_inReset {i : Input} {rest : List Input} (hr : s.inReset = true) (hi : s.inputs = i :: rest) :
    s.turn = some .host := by
  have hseq : s.sequencerReady = false := by simp [State.sequencerReady, hr]
  have hhost : s.hostReady = true := by
    cases i <;> simp [State.hostReady, hi, hr]
  simp [State.turn, State.contended, hseq, hhost]

/-- While reset is asserted no schedule entry is used: the sequencer cannot move. -/
theorem takeTurn_of_inReset (hr : s.inReset = true) : s.takeTurn = s := by
  simp [State.takeTurn, State.contended, State.sequencerReady, hr]

/-- A step while reset is asserted is the first input's effect (R210). -/
theorem step_of_inReset {i : Input} {rest : List Input} (hr : s.inReset = true) (hi : s.inputs = i :: rest) :
    step s = .next (performInput i { s with inputs := rest }) := by
  rw [step_of_host (turn_of_inReset hr hi) hi, takeTurn_of_inReset hr]

/-- Neither the inputs nor the reset line is a register with a reset value (R42). -/
theorem AtReset.of_inputs (h : AtReset s) (l : List Input) (b : Bool) :
    AtReset { s with inputs := l, inReset := b } where
  x := h.x
  p := h.p
  err := h.err
  ovf := h.ovf
  z := h.z
  cause := h.cause
  errie := h.errie
  errcmd := h.errcmd
  cmdcnt := h.cmdcnt
  cmdq := h.cmdq

/-- No access moves the reset line (R210). -/
theorem performAccess_inReset (a : HostAccess) (s : State) : (performAccess a s).inReset = s.inReset := by
  obtain ⟨n, r, h⟩ | ⟨off, width, d, r, -, -, h⟩ := performAccess_cases a s
  · rw [h]
    rfl
  · rw [h, respond_inReset]
    cases r with
    | ctrl => exact writeCtrl_inReset s d
    | _ => rfl

/-- An input keeps the invariant: reset gives the values, and no access made while it is asserted has an effect (R210). -/
theorem performInput_resetInv (i : Input) (hs : ResetInv s) : ResetInv (performInput i s) := by
  intro hr
  cases i with
  | assertReset => exact enterReset_atReset s
  | releaseReset => exact absurd hr Bool.false_ne_true
  | access a =>
    cases hin : s.inReset with
    | true =>
      rw [performInput_access_of_inReset a hin]
      exact hs hin
    | false =>
      rw [performInput_access a hin, performAccess_inReset, hin] at hr
      exact absurd hr Bool.false_ne_true

/-- The invariant is kept by every step: the sequencer moves only while reset is released (R210). -/
theorem step_resetInv (hs : ResetInv s) (h : step s = .next t) : ResetInv t := by
  obtain ⟨w, q, ht, hq, hrun⟩ | ⟨i, rest, -, -, rfl⟩ | rfl := step_next_cases h
  · intro hr
    have hout := sameOutside_of_runCommand hrun
    have hready := sequencerReady_of_turn s ht
    rw [hout.inReset, withQueue_inReset, takeTurn_inReset] at hr
    simp [State.sequencerReady, hr] at hready
  · refine performInput_resetInv i fun hr => ?_
    have hin : s.inReset = true := (takeTurn_inReset s).symm.trans hr
    rw [takeTurn_of_inReset hin]
    exact (hs hin).of_inputs rest s.inReset
  · exact hs

/-- Settles O19: every step keeps the values, and the release changes nothing but the reset line. -/
theorem resetValuesHoldUntilRelease : Obligations.ResetValuesHoldUntilRelease := by
  refine ⟨fun s t hs h => step_resetInv hs h, fun s t rest hs hr hi h => ?_⟩
  obtain rfl := Host.Outcome.next.inj ((step_of_inReset hr hi).symm.trans h)
  exact ⟨(hs hr).of_inputs rest false, rfl⟩

/-- Settles O20: the reset registers meet each invariant, CMDQ being empty. -/
theorem invariantsHoldAfterReset : Obligations.InvariantsHoldAfterReset :=
  ⟨reset_atReset.degreeInv, reset_atReset.errorInv, Nat.zero_le _, fun _ => reset_atReset⟩

/-- Settles O22: the edge gives the reset registers, and an access made while reset is asserted is lost. -/
theorem assertedResetClearsTheCore : Obligations.AssertedResetClearsTheCore := by
  refine ⟨fun s rest ht hi => ?_, fun s a rest hr hi => ?_⟩
  · refine ⟨_, step_of_host ht hi, enterReset_atReset _, rfl, rfl, ?_⟩
    obtain ⟨l, hl⟩ := takeTurn_eq s
    rw [hl]
    rfl
  · rw [step_of_inReset hr hi, performInput_access_of_inReset a (by simpa using hr)]

end Sys2Proof.Machine
end

section
/-! The host window (spec/20_memory.md R53 to R58): the register at each offset of the map, what its reads return and
its writes change, and the STATUS word field by field (10_state.md R29). -/

namespace Sys2Proof.Machine

variable {s t : State}

/-! ### The map -/

/-- An 8-byte access at a register's offset reaches the register (R52, R53). -/
theorem accessReg_offsetOf (r : WinReg) : accessReg (offsetOf r) 8 = some r := by
  cases r with
  | x n => revert n; decide
  | blk n k => revert n k; decide
  | deg n => revert n; decide
  | _ => rfl

/-! ### Reads -/

/-- A read of a register but STATUS draws nothing: it responds and changes nothing (R54). -/
theorem performAccess_read (s : State) (r : WinReg) (hr : r ≠ .status) :
    performAccess (.read (offsetOf r) 8) s = s.respond (.data (s.readReg r)) := by
  rw [performAccess_read_of_some s (accessReg_offsetOf r), State.readDraws, if_neg fun hs => hr hs.1]
  rfl

/-- ERRIE as the CTRL word (R36). -/
theorem ctrlWord_eq (s : State) : s.ctrlWord = if s.errie then 1#64 else 0#64 := zext64_ofBool s.errie

/-- Settles O49: each offset is that of its register, whose word is read. -/
theorem windowReadsReturnTheRegisters : Obligations.WindowReadsReturnTheRegisters := by
  refine ⟨fun s => ⟨performAccess_read s .id nofun, performAccess_read s .cmd nofun, ?_⟩, fun s => ?_,
    fun s n => performAccess_read s (.x n) nofun, fun s n k => ?_, fun s n hinv => ?_⟩
  · rw [← ctrlWord_eq]
    exact performAccess_read s .ctrl nofun
  · exact ⟨_, _, performAccess_read s .errcmd nofun, BitVec.toNat_setWidth_of_le (by decide),
      performAccess_read s .cmdcnt nofun, BitVec.toNat_setWidth_of_le (by decide)⟩
  · exact ⟨_, performAccess_read s (.blk n k) nofun, toNat_block _ _⟩
  · exact ⟨_, performAccess_read s (.deg n) nofun, toInt_degreeWord (hinv.range n)⟩

/-! ### Writes -/

theorem performAccess_write (s : State) (r : WinReg) (d : Word) :
    performAccess (.write (offsetOf r) 8 d) s = (s.writeReg r d).respond .written :=
  performAccess_write_of_some s d (accessReg_offsetOf r)

/-- Settles O50: each offset is that of its register; a block's write replaces the block and recomputes the degree. -/
theorem windowWritesReachTheRegisters : Obligations.WindowWritesReachTheRegisters :=
  ⟨fun s d => ⟨performAccess_write s .id d, performAccess_write s .status d, performAccess_write s .errcmd d,
      performAccess_write s .cmdcnt d⟩,
    fun s d n => performAccess_write s (.deg n) d, fun s d n => performAccess_write s (.x n) d,
    fun s d n k => ⟨_, performAccess_write s (.blk n k) d, fun _ hm => block_setBlock (s.readBits n) hm d,
      setP_holds n _⟩⟩

/-! ### Coefficients -/

/-- A byte's bits are the word's bits, little-endian (R56). -/
theorem getLsbD_byteLane (v : Word) (j : Nat) {i : Nat} (hi : i < 8) :
    (byteLane v j).getLsbD i = v.getLsbD (8 * j + i) := by
  rw [byteLane, BitVec.getLsbD_extractLsb', decide_eq_true hi, Bool.true_and]

/-- A byte of an accessible register is that lane of the word a read returns (R56). -/
theorem windowByte_of_accessReg {off j : Nat} {r : WinReg} (s : State) (h : accessReg off 8 = some r) (hj : j < 8) :
    s.windowByte (off + j) = some (byteLane (s.readReg r) j) := by
  obtain ⟨⟨-, hoff⟩, hreg⟩ := Option.ite_none_right_eq_some.mp h
  have hbase : (off + j) / 8 * 8 = off := by omega
  have hlane : (off + j) % 8 = j := by omega
  rw [State.windowByte, hbase, hlane, hreg, Option.map_some]

/-- Settles O58: the byte is a lane of block i div 64, and the block's bits are the value's (R57). -/
theorem coefficientsStandInTheirBytes : Obligations.CoefficientsStandInTheirBytes := by
  intro s n i hi
  have hk : i / 64 < 4 := by omega
  refine ⟨_, windowByte_of_accessReg s (accessReg_offsetOf (.blk n ⟨i / 64, hk⟩)) (by omega), ?_⟩
  have hidx : 64 * (i / 64) + (8 * (i % 64 / 8) + i % 8) = i := by omega
  have hin : 8 * (i % 64 / 8) + i % 8 < 64 := by omega
  rw [getLsbD_byteLane _ _ (Nat.mod_lt _ (by decide)), State.readReg, getLsbD_block, hidx, decide_eq_true hin,
    Bool.true_and]

/-! ### STATUS -/

/-- Bits 7:4 of STATUS are 0 (R29). -/
theorem statusBits_gap (s : State) (b : Bool) {j : Nat} (h4 : 4 ≤ j) (h8 : j < 8) :
    (s.statusBits b).getLsbD j = false := by
  have hidx : ¬ j < 1 ∧ ¬ j - 1 < 1 ∧ ¬ j - 1 - 1 < 1 ∧ ¬ j - 1 - 1 - 1 < 1 ∧ j - 1 - 1 - 1 - 1 < 4 := by omega
  simp only [State.statusBits, BitVec.getLsbD_append]
  simp [hidx]

/-- Bits 63:12 of STATUS are 0 (R29). -/
theorem statusBits_high (s : State) (b : Bool) {j : Nat} (h : 12 ≤ j) : (s.statusBits b).getLsbD j = false := by
  have hidx : ¬ j < 1 ∧ ¬ j - 1 < 1 ∧ ¬ j - 1 - 1 < 1 ∧ ¬ j - 1 - 1 - 1 < 1 ∧ ¬ j - 1 - 1 - 1 - 1 < 4 ∧
      ¬ j - 1 - 1 - 1 - 1 - 4 < 4 := by omega
  simp only [State.statusBits, BitVec.getLsbD_append]
  simp [hidx]

/-- CAUSE stands in bits 11:8 of STATUS (R29). -/
theorem statusBits_cause (s : State) (b : Bool) : (s.statusBits b).toNat / 2 ^ 8 % 16 = (causeCode s.cause).toNat := by
  simp only [State.statusBits, toNat_append_add]
  omega

/-- Settles O52: the read's response is the STATUS word, whose fields are the settled state's. -/
theorem statusWordShowsTheFields : Obligations.StatusWordShowsTheFields := by
  refine fun s => ⟨⟨_, performAccess_read_of_some s (accessReg_offsetOf .status)⟩,
    fun hq => ⟨settled_of_empty s hq, ?_⟩, statusBits_err _ _, statusBits_ovf _ _, statusBits_z _ _, fun j h4 h8 => statusBits_gap _ _ h4 h8, ?_,
    fun j hj => statusBits_high _ _ hj⟩
  · rw [State.statusWord, statusBits_busy, State.busy, hq]
    rfl
  · rw [State.statusWord, statusBits_cause]
    cases s.settled.cause <;> rfl

end Sys2Proof.Machine
end

section
/-! When a host access performs, and that it does (spec/20_memory.md R58, R61, 70_reset_and_hazards.md R214, R216): its
turn, its response, its independence of the sequencer's turns, and the end of all outstanding work. -/

namespace Sys2Proof.Machine

variable {s t : State} {a : HostAccess}

/-! ### Which accesses wait -/

/-- Only an access at CMD's offset submits a word (R53, R58). -/
theorem submits_offset (h : submits a = true) : accessOffset a = 0x008 := by
  cases a with
  | read off width => exact absurd h Bool.false_ne_true
  | write off width d =>
    obtain ⟨-, hreg⟩ := Option.ite_none_right_eq_some.mp (of_decide_eq_true h)
    by_contra hne
    simp only [windowReg, cmdOffset, show ¬ off = 0x008 from hne, if_false] at hreg
    split_ifs at hreg <;> cases hreg

/-- An access at another offset than CMD's and STATUS's is ready exactly when CMDQ is empty (R61). -/
theorem accessReady_of_other (s : State) (hcmd : accessOffset a ≠ 0x008) (hstatus : accessOffset a ≠ 0x010) :
    s.accessReady a = s.cmdq.isEmpty := by
  rw [State.accessReady, if_neg fun h => hcmd (submits_offset h), if_neg]
  exact not_or.2 ⟨hcmd, hstatus⟩

/-- An access at STATUS's offset is ready at once (R61). -/
theorem accessReady_of_status (s : State) (h : accessOffset a = 0x010) : s.accessReady a = true := by
  have hcmd : accessOffset a ≠ 0x008 := by simp [h]
  rw [State.accessReady, if_neg fun hsub => hcmd (submits_offset hsub), if_pos (.inr h)]

/-- With CMDQ empty every access is ready: the depth is at least 1 (R40, R58, R61). -/
theorem accessReady_of_empty (a : HostAccess) (hq : s.cmdq = []) : s.accessReady a = true := by
  rw [State.accessReady, hq]
  split_ifs
  · exact decide_eq_true (Nat.succ_pos _)
  · rfl
  · rfl

/-- Settles O55: such an access is ready only with CMDQ empty, and until then the sequencer can move. -/
theorem otherAccessesWaitForTheQueue : Obligations.OtherAccessesWaitForTheQueue := by
  refine ⟨fun s a rest hr hi hcmd hstatus ht => ?_, fun s a rest hr hi hcmd hstatus hq => ?_⟩
  · have hready := (hostReady_of_access hr hi).symm.trans (hostReady_of_turn s ht)
    rw [accessReady_of_other s hcmd hstatus] at hready
    exact List.isEmpty_iff.1 hready
  · refine turn_of_host_waiting (sequencerReady_of_cmdq hr hq) ?_
    rw [hostReady_of_access hr hi, accessReady_of_other s hcmd hstatus]
    exact Bool.eq_false_iff.2 fun h => hq (List.isEmpty_iff.1 h)

/-! ### The host's turn -/

/-- An access gives one response (R52). -/
theorem performAccess_outputs (a : HostAccess) (s : State) : ∃ r, (performAccess a s).outputs = s.outputs ++ [r] := by
  obtain ⟨n, r, h⟩ | ⟨off, width, d, r, -, -, h⟩ := performAccess_cases a s
  · exact ⟨r, by rw [h]; rfl⟩
  · exact ⟨.written, by rw [h, respond_outputs, writeReg_outputs]⟩

/-- With CMDQ empty any input may take effect. -/
theorem hostReady_of_empty {i : Input} {rest : List Input} (hq : s.cmdq = []) (hi : s.inputs = i :: rest) :
    s.hostReady = true := by
  cases i with
  | access a => simp [State.hostReady, hi, accessReady_of_empty a hq]
  | _ => simp [State.hostReady, hi]

/-- With CMDQ empty the turn is the host's (R20). -/
theorem turn_of_empty {i : Input} {rest : List Input} (hq : s.cmdq = []) (hi : s.inputs = i :: rest) :
    s.turn = some .host := by
  simp [State.turn, State.contended, State.sequencerReady, hq, hostReady_of_empty hq hi]

/-- Where the sequencer can move, the turn is the host's if it can move too and stands first in the schedule (log 2). -/
theorem turn_eq_host_iff (hs : s.sequencerReady = true) :
    s.turn = some .host ↔ s.hostReady = true ∧ s.sched.head? = some .host := by
  cases hh : s.hostReady with
  | false => simp [turn_of_host_waiting hs hh]
  | true =>
    cases hsched : s.sched <;> simp [State.turn, State.contended, hs, hh, hsched]

/-- Settles O59: the host's turn performs the first input, and the turn follows from readiness and the schedule. -/
theorem stepPerformsTheHostsAccess : Obligations.StepPerformsTheHostsAccess := by
  refine ⟨fun s a rest hr hi ht => ⟨?_, ?_⟩, fun s a rest hr hi hq => turn_of_empty hq hi, fun s a rest hr hi hq => ?_,
    fun s a h => accessReady_of_status s h⟩
  · rw [step_of_host ht hi, performInput_access a (by simpa using hr)]
  · obtain ⟨r, h⟩ := performAccess_outputs a { s.takeTurn with inputs := rest }
    obtain ⟨l, hl⟩ := takeTurn_eq s
    exact ⟨r, by rw [h, hl]⟩
  · rw [turn_eq_host_iff (sequencerReady_of_cmdq hr hq), hostReady_of_access hr hi]

/-! ### The order of a command and a submission -/

/-- What stands outside a command's reach, taken from a state that agrees on it, changes nothing. -/
theorem withOutside_of_sameOutside (h : SameOutside s t) : t.withOutside s = t := by
  simp only [State.withOutside, ← h.errie, ← h.cmdq, ← h.inReset, ← h.inputs, ← h.outputs, ← h.sched]

/-- The sequencer's move at a waiting command (R180). -/
theorem sequencerStep_of_cmdq {w : Command} {q : List Command} (hq : s.cmdq = w :: q) :
    sequencerStep s = runCommand w (s.withQueue q) := by
  simp [sequencerStep, hq]

/-- Outside reset the host port's move at a CMD write (R58). -/
theorem hostStep_write_cmd {d : Word} {rest : List Input} (hr : s.inReset = false)
    (hi : s.inputs = .access (.write 0x008 8 d) :: rest) :
    hostStep s = .next (({ s with inputs := rest }.enqueue (d.setWidth 32)).respond .written) := by
  simp only [hostStep, hi]
  exact congrArg _ (performInput_write_cmd (s := { s with inputs := rest }) d hr)

/-- Settles O56: the submission changes only what stands outside the command's reach, and the command changes none of
it. -/
theorem commandsAndSubmissionsCommute : Obligations.CommandsAndSubmissionsCommute := by
  intro s t u d rest hr hne hi hseq hhost
  obtain ⟨w, q, hq⟩ := List.exists_cons_of_ne_nil hne
  rw [sequencerStep_of_cmdq hq] at hseq
  obtain rfl := Host.Outcome.next.inj ((hostStep_write_cmd hr hi).symm.trans hhost)
  have hout := sameOutside_of_runCommand hseq
  have htail : (({ s with inputs := rest }.enqueue (d.setWidth 32)).respond .written).cmdq =
      w :: (q ++ [d.setWidth 32]) := congrArg (· ++ [d.setWidth 32]) hq
  obtain ⟨v, hv, hsub⟩ := runCommand_withOutside w (s.withQueue q)
    ((({ s with inputs := rest }.enqueue (d.setWidth 32)).respond .written).withQueue (q ++ [d.setWidth 32]))
  obtain rfl : v = t := Host.Outcome.next.inj (hv.symm.trans hseq)
  refine ⟨_, ?_, (sequencerStep_of_cmdq htail).trans hsub⟩
  rw [← withOutside_of_sameOutside hout]
  exact hostStep_write_cmd (s := v.withOutside (s.withQueue q)) hr hi

/-! ### BUSY alone depends on timing -/

/-- The map's registers but CMD and STATUS stand at other offsets (R53). -/
theorem offset_of_accessReg {off width : Nat} {r : WinReg} (h : accessReg off width = some r) (hcmd : r ≠ .cmd)
    (hstatus : r ≠ .status) : off ≠ 0x008 ∧ off ≠ 0x010 := by
  obtain ⟨-, hreg⟩ := Option.ite_none_right_eq_some.mp h
  constructor <;> rintro rfl
  · exact hcmd (Option.some.inj hreg).symm
  · exact hstatus (Option.some.inj hreg).symm

/-- Settles O60: the sequencer's step leaves the settled state, and accesses to the other registers wait. -/
theorem onlyBusyDependsOnTiming : Obligations.OnlyBusyDependsOnTiming := by
  refine ⟨fun s t ht h => ?_, fun s off width r hreg hcmd hstatus hq => ?_⟩
  · refine ⟨_, _, _, _, performAccess_read_of_some s (accessReg_offsetOf .status),
      performAccess_read_of_some t (accessReg_offsetOf .status), fun j hj => ?_⟩
    obtain ⟨l, hl⟩ := settled_of_sequencer ht h
    rw [State.readReg, State.readReg, State.statusWord, State.statusWord, hl]
    exact statusBits_above_busy s.settled _ _ hj
  · obtain ⟨h8, h10⟩ := offset_of_accessReg hreg hcmd hstatus
    rw [accessReady_of_other (a := .read off width) s h8 h10]
    exact Bool.eq_false_iff.2 fun h => hq (List.isEmpty_iff.1 h)

/-! ### The end of the outstanding work -/

/-- No access changes the inputs that wait. -/
theorem performAccess_inputs (a : HostAccess) (s : State) : (performAccess a s).inputs = s.inputs := by
  obtain ⟨n, r, h⟩ | ⟨off, width, d, r, -, -, h⟩ := performAccess_cases a s
  · rw [h]
    rfl
  · rw [h, respond_inputs]
    cases r with
    | ctrl => exact writeCtrl_inputs s d
    | _ => rfl

/-- `t` stands one move after `s`: less work is left, and the responses given since, with those still to come, are those
that were to come. -/
structure Progress (s t : State) : Prop where
  work : outstanding t < outstanding s
  responses : ∃ rs, t.outputs = s.outputs ++ rs ∧ rs.length + answers t.inReset t.inputs = answers s.inReset s.inputs

/-- A command leaves CMDQ, and nothing else of the outstanding work changes (R180). -/
theorem runCommand_progress {w : Command} {q : List Command} (hq : s.cmdq = w :: q)
    (h : runCommand w (s.takeTurn.withQueue q) = .next t) : Progress s t := by
  obtain ⟨l, hl⟩ := takeTurn_eq s
  obtain ⟨-, hcmdq, hreset, hinputs, houtputs, -⟩ := sameOutside_of_runCommand h
  rw [hl] at hreset hinputs houtputs
  refine ⟨?_, [], houtputs.trans (List.append_nil _).symm, ?_⟩
  · rw [outstanding, outstanding, hcmdq, hinputs, hq]
    simp
  · rw [hreset, hinputs]
    simp

/-- An access performs: it gives its one response, and queues at most one command (R52, R58). -/
theorem performAccess_progress {rest : List Input} (hr : s.inReset = false) (hi : s.inputs = .access a :: rest) :
    Progress s (performAccess a { s.takeTurn with inputs := rest }) := by
  obtain ⟨l, hl⟩ := takeTurn_eq s
  rw [hl]
  have hinputs := performAccess_inputs a { s with sched := l, inputs := rest }
  have hreset := performAccess_inReset a { s with sched := l, inputs := rest }
  obtain ⟨r, houtputs⟩ := performAccess_outputs a { s with sched := l, inputs := rest }
  refine ⟨?_, [r], houtputs, ?_⟩
  · rw [outstanding, outstanding, hinputs, hi, List.length_cons]
    obtain hq | ⟨-, w, hq⟩ := performAccess_cmdq a { s with sched := l, inputs := rest } <;> rw [hq]
    · simp only
      omega
    · simp only [List.length_append, List.length_singleton]
      omega
  · rw [hinputs, hreset, hi, hr]
    rfl

/-- An input that gives no response makes progress if CMDQ gets no longer: a reset edge, or an access made while reset
is asserted (R210). -/
theorem progress_of_silent {i : Input} {rest : List Input} (hi : s.inputs = i :: rest) (hinputs : t.inputs = rest)
    (hq : t.cmdq.length ≤ s.cmdq.length) (houtputs : t.outputs = s.outputs)
    (hanswers : answers t.inReset rest = answers s.inReset (i :: rest)) : Progress s t := by
  refine ⟨?_, [], houtputs.trans (List.append_nil _).symm, ?_⟩
  · rw [outstanding, outstanding, hinputs, hi, List.length_cons]
    omega
  · rw [hinputs, hi, hanswers, List.length_nil, Nat.zero_add]

/-- An input that takes effect makes progress. -/
theorem performInput_progress {i : Input} {rest : List Input} (hi : s.inputs = i :: rest) :
    Progress s (performInput i { s.takeTurn with inputs := rest }) := by
  obtain ⟨l, hl⟩ := takeTurn_eq s
  cases i with
  | assertReset =>
    rw [hl]
    exact progress_of_silent hi rfl (Nat.zero_le _) rfl rfl
  | releaseReset =>
    rw [hl]
    exact progress_of_silent hi rfl (Nat.le_refl _) rfl rfl
  | access a =>
    cases hr : s.inReset with
    | true =>
      rw [performInput_access_of_inReset a (by simpa using hr), hl]
      exact progress_of_silent hi rfl (Nat.le_refl _) rfl (by simp [answers, hr])
    | false =>
      rw [performInput_access a (by simpa using hr)]
      exact performAccess_progress hr hi

/-- Where neither agent can move no work is left: while reset is asserted CMDQ is empty, and with CMDQ empty any input
may take effect. -/
theorem outstanding_of_idle (hs : ResetInv s) (hseq : s.sequencerReady = false) (hhost : s.hostReady = false) :
    s.cmdq = [] ∧ s.inputs = [] := by
  have hq : s.cmdq = [] := by
    cases hr : s.inReset with
    | true => exact (hs hr).cmdq
    | false =>
      by_contra hne
      exact Bool.false_ne_true (hseq.symm.trans (sequencerReady_of_cmdq hr hne))
  refine ⟨hq, ?_⟩
  cases hi : s.inputs with
  | nil => rfl
  | cons i rest => exact absurd (hhost.symm.trans (hostReady_of_empty hq hi)) Bool.false_ne_true

/-- A step makes progress, or no work is left (R198, R216). -/
theorem step_progress (hs : ResetInv s) :
    (∃ t, step s = .next t ∧ Progress s t) ∨ s.cmdq = [] ∧ s.inputs = [] := by
  obtain ⟨w, q, -, -, hq, h⟩ | ⟨i, rest, -, -, hi, h⟩ | ⟨-, hseq, hhost, -⟩ := step_cases s
  · obtain ⟨t, hrun, -⟩ := runCommand_sameOutside w (s.takeTurn.withQueue q)
    exact .inl ⟨t, h.trans hrun, runCommand_progress hq hrun⟩
  · exact .inl ⟨_, h, performInput_progress hi⟩
  · exact .inr (outstanding_of_idle hs hseq hhost)

/-- A run of one more step. -/
theorem run_succ_of_step {M : Host.Core} {s t : M.State} (n : Nat) (h : M.step s = .next t) :
    M.run (n + 1) s = M.run n t := by
  simp only [Host.Core.run, h]

/-- Settles O57: by induction on the work left, each step making progress. -/
theorem outstandingWorkIsFinished : Obligations.OutstandingWorkIsFinished := by
  intro s
  induction hn : outstanding s using Nat.strong_induction_on generalizing s with
  | _ n ih =>
    subst hn
    intro hs
    obtain ⟨t, hstep, hwork, rs, houtputs, hcount⟩ | ⟨hq, hi⟩ := step_progress hs
    · obtain ⟨m, u, hm, hrun, hq, hi, rs', houtputs', hcount'⟩ := ih _ hwork t rfl (step_resetInv hs hstep)
      refine ⟨m + 1, u, by omega, (run_succ_of_step (M := Sys2Proof.core) m hstep).trans hrun, hq, hi, rs ++ rs', ?_,
        ?_⟩
      · rw [houtputs', houtputs, List.append_assoc]
      · rw [List.length_append, hcount', hcount]
    · exact ⟨0, s, Nat.zero_le _, rfl, hq, hi, [], (List.append_nil _).symm, by rw [hi]; rfl⟩

end Sys2Proof.Machine
end

section
/-! Relations between results: the scans' (spec/40_bitscan.md), the interleaver's two forms (41_interleave.md R103), and
the shifts as shifts of the 256-bit value (44_shift.md R140, R150). -/

namespace Sys2Proof.Machine

variable {s t u : State} {w n : Nat}

/-! ### The bit scans -/

/-- A scan's result as a number. -/
theorem toNat_readX_scanResult {rd : XReg} {r : Nat} {z : Bool} (hr : r < 2 ^ 64) (h : scanResult rd r z s = .next t) :
    (t.readX rd).toNat = r := by
  obtain rfl := Host.Outcome.next.inj h
  exact (congrArg BitVec.toNat (readX_setX_same s rd _)).trans (Nat.mod_eq_of_lt hr)

/-- The leading zeros and the highest set bit's index make up W - 1 (R91 to R94). -/
theorem leadingZeros_add_floorLog2 (hw : 0 < w) {v : BitVec w} (hv : v ≠ 0) :
    leadingZeros v + floorLog2 v = w - 1 := by
  rw [leadingZeros_of_ne hv]
  have := floorLog2_lt hw v
  omega

/-- The two scans of one nonzero word, their results as numbers. -/
theorem scanResults_add (hw : 0 < w) (hw' : w ≤ 64) {rd re : XReg} {zt zu : Bool} {v : BitVec w} (hv : v ≠ 0)
    (ht : scanResult rd (floorLog2 v) zt s = .next t) (hu : scanResult re (leadingZeros v) zu s = .next u) :
    (u.readX re).toNat + (t.readX rd).toNat = w - 1 := by
  have hlog := floorLog2_lt hw v
  have hsum := leadingZeros_add_floorLog2 hw hv
  rw [toNat_readX_scanResult (by omega) ht, toNat_readX_scanResult (by omega) hu, hsum]

/-- A word that fits its low half has that half's highest set bit (R92). -/
theorem floorLog2_setWidth {v : Word} (h : v.toNat < 2 ^ 32) : floorLog2 (v.setWidth 32) = floorLog2 v := by
  have hval : (v.setWidth 32).toNat = v.toNat := by rw [BitVec.toNat_setWidth, Nat.mod_eq_of_lt h]
  have hzero : v.setWidth 32 = 0 ↔ v = 0 := by rw [BitVec.toNat_eq, hval, BitVec.toNat_eq]; rfl
  simp only [floorLog2, hval, hzero]

/-- Settles O25: the scans of the 64-bit word, those of its low half, and both where the high half is 0. -/
theorem scanResultsAreRelated : Obligations.ScanResultsAreRelated := by
  refine ⟨fun rd re rs1 s t u ht hu h0 => ?_, fun rd re rs1 s t u ht hu h0 => ?_, fun rd re rs1 s t u ht hu hlow => ?_⟩
  · exact scanResults_add (by decide) (by decide) (toNat_ne_zero.1 h0) ht hu
  · rw [← toNat_readX32] at h0
    exact scanResults_add (by decide) (by decide) (toNat_ne_zero.1 h0) ht hu
  · have hlog := floorLog2_lt (by decide) (s.readX rs1)
    apply BitVec.eq_of_toNat_eq
    rw [toNat_readX_scanResult (hlog.trans (by decide)) ht]
    have hu' : scanResult re (floorLog2 (s.readX rs1)) (s.readX32 rs1 == 0) s = .next u :=
      floorLog2_setWidth hlow ▸ hu
    rw [toNat_readX_scanResult (hlog.trans (by decide)) hu']

/-! ### The spread form of the interleaver -/

/-- Bit `p` of a word of width `n` whose bits have been spread in groups of `g`: a gap of `g` zeros stands above each
group (R103). -/
def spreadBit {n : Nat} (x : BitVec n) (g p : Nat) : Bool :=
  decide (p / g % 2 = 0) && x.getLsbD (p / g / 2 * g + p % g)

/-- `y` is `x` spread in groups of `g`. -/
def IsSpread {n w : Nat} (x : BitVec n) (g : Nat) (y : BitVec w) : Prop := ∀ p, p < w → y.getLsbD p = spreadBit x g p

/-- One group holds the whole word: nothing is spread yet. -/
theorem isSpread_setWidth {n w : Nat} (x : BitVec n) (h : w ≤ 2 * n) : IsSpread x n (x.setWidth w) := by
  intro p hp
  rw [BitVec.getLsbD_setWidth, decide_eq_true hp, Bool.true_and, spreadBit]
  by_cases hlow : p < n
  · rw [Nat.div_eq_of_lt hlow, Nat.mod_eq_of_lt hlow]
    simp
  · have hdiv : p / n = 1 := Nat.div_eq_of_lt_le (by omega) (by omega)
    simp [hdiv, BitVec.getLsbD_of_ge x p (Nat.not_lt.1 hlow)]

/-- Groups of `2g`, in the quotient and the remainder of the position by `g`. -/
theorem spreadBit_double {n : Nat} (x : BitVec n) (g p : Nat) :
    spreadBit x (2 * g) p =
      (decide (p / g / 2 % 2 = 0) && x.getLsbD ((p / g / 2 / 2 * 2 + p / g % 2) * g + p % g)) := by
  rw [spreadBit, Nat.mul_comm 2 g, ← Nat.div_div_eq_div_mul, Nat.mod_mul]
  ring_nf

/-- A group of `2g` splits into two of `g`: the lower one stays, and the upper one moves up by `g` (R103). -/
theorem spreadBit_split {n : Nat} (x : BitVec n) {g p : Nat} (hg : 0 < g) :
    spreadBit x g p = (decide (p / g % 2 = 0) &&
      (spreadBit x (2 * g) p || (decide (g ≤ p) && spreadBit x (2 * g) (p - g)))) := by
  by_cases heven : p / g % 2 = 0
  · by_cases hlow : p / g / 2 % 2 = 0
    · have hidx : p / g / 2 / 2 * 2 + p / g % 2 = p / g / 2 := by omega
      have hupper : (decide (g ≤ p) && spreadBit x (2 * g) (p - g)) = false := by
        by_cases hle : g ≤ p
        · have hdiv := Nat.div_eq_sub_div hg hle
          have hodd : (p - g) / g / 2 % 2 ≠ 0 := by omega
          simp [spreadBit_double, hodd]
        · simp [hle]
      rw [hupper, spreadBit_double, spreadBit, hidx]
      simp [heven, hlow]
    · have hle : g ≤ p := by
        by_contra hlt
        simp [Nat.div_eq_of_lt (Nat.not_le.1 hlt)] at hlow
      have hdiv := Nat.div_eq_sub_div hg hle
      have hmod := Nat.mod_eq_sub_mod hle
      have hupper : (p - g) / g / 2 % 2 = 0 := by omega
      have hidx : (p - g) / g / 2 / 2 * 2 + (p - g) / g % 2 = p / g / 2 := by omega
      rw [spreadBit_double x g p, spreadBit_double x g (p - g), hidx, ← hmod, spreadBit]
      simp [heven, hlow, hle, hupper]
  · simp [spreadBit, heven]

/-- One mask-and-shift step halves the groups (R103). -/
theorem IsSpread.spreadStep {n w g : Nat} {x : BitVec n} {y mask : BitVec w} (hg : 0 < g) (h : IsSpread x (2 * g) y)
    (hmask : ∀ p, p < w → mask.getLsbD p = decide (p / g % 2 = 0)) : IsSpread x g (spreadStep g mask y) := by
  intro p hp
  rw [spreadBit_split x hg, Machine.spreadStep, BitVec.getLsbD_and, BitVec.getLsbD_or, BitVec.getLsbD_shiftLeft,
    hmask p hp, h p hp, Bool.and_comm]
  by_cases hle : g ≤ p
  · simp [hp, hle, Nat.not_lt.2 hle, h (p - g) (by omega)]
  · simp [hp, hle, Nat.not_le.1 hle]

/-- Spread by single bits, bit `i` stands at `2i` (R103). -/
theorem spreadBit_one {n : Nat} (x : BitVec n) (p : Nat) :
    spreadBit x 1 p = (decide (p % 2 = 0) && x.getLsbD (p / 2)) := by
  rw [spreadBit, Nat.div_one, Nat.mul_one, Nat.mod_one, Nat.add_zero]

/-- Two words spread by single bits, the second one place up, interleave (R100, R103). -/
theorem interleave_eq_of_isSpread {a b : BitVec w} {y z : BitVec (2 * w)} (ha : IsSpread a 1 y) (hb : IsSpread b 1 z) :
    interleave a b = y ||| z <<< 1 := by
  apply BitVec.eq_of_getLsbD_eq
  intro p hp
  rw [getLsbD_interleave a b p hp, BitVec.getLsbD_or, BitVec.getLsbD_shiftLeft, ha p hp, hb (p - 1) (by omega),
    spreadBit_one, spreadBit_one]
  by_cases heven : p % 2 = 0
  · have hodd : ¬ (1 ≤ p ∧ (p - 1) % 2 = 0) := by omega
    by_cases h0 : p < 1
    · simp [heven, h0]
    · simp [heven, show ¬ (p - 1) % 2 = 0 by omega]
  · have hprev : ¬ p < 1 ∧ (p - 1) % 2 = 0 ∧ (p - 1) / 2 = p / 2 := by omega
    simp [heven, hp, hprev]

theorem isSpread_spread32 (x : BitVec 32) : IsSpread x 1 (spread32 x) := by
  refine .spreadStep (by decide) (.spreadStep (by decide) (.spreadStep (by decide) (.spreadStep (by decide)
    (.spreadStep (by decide) (isSpread_setWidth x (by decide)) ?_) ?_) ?_) ?_) ?_ <;> decide

theorem isSpread_spread16 (x : BitVec 16) : IsSpread x 1 (spread16 x) := by
  refine .spreadStep (by decide) (.spreadStep (by decide) (.spreadStep (by decide) (.spreadStep (by decide)
    (isSpread_setWidth x (by decide)) ?_) ?_) ?_) ?_ <;> decide

/-- Settles O27: at both widths the steps halve the groups down to single bits. -/
theorem interleaveIsTheSpreadForm : Obligations.InterleaveIsTheSpreadForm :=
  ⟨fun a b => interleave_eq_of_isSpread (isSpread_spread16 a) (isSpread_spread16 b),
    fun a b => interleave_eq_of_isSpread (isSpread_spread32 a) (isSpread_spread32 b)⟩

/-! ### The left-shift datapath -/

/-- A destination block's bit `j` is bit `64 + j - r` of the pair of source blocks (R140). -/
theorem getLsbD_shlBlock {r j : Nat} (lo hi : Word) (hr : r < 64) (hj : j < 64) :
    (shlBlock r lo hi).getLsbD j = if r ≤ j then lo.getLsbD (j - r) else hi.getLsbD (64 + j - r) := by
  unfold shlBlock
  split
  · next h0 => simp [h0]
  · rw [BitVec.getLsbD_or, BitVec.getLsbD_ushiftRight, BitVec.getLsbD_shiftLeft]
    split
    · next h =>
      have hhigh : 64 ≤ 64 - r + j := by omega
      simp [hj, Nat.not_lt.2 h, BitVec.getLsbD_of_ge hi _ hhigh, -BitVec.getLsbD_eq_getElem]
    · next h =>
      have hidx : 64 - r + j = 64 + j - r := by omega
      simp [Nat.not_le.1 h, hidx]

/-- The source block `q` below block `k`, bit by bit: 0 below the value (R140). -/
theorem getLsbD_blockBelow (a : Coeffs) (k q : Nat) {j : Nat} (hj : j < 64) :
    (blockBelow a k q).getLsbD j = (decide (64 * q ≤ 64 * k + j) && a.getLsbD (64 * k + j - 64 * q)) := by
  have hle : 64 * q ≤ 64 * k + j ↔ q ≤ k := by omega
  rw [decide_eq_decide.2 hle, blockBelow]
  split
  · next h =>
    have hidx : 64 * (k - q) + j = 64 * k + j - 64 * q := by omega
    rw [getLsbD_block, decide_eq_true h, decide_eq_true hj, hidx]
  · next h => simp [h]

/-- Bit `j` of destination block `k` is the source's bit `i` places down, 0 below the value (R140). -/
theorem getLsbD_shl_dst (a : Coeffs) (i k : Nat) {j : Nat} (hj : j < 64) :
    (shl.dst a i k).getLsbD j = (decide (i ≤ 64 * k + j) && a.getLsbD (64 * k + j - i)) := by
  rw [shl.dst, getLsbD_shlBlock _ _ (Nat.mod_lt _ (by decide)) hj]
  split
  · next h =>
    have hle : 64 * (i / 64) ≤ 64 * k + (j - i % 64) ↔ i ≤ 64 * k + j := by omega
    have hidx : 64 * k + (j - i % 64) - 64 * (i / 64) = 64 * k + j - i := by omega
    rw [getLsbD_blockBelow _ _ _ (by omega), decide_eq_decide.2 hle, hidx]
  · next h =>
    have hle : 64 * (i / 64 + 1) ≤ 64 * k + (64 + j - i % 64) ↔ i ≤ 64 * k + j := by omega
    have hidx : 64 * k + (64 + j - i % 64) - 64 * (i / 64 + 1) = 64 * k + j - i := by omega
    rw [getLsbD_blockBelow _ _ _ (by omega), decide_eq_decide.2 hle, hidx]

/-- The left-shift datapath is the left shift of the 256-bit value (R140). -/
theorem shl_eq_shiftLeft (a : Coeffs) (i : Nat) : shl a i = a <<< i := by
  apply BitVec.eq_of_getLsbD_eq
  intro n hn
  have hdst : ∀ k, 64 * k ≤ n → n < 64 * k + 64 →
      (shl.dst a i k).getLsbD (n - 64 * k) = (decide (i ≤ n) && a.getLsbD (n - i)) := by
    intro k hlo hhi
    rw [getLsbD_shl_dst a i k (by omega), Nat.add_sub_cancel' hlo]
  rw [BitVec.getLsbD_shiftLeft, decide_eq_true hn, Bool.true_and, ← decide_not, decide_eq_decide.2 Nat.not_lt, shl,
    getLsbD_ofBlocks]
  split_ifs
  · exact hdst 0 (by omega) (by omega)
  · exact hdst 1 (by omega) (by omega)
  · exact hdst 2 (by omega) (by omega)
  · exact hdst 3 (by omega) (by omega)

/-- Settles O37: each destination block holds the source's bits at the shifted positions. -/
theorem shiftDatapathsAreTheShifts : Obligations.ShiftDatapathsAreTheShifts := ⟨shl_eq_shiftLeft, shr_eq_ushiftRight⟩

/-! ### The round trip -/

/-- A value whose degree is below `n` is below 2^n. -/
theorem lt_two_pow_of_degree {v n : Nat} (h : degree v < n) : v < 2 ^ n := by
  have hsize : bitSize v ≤ n := by
    have := bitSize_eq v
    omega
  exact (lt_two_pow_bitSize v).trans_le (Nat.pow_le_pow_right (by decide) hsize)

/-- A left shift that loses no coefficient is undone by the right shift of the same amount (R150). -/
theorem shiftLeft_ushiftRight_of_degree {a : Coeffs} (h : degree a.toNat + (n : Int) < 256) : (a <<< n) >>> n = a := by
  have hfit : a.toNat <<< n < 2 ^ 256 := by
    by_cases h0 : a.toNat = 0
    · simp [h0]
    · exact lt_two_pow_of_degree (by rw [degree_shiftLeft h0]; exact h)
  apply BitVec.eq_of_toNat_eq
  rw [BitVec.toNat_ushiftRight, BitVec.toNat_shiftLeft, Nat.mod_eq_of_lt hfit, Nat.shiftLeft_shiftRight]

/-- Settles O38: the right shift reads what the left shift wrote, and neither loses a coefficient. -/
theorem shiftRoundTripInContract : Obligations.ShiftRoundTripInContract := by
  intro rd re rs1 n s t u hdeg ht hu
  have hovf : shiftOverflows (s.readBits rs1) n = false := by
    rw [Bool.eq_false_iff, ne_eq, shiftOverflows_iff_degree]
    omega
  obtain ⟨t', ht', -, ⟨htbits, -⟩, -⟩ := shiftLeft_completes rd rs1 n s
  obtain rfl : t' = t := Host.Outcome.next.inj (ht'.symm.trans ht)
  obtain ⟨u', hu', hframe, ⟨hubits, -⟩, -⟩ := shiftRight_completes re rd n t'
  obtain rfl : u' = u := Host.Outcome.next.inj (hu'.symm.trans hu)
  constructor
  · rw [hubits, htbits, shl_eq_shiftLeft, shr_eq_ushiftRight, shiftLeft_ushiftRight_of_degree hdeg]
  · rw [hframe.ovf, shiftLeft_ovf ht, hovf, Bool.or_false]

end Sys2Proof.Machine
end

section
/-! The algebra of the reference product (spec/00_scope.md R12), and the multiplication's properties under both policies
(45_multiply.md R160 to R164). -/

namespace Sys2Proof.Machine

variable {a b n : Nat}

/-- Settles O29: both widths are even. -/
theorem convolutionDatapathIsTheProduct : Obligations.ConvolutionDatapathIsTheProduct :=
  ⟨toNat_conv (by decide), toNat_conv (by decide)⟩

/-! ### Coefficients and degrees -/

/-- Coefficient `k` of the product is the XOR of all its pairs (R12). -/
theorem testBit_clmul (a b k : Nat) : (clmul a b).testBit k = pairsBelow a b k (k + 1) := by
  rw [← clmul_rows_of_bitSize_le a b (Nat.le_max_left (bitSize a) (k + 1)), testBit_clmul_rows]
  refine pairsBelow_eq_of_false (Nat.le_max_right _ _) fun i hi _ => ?_
  rw [pairBit, decide_eq_false (Nat.not_le.2 hi), Bool.false_and]

/-- The pairs below `m`, taken in turn, are the XOR of the bits' products as long as no index passes `k`. -/
theorem pairsBelow_eq_foldl (a b : Nat) {k m : Nat} (hm : m ≤ k + 1) :
    pairsBelow a b k m = (List.range m).foldl (fun acc i => acc ^^ (a.testBit i && b.testBit (k - i))) false := by
  induction m with
  | zero => rfl
  | succ m ih =>
    rw [pairsBelow, ih (by omega), pairBit, decide_eq_true (Nat.le_of_lt_succ hm), Bool.true_and, List.range_succ,
      List.foldl_append]
    rfl

/-- Settles O39: the pairs of a coefficient, as a fold. -/
theorem clmulXorsThePairs : Obligations.ClmulXorsThePairs := fun a b k =>
  (testBit_clmul a b k).trans (pairsBelow_eq_foldl a b (Nat.le_refl _))

/-- Settles O40: the highest coefficients' pair stands alone. -/
theorem clmulAddsDegrees : Obligations.ClmulAddsDegrees := fun _ _ => degree_clmul

/-! ### The ring -/

/-- A shift of the second argument shifts the product (R12). -/
theorem clmul_shiftLeft_right (a b n : Nat) : clmul a (b <<< n) = clmul a b <<< n := by
  suffices h : ∀ m, clmul.rows a (b <<< n) m = clmul.rows a b m <<< n from h _
  intro m
  induction m with
  | zero => simp [clmul.rows]
  | succ m ih =>
    rw [clmul.rows, clmul.rows, ih, Nat.shiftLeft_xor_distrib]
    split
    · rw [← Nat.shiftLeft_add, ← Nat.shiftLeft_add, Nat.add_comm]
    · rw [Nat.zero_shiftLeft]

/-- A factor goes into each row of a product (R12). -/
theorem clmul_rows_right (a b c m : Nat) : clmul c (clmul.rows a b m) = clmul.rows a (clmul c b) m := by
  induction m with
  | zero => exact clmul_zero_right c
  | succ m ih =>
    rw [clmul.rows, clmul.rows, clmul_xor_right, ih]
    split
    · rw [clmul_shiftLeft_right]
    · rw [clmul_zero_right]

theorem clmul_left_comm (a b c : Nat) : clmul c (clmul a b) = clmul a (clmul c b) := clmul_rows_right a b c _

theorem clmul_one_right (a : Nat) : clmul a 1 = a := by
  apply Nat.eq_of_testBit_eq
  intro k
  have hlow : pairsBelow a 1 k k = false :=
    pairsBelow_eq_of_false (Nat.zero_le _) fun i _ hi => by
      have hbit : Nat.testBit 1 (k - i) = false := Nat.testBit_lt_two_pow (Nat.one_lt_two_pow (by omega))
      rw [pairBit, hbit, Bool.and_false, Bool.and_false]
  rw [testBit_clmul, pairsBelow, hlow, pairBit]
  simp

/-- The product is commutative: both orders are the factors' product with 1 (R12). -/
theorem clmul_comm (a b : Nat) : clmul a b = clmul b a := calc
  clmul a b = clmul a (clmul b 1) := by rw [clmul_one_right]
  _ = clmul b (clmul a 1) := clmul_left_comm b 1 a
  _ = clmul b a := by rw [clmul_one_right]

theorem clmul_assoc (a b c : Nat) : clmul (clmul a b) c = clmul a (clmul b c) := calc
  clmul (clmul a b) c = clmul c (clmul a b) := clmul_comm _ _
  _ = clmul a (clmul c b) := clmul_left_comm a b c
  _ = clmul a (clmul b c) := by rw [clmul_comm c b]

theorem clmul_one_left (a : Nat) : clmul 1 a = a := (clmul_comm 1 a).trans (clmul_one_right a)

theorem clmul_shiftLeft_left (a b n : Nat) : clmul (a <<< n) b = clmul a b <<< n := by
  rw [clmul_comm, clmul_shiftLeft_right, clmul_comm b]

/-- Settles O41: commutativity and associativity from the rows, distributivity over XOR, and the constants. -/
theorem clmulIsARingProduct : Obligations.ClmulIsARingProduct :=
  ⟨clmul_comm, clmul_assoc, clmul_xor_right, fun a => ⟨clmul_one_left a, clmul_zero_left a⟩⟩

/-! ### The multiplication -/

section Multiplication

variable {s t : State} {x y : Coeffs}

theorem truncProduct_comm (x y : Coeffs) : truncProduct x y = truncProduct y x := by
  rw [truncProduct, clmul_comm, truncProduct]

theorem productOverflows_comm (x y : Coeffs) : productOverflows x y = productOverflows y x := by
  rw [Bool.eq_iff_iff, productOverflows_iff, productOverflows_iff, clmul_comm]

/-- In contract: a factor is 0, or the degrees' sum is below 256 (R161). -/
theorem productOverflows_eq_false_iff :
    productOverflows x y = false ↔ x = 0 ∨ y = 0 ∨ degree x.toNat + degree y.toNat < 256 := by
  rw [Bool.eq_false_iff, ne_eq, productOverflows_iff_degree, ← not_le]
  tauto

/-- In contract the product is exact (R160). -/
theorem toNat_truncProduct_of_fits (h : productOverflows x y = false) :
    (truncProduct x y).toNat = clmul x.toNat y.toNat := by
  rw [toNat_truncProduct]
  refine Nat.mod_eq_of_lt (lt_two_pow_of_degree (not_le.1 fun hle => ?_))
  exact Bool.eq_false_iff.1 h ((productOverflows_iff x y).2 ((le_degree_iff_exists_testBit 256 _).1 hle))

theorem truncProduct_zero_left (y : Coeffs) : truncProduct 0 y = 0 := by
  rw [truncProduct, show (0 : Coeffs).toNat = 0 from rfl, clmul_zero_left]
  rfl

theorem truncProduct_one_left (y : Coeffs) : truncProduct 1 y = y := by
  rw [truncProduct, show (1 : Coeffs).toNat = 1 from rfl, clmul_one_left, BitVec.ofNat_toNat, BitVec.setWidth_eq]

/-- What PMUL leaves, from its two source values alone (R160, R161). -/
theorem exec_pmul (rd rs1 rs2 : PReg) (s : State) :
    exec (.pmul rd rs1 rs2) s =
      complete ((s.setP rd (truncProduct (s.readBits rs1) (s.readBits rs2))).noteOverflow
        (productOverflows (s.readBits rs1) (s.readBits rs2))) := mulWith_truncate rd rs1 rs2 s

/-- PMUL in contract: the product with its degree, and OVF untouched (R160, R161). -/
theorem pmul_of_fits {rd rs1 rs2 : PReg} (hfits : productOverflows (s.readBits rs1) (s.readBits rs2) = false)
    (h : exec (.pmul rd rs1 rs2) s = .next t) :
    HoldsPoly t rd (truncProduct (s.readBits rs1) (s.readBits rs2)) ∧ t.ovf = s.ovf := by
  obtain ⟨u, hu, -, hholds, hovf⟩ := pmul_completes rd rs1 rs2 s
  obtain rfl : u = t := Host.Outcome.next.inj (hu.symm.trans h)
  exact ⟨hholds, by rw [hovf, hfits, Bool.or_false]⟩

/-- PMUL in contract, its product as a number (R160). -/
theorem toNat_readBits_pmul_of_fits {rd rs1 rs2 : PReg}
    (hfits : productOverflows (s.readBits rs1) (s.readBits rs2) = false) (h : exec (.pmul rd rs1 rs2) s = .next t) :
    (t.readBits rd).toNat = clmul (s.readBits rs1).toNat (s.readBits rs2).toNat := by
  rw [(pmul_of_fits hfits h).1.1, toNat_truncProduct_of_fits hfits]

end Multiplication

/-- Settles O44: the product's algebra, read in PMUL's destination. -/
theorem multiplicationProperties : Obligations.MultiplicationProperties := by
  refine ⟨fun rd rs1 rs2 s => ?_, fun rd rs1 rs2 s t h0 h => ?_, fun rd rs1 rs2 s t h1 h => ?_,
    fun rd rs1 rs2 s t ha hb hdeg h => ?_⟩
  · rw [exec_pmul, exec_pmul, truncProduct_comm, productOverflows_comm]
  · have := pmul_of_fits (productOverflows_eq_false_iff.2 (.inl h0)) h
    rwa [h0, truncProduct_zero_left] at this
  · have hdeg : degree (s.readBits rs1).toNat + degree (s.readBits rs2).toNat < 256 := by
      have hle := (degree_range (s.readBits rs2)).2
      rw [h1, show degree (1 : Coeffs).toNat = 0 from rfl]
      omega
    have := pmul_of_fits (productOverflows_eq_false_iff.2 (.inr (.inr hdeg))) h
    rwa [h1, truncProduct_one_left] at this
  · have hfits := productOverflows_eq_false_iff.2 (.inr (.inr hdeg))
    refine ⟨?_, toNat_readBits_pmul_of_fits hfits h⟩
    rw [(pmul_of_fits hfits h).1.2, toNat_truncProduct_of_fits hfits,
      degree_clmul (toNat_ne_zero.2 ha) (toNat_ne_zero.2 hb)]

/-- Under the policy any_value the product in contract is the truncated one (R162). -/
theorem productValue_anyValue_of_fits {x y : Coeffs} (h : productOverflows x y = false) (draws : Nat) :
    productValue .anyValue x y draws = truncProduct x y := by
  rw [productValue, h]
  rfl

/-- Settles O45: only the destination's value is drawn, and only where the product does not fit. -/
theorem anyValuePolicyConfinesTheDraw : Obligations.AnyValuePolicyConfinesTheDraw := by
  intro rd rs1 rs2 s
  obtain ⟨hbits, hdeg⟩ :=
    setP_holds (s := s) rd (productValue .anyValue (s.readBits rs1) (s.readBits rs2) s.draws)
  refine ⟨_, rfl, fun _ _ => rfl, setP_samePBut rd _, rfl, ⟨rfl, rfl, rfl⟩, ⟨rfl, rfl, rfl, rfl, rfl, rfl⟩, rfl,
    hdeg.trans (congrArg _ (congrArg _ hbits.symm)), fun hfits => ?_, fun ha hb hsum => ?_⟩
  · have hfits := productOverflows_eq_false_iff.2 hfits
    refine ⟨(congrArg _ hbits).trans ?_, ?_⟩
    · rw [productValue_anyValue_of_fits hfits, toNat_truncProduct_of_fits hfits]
    · rw [retire_ovf, draw_ovf, noteOverflow_ovf, hfits, Bool.or_false, setP_ovf]
  · rw [retire_ovf, draw_ovf, noteOverflow_ovf, (productOverflows_iff_degree _ _).2 ⟨ha, hb, hsum⟩, Bool.or_true]

end Sys2Proof.Machine
end

section
/-! The recursive multiplier (spec/45_multiply.md R155 to R158): each level's recombination is Karatsuba's identity for
the reference product, cut to 256 coefficients, and each level halves the operands' width, so four levels reach the
convolutions (log 18). -/

namespace Sys2Proof.Machine

variable {a b : Coeffs} {n fuel : Nat}

/-! ### Karatsuba's identity -/

/-- The middle term is the cross products: the outer two cancel in the product of the sums (R155). -/
theorem clmul_cross (x1 x0 y1 y0 : Nat) :
    clmul (x1 ^^^ x0) (y1 ^^^ y0) ^^^ clmul x1 y1 ^^^ clmul x0 y0 = clmul x1 y0 ^^^ clmul x0 y1 := by
  rw [clmul_xor_left, clmul_xor_right, clmul_xor_right]
  calc clmul x1 y1 ^^^ clmul x1 y0 ^^^ (clmul x0 y1 ^^^ clmul x0 y0) ^^^ clmul x1 y1 ^^^ clmul x0 y0
    _ = (clmul x1 y1 ^^^ clmul x1 y1) ^^^ (clmul x0 y0 ^^^ clmul x0 y0) ^^^ (clmul x1 y0 ^^^ clmul x0 y1) := by ac_rfl
    _ = clmul x1 y0 ^^^ clmul x0 y1 := by simp only [Nat.xor_self, Nat.zero_xor]

/-- Karatsuba's identity for the reference product (R155). -/
theorem clmul_karatsuba (x1 x0 y1 y0 n : Nat) :
    clmul (x1 <<< n ^^^ x0) (y1 <<< n ^^^ y0) =
      clmul x1 y1 <<< (2 * n) ^^^ (clmul (x1 ^^^ x0) (y1 ^^^ y0) ^^^ clmul x1 y1 ^^^ clmul x0 y0) <<< n ^^^
        clmul x0 y0 := by
  rw [clmul_cross, clmul_xor_left, clmul_xor_right, clmul_xor_right]
  simp only [clmul_shiftLeft_left, clmul_shiftLeft_right, Nat.shiftLeft_xor_distrib, Nat.two_mul, Nat.shiftLeft_add]
  ac_rfl

/-! ### Split operands -/

theorem getLsbD_lowBits (v : Coeffs) (n i : Nat) : (lowBits v n).getLsbD i = (decide (i < n) && v.getLsbD i) := by
  rw [lowBits, BitVec.getLsbD_and, BitVec.getLsbD_ofNat, Nat.testBit_two_pow_sub_one]
  by_cases hi : i < 256
  · rw [decide_eq_true hi, Bool.true_and, Bool.and_comm]
  · rw [BitVec.getLsbD_of_ge v i (Nat.not_lt.1 hi), Bool.false_and, Bool.and_false]

/-- The low part as a number (R9). -/
theorem toNat_lowBits (v : Coeffs) (n : Nat) : (lowBits v n).toNat = v.toNat % 2 ^ n := by
  apply Nat.eq_of_testBit_eq
  intro i
  rw [BitVec.testBit_toNat, getLsbD_lowBits, Nat.testBit_mod_two_pow, BitVec.testBit_toNat]

theorem toNat_lowBits_lt (v : Coeffs) (n : Nat) : (lowBits v n).toNat < 2 ^ n :=
  toNat_lowBits v n ▸ Nat.mod_lt _ (Nat.two_pow_pos n)

/-- The upper part of a value of twice the width. -/
theorem toNat_ushiftRight_lt {v : Coeffs} (h : v.toNat < 2 ^ (2 * n)) : (v >>> n).toNat < 2 ^ n := by
  rw [BitVec.toNat_ushiftRight, Nat.shiftRight_eq_div_pow]
  exact Nat.div_lt_of_lt_mul (by rwa [← Nat.pow_add, ← Nat.two_mul])

/-- A value is put together by its two parts. -/
theorem split_eq (v : Coeffs) (n : Nat) : (v >>> n).toNat <<< n ^^^ (lowBits v n).toNat = v.toNat := by
  apply Nat.eq_of_testBit_eq
  intro i
  rw [toNat_lowBits, BitVec.toNat_ushiftRight, Nat.testBit_xor, Nat.testBit_shiftLeft, Nat.testBit_shiftRight,
    Nat.testBit_mod_two_pow]
  by_cases hi : i < n
  · simp [hi, Nat.not_le.2 hi]
  · simp [hi, Nat.not_lt.1 hi]

theorem ofNat_shiftLeft (x n : Nat) : BitVec.ofNat 256 (x <<< n) = BitVec.ofNat 256 x <<< n := by
  apply BitVec.eq_of_toNat_eq
  rw [BitVec.toNat_ofNat, BitVec.toNat_shiftLeft, BitVec.toNat_ofNat, Nat.shiftLeft_eq, Nat.shiftLeft_eq,
    Nat.mod_mul_mod]

/-- A value that fits `n` bits is its own low part. -/
theorem lowBits_of_lt {v : Coeffs} (h : v.toNat < 2 ^ n) : lowBits v n = v :=
  BitVec.eq_of_toNat_eq ((toNat_lowBits v n).trans (Nat.mod_eq_of_lt h))

theorem toNat_xor_lt {u v : Coeffs} (hu : u.toNat < 2 ^ n) (hv : v.toNat < 2 ^ n) : (u ^^^ v).toNat < 2 ^ n :=
  BitVec.toNat_xor u v ▸ Nat.xor_lt_two_pow hu hv

/-- Karatsuba's identity for the truncated product, the operands split at bit `n` (R155). -/
theorem truncProduct_karatsuba (a b : Coeffs) (n : Nat) :
    truncProduct (a >>> n) (b >>> n) <<< (2 * n) ^^^
      (truncProduct ((a >>> n) ^^^ lowBits a n) ((b >>> n) ^^^ lowBits b n) ^^^ truncProduct (a >>> n) (b >>> n) ^^^
        truncProduct (lowBits a n) (lowBits b n)) <<< n ^^^
      truncProduct (lowBits a n) (lowBits b n) = truncProduct a b := by
  rw [truncProduct, truncProduct, truncProduct, truncProduct, ← split_eq a n, ← split_eq b n, clmul_karatsuba]
  simp only [BitVec.ofNat_xor, ofNat_shiftLeft, BitVec.toNat_xor]

/-! ### The leaves -/

/-- A convolution of the low W bits is the product of operands that fit W bits (R157). -/
theorem conv_eq_truncProduct {w : Nat} (hw : w % 2 = 0) (ha : a.toNat < 2 ^ w) (hb : b.toNat < 2 ^ w) :
    (conv (a.setWidth w) (b.setWidth w)).setWidth 256 = truncProduct a b := by
  apply BitVec.eq_of_toNat_eq
  rw [toNat_truncProduct, BitVec.toNat_setWidth, toNat_conv hw, BitVec.toNat_setWidth, BitVec.toNat_setWidth,
    Nat.mod_eq_of_lt ha, Nat.mod_eq_of_lt hb]

theorem bitSize_le_iff {v n : Nat} : bitSize v ≤ n ↔ v < 2 ^ n := by
  constructor
  · exact fun h => (lt_two_pow_bitSize v).trans_le (Nat.pow_le_pow_right (by decide) h)
  · intro h
    have hdeg := degree_lt h
    have hsize := bitSize_eq v
    omega

/-- The used blocks bound the value (R122). -/
theorem valueBlocks_le_iff {v : Coeffs} {k : Nat} : valueBlocks v ≤ k ↔ v.toNat < 2 ^ (64 * k) := by
  have hrange := degree_range v
  have hdeg : valueBlocks v ≤ k ↔ degree v.toNat < 64 * k := by
    unfold valueBlocks usedBlocks
    split <;> omega
  rw [hdeg]
  exact ⟨fun h => lt_two_pow_of_degree (by exact_mod_cast h), fun h => by exact_mod_cast degree_lt h⟩

theorem valueBlocks_eq_one {v : Coeffs} (h0 : v ≠ 0) (h : v.toNat < 2 ^ 64) : valueBlocks v = 1 := by
  have hle : valueBlocks v ≤ 1 := valueBlocks_le_iff.2 h
  have hpos : ¬ valueBlocks v ≤ 0 := fun hz => toNat_ne_zero.2 h0 (Nat.lt_one_iff.1 (valueBlocks_le_iff.1 hz))
  omega

/-- A zero operand (R155). -/
theorem kmulLevels_of_zero (fuel : Nat) (h : a = 0 ∨ b = 0) : kmulLevels (fuel + 1) a b = truncProduct a b := by
  rw [kmulLevels, if_pos h]
  obtain rfl | rfl := h
  · rw [truncProduct_zero_left]
  · rw [truncProduct_comm, truncProduct_zero_left]

/-- Operands of at most 32 bits are convolved (R157). -/
theorem kmulLevels_of_lt (fuel : Nat) (ha : a.toNat < 2 ^ 32) (hb : b.toNat < 2 ^ 32) :
    kmulLevels (fuel + 1) a b = truncProduct a b := by
  by_cases h0 : a = 0 ∨ b = 0
  · exact kmulLevels_of_zero fuel h0
  obtain ⟨ha0, hb0⟩ := not_or.1 h0
  have hword : valueBlocks a = 1 ∧ valueBlocks b = 1 :=
    ⟨valueBlocks_eq_one ha0 (ha.trans (by decide)), valueBlocks_eq_one hb0 (hb.trans (by decide))⟩
  rw [kmulLevels, if_neg h0, if_pos hword]
  simp only [Nat.max_le, bitSize_le_iff]
  split
  · next h => exact conv_eq_truncProduct (by decide) h.1 h.2
  · exact (if_pos ⟨ha, hb⟩).trans (conv_eq_truncProduct (by decide) ha hb)

/-! ### A 64-bit word split in two -/

/-- Tier 2's recombination is a shift of each term (R156). -/
theorem combine1_eq (c2 c1 c0 : Word) :
    combine1 c2 c1 c0 = c2.setWidth 256 <<< 64 ^^^ c1.setWidth 256 <<< 32 ^^^ c0.setWidth 256 := by
  apply BitVec.eq_of_getLsbD_eq
  intro i hi
  simp only [combine1, BitVec.getLsbD_setWidth, BitVec.getLsbD_append, BitVec.getLsbD_xor, BitVec.getLsbD_shiftLeft,
    BitVec.getLsbD_ushiftRight]
  by_cases hlow : i < 64
  · have hin : i - 32 < 256 := by omega
    by_cases h32 : i < 32
    · simp [hi, hlow, h32]
    · simp [hi, hlow, h32, hin, Bool.xor_comm]
  · have hidx : 32 + (i - 64) = i - 32 ∧ i - 32 < 256 ∧ i - 64 < 256 ∧ ¬ i < 32 := by omega
    simp [hi, hlow, hidx, BitVec.getLsbD_of_ge c0 i (Nat.not_lt.1 hlow)]

theorem setWidth_setWidth_of_lt {c : Coeffs} (h : c.toNat < 2 ^ 64) : (c.setWidth 64).setWidth 256 = c := by
  apply BitVec.eq_of_toNat_eq
  rw [BitVec.toNat_setWidth_of_le (by decide), BitVec.toNat_setWidth, Nat.mod_eq_of_lt h]

/-- The product of two 32-bit values fits a word (R156). -/
theorem toNat_truncProduct_lt (ha : a.toNat < 2 ^ 32) (hb : b.toNat < 2 ^ 32) : (truncProduct a b).toNat < 2 ^ 64 := by
  rw [toNat_truncProduct]
  exact (Nat.mod_le _ _).trans_lt ((clmul_lt ha hb).trans (by decide))

/-- A word that is split: below 2^64, and too wide for the convolutions (R156). -/
theorem kmulLevels_of_word (h0 : ¬ (a = 0 ∨ b = 0)) (hword : valueBlocks a = 1 ∧ valueBlocks b = 1)
    (hwide : ¬ (a.toNat < 2 ^ 32 ∧ b.toNat < 2 ^ 32))
    (ih : ∀ x y : Coeffs, x.toNat < 2 ^ 32 → y.toNat < 2 ^ 32 → kmulLevels fuel x y = truncProduct x y) :
    kmulLevels (fuel + 1) a b = truncProduct a b := by
  have hwide16 : ¬ (a.toNat < 2 ^ 16 ∧ b.toNat < 2 ^ 16) := by omega
  have ha1 := toNat_ushiftRight_lt (n := 32) (valueBlocks_le_iff.1 hword.1.le)
  have hb1 := toNat_ushiftRight_lt (n := 32) (valueBlocks_le_iff.1 hword.2.le)
  have ha0 := toNat_lowBits_lt a 32
  have hb0 := toNat_lowBits_lt b 32
  have hsa := toNat_xor_lt ha1 ha0
  have hsb := toNat_xor_lt hb1 hb0
  have hc2 := toNat_truncProduct_lt ha1 hb1
  have hc0 := toNat_truncProduct_lt ha0 hb0
  have hc1 := toNat_xor_lt (toNat_xor_lt (toNat_truncProduct_lt hsa hsb) hc2) hc0
  rw [kmulLevels, if_neg h0, if_pos hword]
  simp only [Nat.max_le, bitSize_le_iff, if_neg hwide, if_neg hwide16, lowBits_of_lt ha1, lowBits_of_lt hb1]
  rw [ih _ _ ha1 hb1, ih _ _ ha0 hb0, ih _ _ hsa hsb, combine1_eq, setWidth_setWidth_of_lt hc2,
    setWidth_setWidth_of_lt hc1, setWidth_setWidth_of_lt hc0]
  exact truncProduct_karatsuba a b 32

/-! ### A split at a block boundary -/

/-- Operands split at half of the larger one's blocks (R155). -/
theorem kmulLevels_of_blocks (h0 : ¬ (a = 0 ∨ b = 0)) (hblocks : ¬ (valueBlocks a = 1 ∧ valueBlocks b = 1))
    (hn : n = 64 * ((max (valueBlocks a) (valueBlocks b) + 1) / 2))
    (ih : ∀ x y : Coeffs, x.toNat < 2 ^ n → y.toNat < 2 ^ n → kmulLevels fuel x y = truncProduct x y) :
    kmulLevels (fuel + 1) a b = truncProduct a b := by
  have ha : a.toNat < 2 ^ (2 * n) :=
    (valueBlocks_le_iff.1 (Nat.le_refl _)).trans_le (Nat.pow_le_pow_right (by decide) (by omega))
  have hb : b.toNat < 2 ^ (2 * n) :=
    (valueBlocks_le_iff.1 (Nat.le_refl _)).trans_le (Nat.pow_le_pow_right (by decide) (by omega))
  have ha1 := toNat_ushiftRight_lt ha
  have hb1 := toNat_ushiftRight_lt hb
  have ha0 := toNat_lowBits_lt a n
  have hb0 := toNat_lowBits_lt b n
  have hdouble : 128 * ((max (valueBlocks a) (valueBlocks b) + 1) / 2) = 2 * n := by omega
  rw [kmulLevels, if_neg h0, if_neg hblocks]
  simp only [shl_eq_shiftLeft, shr_eq_ushiftRight, hdouble, ← hn]
  rw [ih _ _ ha1 hb1, ih _ _ ha0 hb0, ih _ _ (toNat_xor_lt ha1 ha0) (toNat_xor_lt hb1 hb0)]
  exact truncProduct_karatsuba a b n

/-! ### The levels -/

/-- With `fuel + 1` levels the multiplier reaches the convolutions from operands of 32·2^fuel bits (log 18). -/
theorem kmulLevels_eq_truncProduct (fuel : Nat) : ∀ a b : Coeffs, a.toNat < 2 ^ (32 * 2 ^ fuel) →
    b.toNat < 2 ^ (32 * 2 ^ fuel) → kmulLevels (fuel + 1) a b = truncProduct a b := by
  induction fuel with
  | zero => exact fun a b ha hb => kmulLevels_of_lt 0 ha hb
  | succ fuel ih =>
    intro a b ha hb
    by_cases hsmall : a.toNat < 2 ^ 32 ∧ b.toNat < 2 ^ 32
    · exact kmulLevels_of_lt _ hsmall.1 hsmall.2
    by_cases h0 : a = 0 ∨ b = 0
    · exact kmulLevels_of_zero _ h0
    have hpow : 32 * 2 ^ (fuel + 1) = 64 * 2 ^ fuel := by rw [Nat.pow_succ]; omega
    by_cases hword : valueBlocks a = 1 ∧ valueBlocks b = 1
    · have hle : 32 ≤ 32 * 2 ^ fuel := Nat.le_mul_of_pos_right 32 (Nat.two_pow_pos fuel)
      have hmono := Nat.pow_le_pow_right (Nat.two_pos) hle
      exact kmulLevels_of_word h0 hword hsmall fun x y hx hy => ih x y (hx.trans_le hmono) (hy.trans_le hmono)
    · rw [hpow] at ha hb
      have hva := valueBlocks_le_iff.2 ha
      have hvb := valueBlocks_le_iff.2 hb
      have hcut : 64 * ((max (valueBlocks a) (valueBlocks b) + 1) / 2) ≤ 32 * 2 ^ fuel := by
        cases fuel with
        | zero =>
          -- A nonzero operand of one block uses just that block.
          obtain ⟨ha0, hb0⟩ := not_or.1 h0
          exact absurd ⟨valueBlocks_eq_one ha0 ha, valueBlocks_eq_one hb0 hb⟩ hword
        | succ k =>
          rw [Nat.pow_succ] at hva hvb ⊢
          omega
      have hmono := Nat.pow_le_pow_right (Nat.two_pos) hcut
      exact kmulLevels_of_blocks h0 hword rfl fun x y hx hy => ih x y (hx.trans_le hmono) (hy.trans_le hmono)

/-- Settles O43: four levels reach the convolutions from 256-bit operands. -/
theorem karatsubaDatapathIsTheProduct : Obligations.KaratsubaDatapathIsTheProduct := fun a b =>
  kmulLevels_eq_truncProduct 3 a b a.isLt b.isLt

end Sys2Proof.Machine
end
